-- ==== Sys2Proof/Word.lean ====
section
/-! DEFINITION. The word types of the MSL LZW codec core (spec/00_scope.md R7, R8, R11): a symbol is one byte, a register and an address are 32 bits. -/

namespace Sys2Proof

/-- One byte, "a symbol" (R11): the unit of the memory port and of the data the core encodes. -/
abbrev Byte := BitVec 8

/-- One register, one address, one length (R7: register width, ADDR_WIDTH and LEN_WIDTH are 32). -/
abbrev Word := BitVec 32

end Sys2Proof
end

