-- ==== Sys2Proof/Config.lean ====
section
/-! DEFINITION. What an implementation of the core fixes (the parameters M and F of spec/00_scope.md R7) and the free values: what the spec leaves open, as constants without a body. -/

namespace Sys2Proof

/-- The model parameters of R7, each within its legal range by construction: `MAX_CODE_WIDTH` is
`9 + widthOverNine` (9..16) and `RATIO_FRAC_BITS` is `fracBits` (0..16). They are held in the machine's
state, where PARAM (R24) reads them; no step changes them. -/
structure Params where
  widthOverNine : Fin 8
  fracBits      : Fin 17
  deriving DecidableEq, Repr

/-- M = MAX_CODE_WIDTH (R7). -/
def Params.maxWidth (p : Params) : Nat := 9 + p.widthOverNine.val

/-- F = RATIO_FRAC_BITS (R7). -/
def Params.frac (p : Params) : Nat := p.fracBits.val

/-- DICT_SIZE = 2^M codes (R7, R124). -/
def Params.dictSize (p : Params) : Nat := 2 ^ p.maxWidth

/-- This hardware's values (R7): M = 16, F = 0. -/
def Params.hardware : Params := { widthOverNine := 7, fracBits := 0 }

/-- FREE VALUE (log entry 5). The byte the spec calls unspecified, for the `n`-th draw of a run and the address it
stands at: the destination window after a failed command, after a reset while busy, and as the host reads it while
a command runs or before a STATUS read has ordered the command's writes (R69, R71, R72, R322). -/
opaque Config.freeByte : Nat → Nat → Byte

/-- FREE VALUE (log entry 6). Which of the values a source byte has had an engine read returns, for the `n`-th draw
of a run and the byte's address, where the host wrote the byte while the command ran or did no cache maintenance (R72). -/
opaque Config.freePick : Nat → Nat → Nat

end Sys2Proof
end

