-- ==== Sys2Proof/Syntax.lean ====
section
/-! DEFINITION. The syntax: the commands of spec/opcode_table.json (the core's only instructions, spec/00_scope.md R2), the names of the registers (spec/10_state.md R22), and what the host and the platform can do to the core (spec/30_encoding.md R103, spec/70_reset_and_hazards.md R320). -/

namespace Sys2Proof

/-- The core's instructions: one constructor per row of spec/opcode_table.json. A command word carries no operand (R92). -/
inductive Instr where
  | nop
  | compress
  | uncompress
  deriving DecidableEq, Repr

/-- The named registers of R22. -/
inductive Reg where
  | param | ctrl | cmd | status | srcAddr | srcLen | dstAddr | dstCap | ratio | outLen
  deriving DecidableEq, Repr

/-- One move of the host or of the platform. Offsets are relative to REG_BASE; `bytes` is the access width. -/
inductive HostMove where
  /-- The host makes no access. -/
  | idle
  /-- A register read (RD32, R259 when it is 4 bytes wide). -/
  | read (offset bytes : Nat)
  /-- A register write (WR32, R260 when it is 4 bytes wide). -/
  | write (offset bytes : Nat) (value : Word)
  /-- POLL (R103): the 32-bit read is repeated until the value read, masked, is `value`. -/
  | poll (offset : Nat) (mask value : Word)
  /-- The host reads one byte of memory. -/
  | memRead (address : Nat)
  /-- The host writes one byte of memory. -/
  | memWrite (address : Nat) (value : Byte)
  /-- The host's or the platform's own cache maintenance (R71, R76). -/
  | maintain
  /-- A reset event on the reset input (R320). -/
  | reset
  deriving DecidableEq, Repr

/-- How the platform answers the engine's accesses of a turn. -/
inductive PortAnswer where
  /-- Every access completes, without an error. -/
  | completes
  /-- It reports an error on an access, where a window holds an address it rejects (R286). -/
  | error
  /-- No access completes in this turn; in every turn, it is an access that never completes (R258, R337). -/
  | pending
  deriving DecidableEq, Repr

/-- One turn of the schedule: a host move, then the number of engine steps that pass before the host's next move
(R336: any finite number), and how the platform answers the engine's accesses of this turn. -/
structure Turn where
  move : HostMove
  pace : Nat
  port : PortAnswer
  deriving DecidableEq, Repr

end Sys2Proof
end

