-- ==== Sys2Proof/WellFormed.lean ====
section
/-! DEFINITION. Which terms of the syntax the spec gives a meaning: every command (it carries no operand, spec/30_encoding.md R92), the register accesses of spec/10_state.md R23, and memory addresses below 2^32 (spec/20_memory.md R60). -/

namespace Sys2Proof

/-- Every command is well-formed: it has no operand that could be out of range (R92). -/
def Instr.wf : Instr → Bool
  | .nop        => true
  | .compress   => true
  | .uncompress => true

/-- The register accesses R23 defines: 32 bits wide, naturally aligned, at an offset 0x00..0x3C. -/
def regAccessOk (offset bytes : Nat) : Bool :=
  decide (bytes = 4) && decide (offset % 4 = 0) && decide (offset < 0x40)

/-- The addresses of the flat space of 2^32 bytes (R60). -/
def addressOk (address : Nat) : Bool := decide (address < 2 ^ 32)

/-- A host move the spec gives a meaning. -/
def HostMove.wf : HostMove → Bool
  | .idle                  => true
  | .read offset bytes     => regAccessOk offset bytes
  | .write offset bytes _  => regAccessOk offset bytes
  | .poll offset _ _       => regAccessOk offset 4
  | .memRead address       => addressOk address
  | .memWrite address _    => addressOk address
  | .maintain              => true
  | .reset                 => true

end Sys2Proof
end

