-- ==== Sys2Proof/Decode.lean ====
section
/-! DEFINITION. Decoding of the command word (spec/30_encoding.md R90, R91, R93), its encoder, and the register map's offsets (spec/10_state.md R22). -/

namespace Sys2Proof

/-- Why a word is no command. -/
inductive DecodeError where
  /-- The value is none of 0x0, 0x1, 0x2 (R91): the machine then does ILLEGAL_CMD (R254). -/
  | illegalCommand (word : Word)
  deriving DecidableEq, Repr

/-- decode_cmd (R93): the full 32-bit value selects the command. -/
def decode (v : Word) : Except DecodeError Instr :=
  if v = 0x00000000#32 then .ok .nop
  else if v = 0x00000001#32 then .ok .compress
  else if v = 0x00000002#32 then .ok .uncompress
  else .error (.illegalCommand v)

/-- The word of a command (R90): RSV = 0 in bits 31:4, OP in bits 3:0. -/
def encode (i : Instr) : Word :=
  match i with
  | .nop        => 0#28 ++ 0#4
  | .compress   => 0#28 ++ 1#4
  | .uncompress => 0#28 ++ 2#4

/-- The host's question (spec/opcode_table.json's numbering): the command read from the low `nbits` bits of `w`. -/
def decodeTableWord (nbits w : Nat) : Option Instr :=
  let v := w % 2 ^ nbits
  if v < 2 ^ 32 then
    match decode (BitVec.ofNat 32 v) with
    | .ok i    => some i
    | .error _ => none
  else none

/-- The offset of a register in the 64-byte window (R22). -/
def regOffset (r : Reg) : Nat :=
  match r with
  | .param   => 0x00
  | .ctrl    => 0x04
  | .cmd     => 0x08
  | .status  => 0x0C
  | .srcAddr => 0x10
  | .srcLen  => 0x14
  | .dstAddr => 0x18
  | .dstCap  => 0x1C
  | .ratio   => 0x20
  | .outLen  => 0x24

/-- The register at an offset (R22); `none` for the reserved offsets 0x28..0x3C. -/
def regAt (offset : Nat) : Option Reg :=
  match offset with
  | 0x00 => some .param
  | 0x04 => some .ctrl
  | 0x08 => some .cmd
  | 0x0C => some .status
  | 0x10 => some .srcAddr
  | 0x14 => some .srcLen
  | 0x18 => some .dstAddr
  | 0x1C => some .dstCap
  | 0x20 => some .ratio
  | 0x24 => some .outLen
  | _    => none

end Sys2Proof
end

