-- ==== Sys2Proof/Machine/State.lean ====
section
/-! DEFINITION. The state of the machine as plain data: every register of spec/10_state.md, the engine's hidden state (R38 to R40), the memory behind the memory port (spec/20_memory.md R60), and the outside world's part (schedule, platform); the reset state (spec/70_reset_and_hazards.md R321); faults and refusals. -/

namespace Sys2Proof.Machine

/-- The RESULT codes (R280); the reserved codes 10..15 are never produced and have no constructor. -/
inductive Result where
  | none | ok | noBenefit | errRatio | errUndefCode | errTruncated | errDstOverflow | errConfig | errIllegalCmd | errBus
  deriving DecidableEq, Repr

/-- The engine's `op` register (R38): the running command. -/
inductive Op where
  | compress | uncompress
  deriving DecidableEq, Repr

/-- Where the engine stands in the sequence of R252: before the checks of R63 and R211, before the pass's
initialization, or in the pass's loop ("hidden sequencing state", R37). -/
inductive Stage where
  | checks | start | loop
  deriving DecidableEq, Repr

/-- A dictionary entry (PREFIX[c], SUFFIX[c]) (R40). -/
structure Entry where
  prefixCode : Nat
  suffix     : Byte
  deriving DecidableEq, Repr

/-- The host-visible registers (R22). PARAM is constant (`State.params`); CMD holds no value (R26); STATUS.BUSY is
the engine's phase (R28) and is held there. -/
structure Regs where
  /-- CTRL.IRQ_EN (R25). -/
  irqEn   : Bool
  /-- STATUS.DONE (R29). -/
  done    : Bool
  /-- STATUS.RESULT (R30). -/
  result  : Result
  srcAddr : Word
  srcLen  : Word
  dstAddr : Word
  dstCap  : Word
  ratio   : Word
  outLen  : Word
  deriving DecidableEq, Repr

/-- The engine's hidden state (R38). Counters and codes are numbers; that each stays within the width R38 gives it is
an invariant of the machine (Safety.lean). -/
structure Engine where
  /-- `phase`, equal to STATUS.BUSY (R28). -/
  busy    : Bool
  op      : Op
  stage   : Stage
  lSrc    : Word
  lLen    : Word
  lDst    : Word
  lCap    : Word
  lRatio  : Word
  /-- PREFIX and SUFFIX (R40), the newest entry first: the entry with `n` entries behind it is code `256 + n`. -/
  table   : List Entry
  /-- Encoder: code of the current match. -/
  S       : Nat
  /-- Encoder: index of the next input byte. -/
  k       : Nat
  /-- Decoder: previous code. -/
  prev    : Nat
  /-- Code index: codes emitted or read so far. -/
  i       : Nat
  /-- Decoder: stream bits consumed. -/
  bitpos  : Nat
  /-- Bit writer: pending bits. -/
  acc     : Nat
  /-- Bit writer: number of pending bits. -/
  nacc    : Nat
  /-- Bytes of output produced so far. -/
  olen    : Nat
  deriving DecidableEq, Repr

/-- The free-code counter `free` (R38, R40): held as the number of entries, so that the two cannot disagree. -/
def Engine.free (e : Engine) : Nat := 256 + e.table.length

/-- The memory behind the memory port (R60): (address, byte) pairs in the canonical form of `Memory.wf`. -/
abbrev Memory := List Host.Cell

/-- A range of addresses at which the platform rejects engine reads or writes (R64, R286). -/
structure Region where
  base          : Nat
  size          : Nat
  rejectsRead   : Bool
  rejectsWrite  : Bool
  deriving DecidableEq, Repr

/-- The platform's parameters: the addresses it rejects (R64, R286), REG_BASE and whether the memory port reaches the
core's own registers there (R61, R64), and PLATFORM_COHERENT (R71). No step changes them. -/
structure Platform where
  regions       : List Region
  regBase       : Word
  mapsRegisters : Bool
  coherent      : Bool
  deriving DecidableEq, Repr

/-- The outside world. -/
structure Env where
  /-- The turns still to come, the next one first; any list is a legal schedule (R336, R337). -/
  agenda     : List Turn
  /-- Engine steps that pass in the current turn (R336). -/
  pace       : Nat
  /-- How the platform answers the engine's accesses of the current turn (R258, R286). -/
  port       : PortAnswer
  platform   : Platform
  /-- The data the host's last register or memory read returned (R259). -/
  hostData   : Word
  /-- Older values, newest first, of source bytes the host wrote while this command runs (R72). -/
  racing     : List Host.Cell
  /-- Older values, newest first, of bytes the host wrote on a platform that is not coherent, until maintenance (R71). -/
  shadow     : List Host.Cell
  /-- Destination bytes the host wrote while the command ran (R72). -/
  touched    : List Nat
  /-- Ranges (base, size) that a command which has ended may have written, until a STATUS read of the host orders those
  writes before the host's later reads (R71, R73). -/
  unseen     : List (Nat × Nat)
  /-- Such ranges after the STATUS read, on a platform that is not coherent, until maintenance (R71). -/
  stale      : List (Nat × Nat)
  /-- The MODEL'S OWN counter of free values drawn. -/
  draws      : Nat
  deriving DecidableEq, Repr

/-- The whole machine. -/
structure State where
  params : Params
  regs   : Regs
  eng    : Engine
  mem    : Memory
  env    : Env
  deriving DecidableEq, Repr

/-- Stops of the machine itself. The core raises none (R291: every error of a command is a RESULT code). -/
inductive Fault where
  /-- A host memory access at an address that does not exist (R60: the space has 2^32 bytes); raised by `HostMove.memRead` and `HostMove.memWrite`; safe. -/
  | noSuchAddress (address : Nat)
  deriving DecidableEq, Repr

/-- What the model gives no meaning. -/
inductive Refusal where
  /-- An instruction without a meaning; raised by no arm of exec; safe. -/
  | notModelled (mnemonic : String)
  /-- A register access the spec gives no meaning (R23: other widths, unaligned, offset 0x40 and above); raised by `HostMove.read`, `HostMove.write` and `HostMove.poll`; safe. -/
  | unsupportedRegisterAccess (offset bytes : Nat)
  /-- A command that would access a window the platform maps onto the core's own registers (R61, 93_implementation_defined.md U21: refuse); raised by COMPRESS and UNCOMPRESS; safe. -/
  | windowOnRegisters
  deriving DecidableEq, Repr

/-- The registers after reset (R321). -/
def Regs.reset : Regs :=
  { irqEn := false, done := false, result := .none, srcAddr := 0, srcLen := 0, dstAddr := 0, dstCap := 0, ratio := 0,
    outLen := 0 }

/-- The engine after reset (R321): IDLE, `free` = 256. The other fields are unspecified there; zero is a DESIGN CHOICE
(log entry 1). -/
def Engine.reset : Engine :=
  { busy := false, op := .compress, stage := .checks, lSrc := 0, lLen := 0, lDst := 0, lCap := 0, lRatio := 0, table := [],
    S := 0, k := 0, prev := 0, i := 0, bitpos := 0, acc := 0, nacc := 0, olen := 0 }

/-- The platform in `State.reset` (DESIGN CHOICE, log entry 3): it rejects no address and is coherent. -/
def Platform.default : Platform := { regions := [], regBase := 0, mapsRegisters := false, coherent := true }

/-- The outside world in `State.reset` (DESIGN CHOICE, log entry 3): no move is scheduled. -/
def Env.quiet : Env :=
  { agenda := [], pace := 0, port := .completes, platform := Platform.default, hostData := 0, racing := [], shadow := [],
    touched := [], unseen := [], stale := [], draws := 0 }

/-- The machine right after reset (R321), with this hardware's parameters (R7) and memory with nothing listed. -/
def State.reset : State :=
  { params := Params.hardware, regs := Regs.reset, eng := Engine.reset, mem := [], env := Env.quiet }

end Sys2Proof.Machine
end

