-- ==== Sys2Proof/Machine/Operands.lean ====
section
/-! DEFINITION. The operands of a command: the latched copies (spec/10_state.md R39), the source and destination windows and their checks (spec/20_memory.md R62, R63), the ratio bound (spec/43_uncompress.md R211, R212), and what the platform rejects in the windows (R61, R286). -/

namespace Sys2Proof.Machine

/-- Two ranges [a, a+n) and [b, b+m) share an address; an empty range contains none (R62). -/
def rangesMeet (a n b m : Nat) : Bool :=
  decide (0 < n) && decide (0 < m) && decide (a < b + m) && decide (b < a + n)

/-- `address` lies in the range [base, base+size). -/
def inRange (base size address : Nat) : Bool := decide (base ≤ address) && decide (address < base + size)

/-- `address` lies in one of the ranges (base, size). -/
def inWindows (ws : List (Nat × Nat)) (address : Nat) : Bool := ws.any fun w => inRange w.1 w.2 address

/-- The range [a, a+n) without the addresses of [b, b+m), as the range below them and the range above. -/
def rangeMinus (a n b m : Nat) : List (Nat × Nat) :=
  [(a, min (a + n) b - a), (max a (b + m), a + n - max a (b + m))]

/-- Ranges without one address. -/
def windowsWithout (ws : List (Nat × Nat)) (address : Nat) : List (Nat × Nat) :=
  ws.flatMap fun w => rangeMinus w.1 w.2 address 1

/-- Window validity (R63): neither window runs past 2^32 (exact sums), and they do not overlap. -/
def windowsLegal (src len dst cap : Nat) : Bool :=
  decide (src + len ≤ 2 ^ 32) && decide (dst + cap ≤ 2 ^ 32) && !rangesMeet src len dst cap

/-- The checks a command passes before any memory access: R63, and for UNCOMPRESS R211 (RATIO is not 0). -/
def operandsLegal (op : Op) (src len dst cap ratio : Word) : Bool :=
  windowsLegal src.toNat len.toNat dst.toNat cap.toNat &&
    match op with
    | .compress   => true
    | .uncompress => decide (ratio ≠ 0)

/-- The latched operands pass the checks. -/
def Engine.configOk (e : Engine) : Bool := operandsLegal e.op e.lSrc e.lLen e.lDst e.lCap e.lRatio

/-- `address` is in the running command's source window (R62). -/
def Engine.inSrc (e : Engine) (address : Nat) : Bool := inRange e.lSrc.toNat e.lLen.toNat address

/-- `address` is in the running command's destination window (R62). -/
def Engine.inDst (e : Engine) (address : Nat) : Bool := inRange e.lDst.toNat e.lCap.toNat address

/-- The ranges the running command may write: its destination window, and never a byte of its source window (R66). The two
meet only where the operands are illegal (R63). -/
def Engine.target (e : Engine) : List (Nat × Nat) := rangeMinus e.lDst.toNat e.lCap.toNat e.lSrc.toNat e.lLen.toNat

/-- Latching at acceptance (R39, R252): BUSY, `op` and the copies of the operand registers; the engine then stands
before its checks. -/
def latch (op : Op) (r : Regs) (e : Engine) : Engine :=
  { e with busy := true, op := op, stage := .checks, lSrc := r.srcAddr, lLen := r.srcLen, lDst := r.dstAddr,
           lCap := r.dstCap, lRatio := r.ratio }

/-- The ratio bound (R212): x * 2^F <= n * R, exactly. -/
def withinRatio (p : Params) (x n ratio : Nat) : Bool := decide (x * 2 ^ p.frac ≤ n * ratio)

/-- Some address of the windows is one the platform rejects for the access the engine makes there (R286): reads of the
source window, writes of the destination window. A command of zero input bytes makes no access (R182, R222). -/
def windowsRejected (pl : Platform) (src len dst cap : Nat) : Bool :=
  decide (len ≠ 0) &&
    pl.regions.any fun r =>
      (r.rejectsRead && rangesMeet src len r.base r.size) || (r.rejectsWrite && rangesMeet dst cap r.base r.size)

/-- The latched windows hold an address the platform rejects. -/
def Engine.rejected (e : Engine) (pl : Platform) : Bool :=
  windowsRejected pl e.lSrc.toNat e.lLen.toNat e.lDst.toNat e.lCap.toNat

/-- A window lies on the addresses at which the memory port reaches the core's own 64-byte register window (R61), and
the command would access it. -/
def windowsOnRegisters (pl : Platform) (src len dst cap : Nat) : Bool :=
  pl.mapsRegisters && decide (len ≠ 0) &&
    (rangesMeet src len pl.regBase.toNat 0x40 || rangesMeet dst cap pl.regBase.toNat 0x40)

end Sys2Proof.Machine
end

