-- ==== Sys2Proof/Machine/Flags.lean ====
section
/-! DEFINITION. The status bits and the words the host reads: RESULT's codes (spec/60_exceptions.md R280), STATUS, PARAM and CTRL (spec/10_state.md R24, R25, R27), and `irq` (R43). -/

namespace Sys2Proof.Machine

/-- The 4-bit code of a RESULT (R280). -/
def Result.code (r : Result) : BitVec 4 :=
  match r with
  | .none           => 0
  | .ok             => 1
  | .noBenefit      => 2
  | .errRatio       => 3
  | .errUndefCode   => 4
  | .errTruncated   => 5
  | .errDstOverflow => 6
  | .errConfig      => 7
  | .errIllegalCmd  => 8
  | .errBus         => 9

/-- The results after which the destination window's bytes are unspecified (R69). -/
def Result.leavesWindowOpen (r : Result) : Bool :=
  match r with
  | .none | .ok | .errConfig | .errIllegalCmd => false
  | .noBenefit | .errRatio | .errUndefCode | .errTruncated | .errDstOverflow | .errBus => true

/-- STATUS as read (R27): RESULT in bits 11:8, DONE in bit 1, BUSY in bit 0, every other bit 0. -/
def statusWord (busy done : Bool) (r : Result) : Word :=
  0#20 ++ r.code ++ 0#6 ++ BitVec.ofBool done ++ BitVec.ofBool busy

/-- PARAM as read (R24): {19'b0, F[4:0], 3'b0, M[4:0]}. -/
def paramWord (p : Params) : Word := 0#19 ++ BitVec.ofNat 5 p.frac ++ 0#3 ++ BitVec.ofNat 5 p.maxWidth

/-- CTRL as read (R25): IRQ_EN in bit 0, every other bit 0. -/
def ctrlWord (irqEn : Bool) : Word := 0#31 ++ BitVec.ofBool irqEn

/-- The interrupt output (R43), a level. -/
def State.irq (s : State) : Bool := s.regs.irqEn && s.regs.done

/-- STATUS as read in a state. -/
def State.status (s : State) : Word := statusWord s.eng.busy s.regs.done s.regs.result

/-- The value a defined 32-bit read at `offset` returns (R259, R24 to R36); 0 for CMD (R26) and for reserved offsets. -/
def State.readReg (s : State) (offset : Nat) : Word :=
  match regAt offset with
  | some .param   => paramWord s.params
  | some .ctrl    => ctrlWord s.regs.irqEn
  | some .cmd     => 0
  | some .status  => s.status
  | some .srcAddr => s.regs.srcAddr
  | some .srcLen  => s.regs.srcLen
  | some .dstAddr => s.regs.dstAddr
  | some .dstCap  => s.regs.dstCap
  | some .ratio   => s.regs.ratio
  | some .outLen  => s.regs.outLen
  | none          => 0

/-- The effect of a defined 32-bit write at an offset other than CMD's (R260): CTRL.IRQ_EN, the operand registers, and
STATUS.DONE, which a 1 in bit 1 clears (R261); read-only and reserved offsets ignore it. -/
def Regs.write (r : Regs) (offset : Nat) (v : Word) : Regs :=
  match regAt offset with
  | some .ctrl    => { r with irqEn := v.getLsbD 0 }
  | some .status  => { r with done := r.done && !v.getLsbD 1 }
  | some .srcAddr => { r with srcAddr := v }
  | some .srcLen  => { r with srcLen := v }
  | some .dstAddr => { r with dstAddr := v }
  | some .dstCap  => { r with dstCap := v }
  | some .ratio   => { r with ratio := v }
  | some .param   => r
  | some .cmd     => r
  | some .outLen  => r
  | none          => r

end Sys2Proof.Machine
end

