-- ==== Sys2Proof/Machine/Ops.lean ====
section
/-! DEFINITION. The named operations over memory and registers: bytes of memory (spec/20_memory.md R60), what an engine read returns (R71, R72), acceptance (spec/44_commands.md R252) and completion (R256), which plays the part of trap entry (spec/60_exceptions.md R291), and reset (spec/70_reset_and_hazards.md R320 to R322). -/

namespace Sys2Proof.Machine

/-- What an address with no listed cell reads as (DESIGN CHOICE, log entry 2: the spec says nothing of memory's contents
before anything is written). -/
def Memory.unlisted (_ : Nat) : Byte := 0

/-- The byte at an address: MemRead(a, 1) (R12). -/
def Memory.read (m : Memory) (a : Nat) : Byte :=
  match m with
  | []          => Memory.unlisted a
  | (x, v) :: r => if x = a then v else Memory.read r a

/-- Remove an address's cell. -/
def Memory.erase (m : Memory) (a : Nat) : Memory := m.filter fun c => decide (c.1 ≠ a)

/-- Add a cell at its place in the rising order. -/
def Memory.insert (m : Memory) (a : Nat) (v : Byte) : Memory :=
  match m with
  | []     => [(a, v)]
  | c :: r => if a < c.1 then (a, v) :: c :: r else c :: Memory.insert r a v

/-- Set one address, keeping the canonical form: the value an unlisted address reads as is not listed. -/
def Memory.put (m : Memory) (a : Nat) (v : Byte) : Memory :=
  if v = Memory.unlisted a then Memory.erase m a else Memory.insert (Memory.erase m a) a v

/-- MemWrite(a, 1, v) (R12). An address of 2^32 or above names no byte (R60), so nothing changes there; no command
that passed its checks reaches one (R63). -/
def Memory.write (m : Memory) (a : Nat) (v : Byte) : Memory := if a < 2 ^ 32 then Memory.put m a v else m

/-- Write a sequence of bytes to consecutive addresses. -/
def Memory.writeSeq (m : Memory) (a : Nat) (bs : List Byte) : Memory :=
  match bs with
  | []     => m
  | b :: r => Memory.writeSeq (Memory.write m a b) (a + 1) r

/-- Cells from `lo` on, strictly rising, below 2^32, none equal to what an unlisted address reads as. -/
def Memory.wfFrom (lo : Nat) (m : Memory) : Bool :=
  match m with
  | []          => true
  | (a, v) :: r => decide (lo ≤ a) && decide (a < 2 ^ 32) && decide (v ≠ Memory.unlisted a) && Memory.wfFrom (a + 1) r

/-- The canonical form of a memory: equal memories are equal lists. -/
def Memory.wf (m : Memory) : Bool := Memory.wfFrom 0 m

/-- Make `n` bytes from `a` on unspecified: each takes the free value of its address in this draw (R69; log entry 5). -/
def Memory.openRange (m : Memory) (draw a n : Nat) : Memory :=
  match n with
  | 0     => m
  | n + 1 => Memory.openRange (Memory.write m a (Config.freeByte draw a)) draw (a + 1) n

/-- Make the bytes of every range unspecified. -/
def Memory.openWindows (m : Memory) (draw : Nat) (ws : List (Nat × Nat)) : Memory :=
  match ws with
  | []     => m
  | w :: r => Memory.openWindows (Memory.openRange m draw w.1 w.2) draw r

/-- Make listed addresses unspecified. -/
def Memory.openList (m : Memory) (draw : Nat) (as : List Nat) : Memory :=
  match as with
  | []     => m
  | a :: r => Memory.openList (Memory.write m a (Config.freeByte draw a)) draw r

/-- The values, newest first, that a byte has had and that an engine read may still return (R71, R72). -/
def olderValues (shadow : List Host.Cell) (a : Nat) : List Byte := (shadow.filter fun c => decide (c.1 = a)).map Prod.snd

/-- What an engine read of address `a` returns: memory's byte, unless the host wrote the byte while the command ran (or
did no maintenance on a platform that is not coherent); then one of the old and new values, freely (R72; log entry 6).
DESIGN CHOICE (log entry 22; unsafe): where a host write was not maintained and the engine has since written the byte, the
byte reads as the engine's or as a value older than the host's, and the host's value never comes back. -/
def State.engineRead (s : State) (a : Nat) : Byte :=
  match olderValues (s.env.racing ++ s.env.shadow) a with
  | []          => s.mem.read a
  | old :: more =>
    let values := s.mem.read a :: old :: more
    values.getD (Config.freePick s.env.draws a % values.length) (s.mem.read a)

/-- Acceptance (R252): STATUS and OUT_LEN are cleared, the operands latched. Every earlier host write is visible to the
command (R71), so no older value remains, unless the platform is not coherent and the write was not maintained. -/
def accept (op : Op) (s : State) : State :=
  { s with
    regs := { s.regs with done := false, result := .none, outLen := 0 }
    eng  := latch op s.regs s.eng
    env  := { s.env with
      racing  := []
      shadow  := if s.env.platform.coherent then [] else s.env.shadow
      touched := []
      draws   := s.env.draws + 1 } }

/-- What the end of a command, by completion or by reset, leaves of memory, where the command may have written the ranges
`ws`: their bytes unspecified where `opened`, and in any case those that the host itself wrote into the destination window
while the command ran (R69, R72, R322). The host's view of the ranges lags until it reads STATUS (R71). -/
def State.releaseWindow (opened : Bool) (ws : List (Nat × Nat)) (s : State) : State :=
  let m := if opened then s.mem.openWindows s.env.draws ws else s.mem
  { s with
    mem := m.openList s.env.draws s.env.touched
    env := { s.env with
      racing  := []
      touched := []
      unseen  := ws ++ s.env.unseen
      draws   := s.env.draws + 1 } }

/-- The ranges a command that completes with a result may have written (R69): its output on OK, nothing on ERR_CONFIG, and
any part of the window on the results that leave it unspecified. -/
def State.written (r : Result) (s : State) : List (Nat × Nat) :=
  if r = .ok then [(s.eng.lDst.toNat, s.regs.outLen.toNat)] else if r.leavesWindowOpen then s.eng.target else []

/-- The registers at completion (R256): OUT_LEN is 0 unless RESULT = OK, RESULT is set, DONE is set. -/
def Regs.complete (r : Result) (g : Regs) : Regs :=
  { g with outLen := if r = .ok then g.outLen else 0, result := r, done := true }

/-- Completion, finish(r) (R256), with what it leaves of the destination window (R69). -/
def finish (r : Result) (s : State) : State :=
  let t := s.releaseWindow r.leavesWindowOpen (s.written r)
  { t with regs := Regs.complete r t.regs, eng := { t.eng with busy := false } }

/-- A reset event (R320 to R322): the core takes its reset values; a running command is aborted with no completion and
its destination window is left unspecified, but for bytes that are also in its source window, which is unchanged (R322; log
entry 10); the rest of memory and the platform keep what they hold. -/
def resetCore (s : State) : State :=
  let t := if s.eng.busy then s.releaseWindow true s.eng.target else s
  { t with regs := Regs.reset, eng := Engine.reset }

end Sys2Proof.Machine
end

