-- ==== Sys2Proof/Machine/Dictionary.lean ====
section
/-! DEFINITION. The Dictionary Model (spec/40_dictionary.md): the operations DICT_INIT, DICT_INSERT, DICT_FIND, DICT_RESOLVE and the meaning of an entry. The table is held newest first: the entry with `n` entries behind it is code `256 + n`. -/

namespace Sys2Proof.Machine

/-- The counter of a table (R40). -/
def freeOf (table : List Entry) : Nat := 256 + table.length

/-- seq(c) (R121): a literal's byte; an entry's prefix sequence and its symbol. (A code that is neither, which no rule
evaluates, falls through to its low byte.) -/
def seqOf (table : List Entry) (c : Nat) : List Byte :=
  match table with
  | []        => [BitVec.ofNat 8 c]
  | e :: rest => if c = freeOf rest then seqOf rest e.prefixCode ++ [e.suffix] else seqOf rest c

/-- first(s) (R11); it is applied to the sequences of codes only, and none of them is empty (R121). -/
def firstOf (s : List Byte) : Byte := s.headD 0

/-- DICT_INSERT (R122): a new entry at `free`, unless the dictionary is frozen (R124). -/
def dictInsert (p : Params) (table : List Entry) (code : Nat) (b : Byte) : List Entry :=
  if freeOf table < p.dictSize then { prefixCode := code, suffix := b } :: table else table

/-- DICT_FIND (R125): the code of the entry with this prefix and this symbol, if there is one. -/
def dictFind (table : List Entry) (code : Nat) (b : Byte) : Option Nat :=
  match table with
  | []        => none
  | e :: rest => if e.prefixCode = code ∧ e.suffix = b then some (freeOf rest) else dictFind rest code b

/-- DICT_RESOLVE (R130): the sequence of the code read at index `i`; `none` is ERR_UNDEF_CODE. A code equal to the
decoder's free counter is the entry the encoder inserted just before emitting it (R131). -/
def dictResolve (p : Params) (table : List Entry) (i c prev : Nat) : Option (List Byte) :=
  if i = 0 then some [BitVec.ofNat 8 c]
  else if c < freeOf table then some (seqOf table c)
  else if c = freeOf table ∧ freeOf table < p.dictSize then some (seqOf table prev ++ [firstOf (seqOf table prev)])
  else none

/-- DEC_GROW (R128): from the code at index 1 on, the decoder inserts the previous code with the first symbol of the
sequence just decoded. -/
def decGrow (p : Params) (table : List Entry) (i prev : Nat) (cur : List Byte) : List Entry :=
  if 1 ≤ i then dictInsert p table prev (firstOf cur) else table

/-- The smallest number of bits that holds `x` (R10: bitlen, for x >= 1). -/
def bitlen (x : Nat) : Nat := Nat.log2 x + 1

/-- The width of the code at index `i` (R96): w(i) = bitlen(min(255 + i, 2^M - 1)). -/
def codeWidth (p : Params) (i : Nat) : Nat := bitlen (min (255 + i) (p.dictSize - 1))

end Sys2Proof.Machine
end

