-- ==== Sys2Proof/Machine/Bits.lean ====
section
/-! DEFINITION. The bit writer and the bit reader of the engine (spec/41_bitstream.md R150 to R158): BW_INIT, EMIT, BW_FLUSH, OUT_BYTE, BR_INIT, BR_AVAIL, BR_GET. -/

namespace Sys2Proof.Machine

/-- OUT_BYTE (R154): the byte is counted, and written where the destination window has room. -/
def outByte (v : Byte) (s : State) : State :=
  { s with
    mem := if s.eng.olen < s.eng.lCap.toNat then s.mem.write (s.eng.lDst.toNat + s.eng.olen) v else s.mem
    eng := { s.eng with olen := s.eng.olen + 1 } }

/-- One pass of EMIT's `while nacc >= 8` (R152): the eight oldest pending bits become a byte. -/
def drainByte (s : State) : State :=
  let n := s.eng.nacc - 8
  let t := outByte (BitVec.ofNat 8 ((s.eng.acc >>> n) &&& 0xFF)) s
  { t with eng := { t.eng with nacc := n, acc := s.eng.acc &&& (2 ^ n - 1) } }

/-- `n` passes of it. -/
def drain (n : Nat) (s : State) : State :=
  match n with
  | 0     => s
  | n + 1 => drain n (drainByte s)

/-- EMIT (R152): append the code in w(i) bits and put out every full byte; the `while` runs nacc / 8 times. -/
def emit (c : Nat) (s : State) : State :=
  let w := codeWidth s.params s.eng.i
  let t := { s with eng := { s.eng with acc := (s.eng.acc <<< w) ||| c, nacc := s.eng.nacc + w } }
  let u := drain (t.eng.nacc / 8) t
  { u with eng := { u.eng with i := u.eng.i + 1 } }

/-- BW_FLUSH (R153): the pending bits, zero-padded at the low end, as a last byte; nothing when none is pending. -/
def flush (s : State) : State :=
  if 0 < s.eng.nacc then
    let t := outByte (BitVec.ofNat 8 ((s.eng.acc <<< (8 - s.eng.nacc)) &&& 0xFF)) s
    { t with eng := { t.eng with acc := 0, nacc := 0 } }
  else s

/-- BR_AVAIL (R157): the unread stream bits. -/
def brAvail (e : Engine) : Nat := 8 * e.lLen.toNat - e.bitpos

/-- Stream bit `t` of the bytes `byte` gives (R150): bit (7 - t % 8) of byte t // 8. -/
def streamBit (byte : Nat → Byte) (t : Nat) : Nat := ((byte (t / 8)).toNat >>> (7 - t % 8)) &&& 1

/-- The loop of BR_GET (R158): `n` stream bits from `t` on, most significant first, shifted into `c`. -/
def readBits (byte : Nat → Byte) (t n c : Nat) : Nat :=
  match n with
  | 0     => c
  | n + 1 => readBits byte (t + 1) n ((c <<< 1) ||| streamBit byte t)

/-- The code BR_GET returns (R158). -/
def brCode (s : State) : Nat :=
  readBits (fun k => s.engineRead (s.eng.lSrc.toNat + k)) s.eng.bitpos (codeWidth s.params s.eng.i) 0

/-- The state after BR_GET (R158): `bitpos` and `i` advance. -/
def brAdvance (s : State) : State :=
  { s with eng := { s.eng with bitpos := s.eng.bitpos + codeWidth s.params s.eng.i, i := s.eng.i + 1 } }

end Sys2Proof.Machine
end

