-- ==== Sys2Proof/Machine/Compress.lean ====
section
/-! DEFINITION. The engine's steps of COMPRESS (spec/42_compress.md R181, R185; spec/40_dictionary.md R126): the pass's start, ENC_STEP, ENC_END and the result decision. -/

namespace Sys2Proof.Machine

/-- COMPRESS_RESULT (R185): NO_BENEFIT, then ERR_DST_OVERFLOW, then OK with OUT_LEN = E. -/
def compressResult (s : State) : State :=
  let n := s.eng.lLen.toNat
  let e := s.eng.olen
  if 2 ≤ n ∧ n ≤ e then finish .noBenefit s
  else if s.eng.lCap.toNat < e then finish .errDstOverflow s
  else finish .ok { s with regs := { s.regs with outLen := BitVec.ofNat 32 e } }

/-- The pass's start (R181): DICT_INIT, BW_INIT, and the first symbol as a literal match; a source of zero bytes goes
to the result at once (R182). -/
def compressStart (s : State) : State :=
  let t := { s with eng := { s.eng with table := [], acc := 0, nacc := 0, olen := 0, i := 0 } }
  if s.eng.lLen.toNat = 0 then compressResult t
  else { t with eng := { t.eng with S := (s.engineRead s.eng.lSrc.toNat).toNat, k := 1, stage := .loop } }

/-- ENC_STEP (R126): extend the match; or emit its code, insert the new entry and restart from the symbol. -/
def encStep (b : Byte) (s : State) : State :=
  match dictFind s.eng.table s.eng.S b with
  | some c => { s with eng := { s.eng with S := c } }
  | none =>
    let t := emit s.eng.S s
    { t with eng := { t.eng with table := dictInsert s.params t.eng.table s.eng.S b, S := b.toNat } }

/-- One pass of R181's `while`, or what follows it: ENC_END, BW_FLUSH and the result. -/
def compressLoop (s : State) : State :=
  if s.eng.k < s.eng.lLen.toNat then
    encStep (s.engineRead (s.eng.lSrc.toNat + s.eng.k)) { s with eng := { s.eng with k := s.eng.k + 1 } }
  else compressResult (flush (emit s.eng.S s))

end Sys2Proof.Machine
end

