-- ==== Sys2Proof/Machine/Uncompress.lean ====
section
/-! DEFINITION. The engine's steps of UNCOMPRESS (spec/43_uncompress.md R213 to R221): the pass's start and one pass of its loop, with the tests in the order of R216. -/

namespace Sys2Proof.Machine

/-- The pass's start (R213): DICT_INIT and BR_INIT. -/
def uncompressStart (s : State) : State :=
  { s with eng := { s.eng with table := [], bitpos := 0, i := 0, olen := 0, stage := .loop } }

/-- The end of the stream (R215): at most 7 leftover bits end it well, whatever their values; 8 or more cut a code off. -/
def uncompressEnd (s : State) : State :=
  if brAvail s.eng ≤ 7 then finish .ok { s with regs := { s.regs with outLen := BitVec.ofNat 32 s.eng.olen } }
  else finish .errTruncated s

/-- Append a code's sequence (R213), or fail on the ratio guard (R217; not applied to a one-byte input, R221) or on the
capacity (R219), in this order; a code that fails writes none of its bytes (R216). -/
def uncompressAppend (c : Nat) (cur : List Byte) (s : State) : State :=
  let x := s.eng.olen + cur.length
  if s.eng.lLen.toNat ≠ 1 ∧ withinRatio s.params x s.eng.lLen.toNat s.eng.lRatio.toNat = false then finish .errRatio s
  else if s.eng.lCap.toNat < x then finish .errDstOverflow s
  else
    { s with
      mem := s.mem.writeSeq (s.eng.lDst.toNat + s.eng.olen) cur
      eng := { s.eng with olen := x, prev := c } }

/-- One pass of R213's loop. -/
def uncompressLoop (s : State) : State :=
  if brAvail s.eng < codeWidth s.params s.eng.i then uncompressEnd s
  else
    let c := brCode s
    let t := brAdvance s
    match dictResolve s.params s.eng.table s.eng.i c s.eng.prev with
    | none     => finish .errUndefCode t
    | some cur =>
      uncompressAppend c cur { t with eng := { t.eng with table := decGrow s.params s.eng.table s.eng.i s.eng.prev cur } }

end Sys2Proof.Machine
end

