-- ==== Sys2Proof/Machine/Engine.lean ====
section
/-! DEFINITION. The engine (spec/10_state.md R20): the sequence of spec/44_commands.md R252 cut into steps, the bus error of spec/60_exceptions.md R286, and the engine steps that pass in one turn (spec/70_reset_and_hazards.md R336). -/

namespace Sys2Proof.Machine

/-- The checks (R63, R211), before any memory access: ERR_CONFIG, or on to the pass. -/
def engineChecks (s : State) : State :=
  if s.eng.configOk then { s with eng := { s.eng with stage := .start } } else finish .errConfig s

/-- The first step of the running command's pass. -/
def engineStart (s : State) : State :=
  match s.eng.op with
  | .compress   => compressStart s
  | .uncompress => uncompressStart s

/-- A further step of the running command's pass. -/
def engineLoop (s : State) : State :=
  match s.eng.op with
  | .compress   => compressLoop s
  | .uncompress => uncompressLoop s

/-- The platform answers an access of this step with an error (R286): it reports one in this turn, and a window holds
an address it rejects. -/
def State.busError (s : State) : Bool := decide (s.env.port = .error) && s.eng.rejected s.env.platform

/-- The next step makes a memory access. An empty input makes none (R182, R222), nor do the checks (R63); a pass reads its
next source byte or bytes, and the end of COMPRESS writes what its window has room for (R154). -/
def Engine.accesses (p : Params) (e : Engine) : Bool :=
  decide (e.lLen ≠ 0) &&
    match e.stage, e.op with
    | .checks, _          => false
    | .start, .compress   => true
    | .start, .uncompress => false
    | .loop, .compress    => decide (e.k < e.lLen.toNat) || decide (e.olen < e.lCap.toNat)
    | .loop, .uncompress  => decide (codeWidth p e.i ≤ brAvail e)

/-- The next step waits for an access that does not complete in this turn (R258). -/
def State.stalled (s : State) : Bool := decide (s.env.port = .pending) && s.eng.accesses s.params

/-- A step of a pass that comes to `next` when its accesses complete: ERR_BUS ends the command at once in its place
(R286), and an access that does not complete leaves the engine where it stands (R258). -/
def State.onPort (s next : State) : State :=
  if s.busError then finish .errBus s else if s.stalled then s else next

/-- One engine step. An idle engine does nothing. -/
def engineStep (s : State) : State :=
  if s.eng.busy = false then s
  else
    match s.eng.stage with
    | .checks => engineChecks s
    | .start  => s.onPort (engineStart s)
    | .loop   => s.onPort (engineLoop s)

/-- `n` engine steps. -/
def engineRun (n : Nat) (s : State) : State :=
  match n with
  | 0     => s
  | n + 1 => engineRun n (engineStep s)

/-- The end of a turn: the engine steps that pass before the host's next move (R336). -/
def settle (s : State) : Host.Outcome State Fault Refusal := .next (engineRun s.env.pace s)

end Sys2Proof.Machine
end

