-- ==== Sys2Proof/Machine/Commands.lean ====
section
/-! DEFINITION. The meanings of the commands (spec/44_commands.md R250 to R256; spec/42_compress.md R180; spec/43_uncompress.md R210): a CMD write of the command's word, then the engine steps of the turn. With enough of them (R336: a command may complete in the step of its acceptance) the meaning is the whole command; with fewer, later turns go on with it. -/

namespace Sys2Proof.Machine

/-- COMPRESS and UNCOMPRESS as a CMD write (R250): ignored while BUSY (R255); else accepted (R252). A command that would
access the core's own registers through the memory port is refused (R61). -/
def issue (op : Op) (s : State) : Host.Outcome State Fault Refusal :=
  if s.eng.busy then settle s
  else if operandsLegal op s.regs.srcAddr s.regs.srcLen s.regs.dstAddr s.regs.dstCap s.regs.ratio &&
      windowsOnRegisters s.env.platform s.regs.srcAddr.toNat s.regs.srcLen.toNat s.regs.dstAddr.toNat s.regs.dstCap.toNat then
    .refused .windowOnRegisters
  else settle (accept op s)

/-- NOP (R253): no operation. -/
def execNop (s : State) : Host.Outcome State Fault Refusal := settle s

/-- COMPRESS (R180). -/
def execCompress (s : State) : Host.Outcome State Fault Refusal := issue .compress s

/-- UNCOMPRESS (R210). -/
def execUncompress (s : State) : Host.Outcome State Fault Refusal := issue .uncompress s

/-- ILLEGAL_CMD (R254): completes at once with ERR_ILLEGAL_CMD; ignored while BUSY like any other value (R255). -/
def illegalCommand (s : State) : State :=
  if s.eng.busy then s else { s with regs := { s.regs with outLen := 0, result := .errIllegalCmd, done := true } }

end Sys2Proof.Machine
end

