-- ==== Sys2Proof/Machine/HostPort.lean ====
section
/-! DEFINITION. What the host and the platform do to the machine: register reads and writes (spec/44_commands.md R259, R260), the CMD write (R250), memory accesses and maintenance (spec/20_memory.md R71, R72), reset (spec/70_reset_and_hazards.md R320), and the host syntax's pseudo-instructions (spec/30_encoding.md R103, R104). -/

namespace Sys2Proof.Machine

/-- A read of the register at `offset` tells the host that no command runs (R71): it is a read of STATUS, and returns
BUSY = 0 or DONE = 1. -/
def State.observes (s : State) (offset : Nat) : Bool :=
  decide (offset = regOffset .status) && (!s.eng.busy || s.regs.done)

/-- RD32 (R259): the value is returned to the host; no core state is written. A read of STATUS that shows the end of a
command is an ordering point (R71, R73): what the command wrote is visible to the host's later reads, on a platform that is
not coherent after maintenance only. -/
def hostRead (offset : Nat) (s : State) : State :=
  { s with env := { s.env with
      hostData := s.readReg offset
      unseen   := if s.observes offset then [] else s.env.unseen
      stale    := if s.observes offset && !s.env.platform.coherent then s.env.unseen ++ s.env.stale else s.env.stale } }

/-- A CMD write (R250): the value is decoded, and the command runs or ILLEGAL_CMD is done. -/
def writeCmd (v : Word) (s : State) : Host.Outcome State Fault Refusal :=
  match decode v with
  | .ok i    => exec i s
  | .error _ => settle (illegalCommand s)

/-- WR32 (R260): CMD issues a command, every other offset is written at once, whether or not a command runs. -/
def hostWrite (offset : Nat) (v : Word) (s : State) : Host.Outcome State Fault Refusal :=
  if offset = regOffset .cmd then writeCmd v s else settle { s with regs := s.regs.write offset v }

/-- The host may not yet see what the engine wrote at an address (R71): no STATUS read has ordered it, or no maintenance. -/
def State.lagging (s : State) (a : Nat) : Bool := inWindows s.env.unseen a || inWindows s.env.stale a

/-- What the host sees at a memory address: any value in the destination window of a running command (R69, R72) and where
its view lags (R71); else memory's byte. -/
def State.hostByte (s : State) (a : Nat) : Byte :=
  if (s.eng.busy && s.eng.inDst a) || s.lagging a then Config.freeByte s.env.draws a else s.mem.read a

/-- The host reads a byte of memory. -/
def hostMemRead (a : Nat) (s : State) : State :=
  { s with env := { s.env with hostData := (s.hostByte a).setWidth 32, draws := s.env.draws + 1 } }

/-- The host writes a byte of memory. With no command running it is the later write: a command's writes are performed before
it completes (R256), and none after a reset (R322), so the next command reads it (R71) and the host sees its own write. The byte
it replaces stays a value that engine reads may return: of the running command, where the byte is in its source window (R72),
and until maintenance where the platform is not coherent (R71). A byte of a running command's destination window ends up
unspecified (R72). -/
def hostMemWrite (a : Nat) (v : Byte) (s : State) : State :=
  { s with
    mem := s.mem.write a v
    env := { s.env with
      racing  := if s.eng.busy && s.eng.inSrc a then (a, s.mem.read a) :: s.env.racing else s.env.racing
      shadow  := if s.env.platform.coherent then s.env.shadow else (a, s.mem.read a) :: s.env.shadow
      touched := if s.eng.busy && s.eng.inDst a then a :: s.env.touched else s.env.touched
      unseen  := windowsWithout s.env.unseen a
      stale   := windowsWithout s.env.stale a } }

/-- Cache maintenance by the host or the platform (R71, R76), at any time: what the host wrote before is visible to engine
reads, and engine writes that a STATUS read has ordered are visible to the host. It is no ordering point itself (R71: the
registers are, and nothing else), so writes that race with a running command still do (R72). -/
def hostMaintain (s : State) : State := { s with env := { s.env with shadow := [], stale := [] } }

/-- A turn again, for a move that is repeated any number of times: the engine gets a step each time, as the fairness of R337
asks. -/
def turnAgain (t : Turn) : Turn := { t with pace := max t.pace 1 }

/-- POLL (R103): the read is repeated in a next turn until its masked value is the one waited for. -/
def hostPoll (t : Turn) (offset : Nat) (mask value : Word) (s : State) : State :=
  let r := hostRead offset s
  if s.readReg offset &&& mask = value then r else { r with env := { r.env with agenda := turnAgain t :: r.env.agenda } }

/-- The host's move of a turn, then the turn's engine steps. -/
def applyMove (t : Turn) (s : State) : Host.Outcome State Fault Refusal :=
  match t.move with
  | .idle                   => settle s
  | .read offset bytes      =>
    if regAccessOk offset bytes then settle (hostRead offset s) else .refused (.unsupportedRegisterAccess offset bytes)
  | .write offset bytes v   =>
    if regAccessOk offset bytes then hostWrite offset v s else .refused (.unsupportedRegisterAccess offset bytes)
  | .poll offset mask value =>
    if regAccessOk offset 4 then settle (hostPoll t offset mask value s) else .refused (.unsupportedRegisterAccess offset 4)
  | .memRead a              => if addressOk a then settle (hostMemRead a s) else .fault (.noSuchAddress a)
  | .memWrite a v           => if addressOk a then settle (hostMemWrite a v s) else .fault (.noSuchAddress a)
  | .maintain               => settle (hostMaintain s)
  | .reset                  => settle (resetCore s)

/-- The turn that passes when no move is scheduled: the host is idle and the engine takes one step (R337). -/
def quietTurn : Turn := { move := .idle, pace := 1, port := .completes }

/-- The next turn of the schedule. -/
def State.turn (s : State) : Turn := s.env.agenda.headD quietTurn

/-- The next turn begins: it leaves the agenda, and its pace and its platform's answers are in force. -/
def State.beginTurn (s : State) : State :=
  { s with env := { s.env with agenda := s.env.agenda.tail, pace := s.turn.pace, port := s.turn.port } }

/-- WR32 of a named register (R103). -/
def wr32 (r : Reg) (v : Word) : HostMove := .write (regOffset r) 4 v

/-- RD32 of a named register (R103). -/
def rd32 (r : Reg) : HostMove := .read (regOffset r) 4

/-- START (R104). -/
def startMoves (i : Instr) : List HostMove := [wr32 .cmd (encode i)]

/-- WAIT (R104): poll BUSY = 0. -/
def waitMoves : List HostMove := [.poll (regOffset .status) 0x00000001 0x00000000]

/-- ACK (R104). -/
def ackMoves : List HostMove := [wr32 .status 0x00000002]

/-- SETUP (R104). -/
def setupMoves (src len dst cap ratio : Word) : List HostMove :=
  [wr32 .srcAddr src, wr32 .srcLen len, wr32 .dstAddr dst, wr32 .dstCap cap, wr32 .ratio ratio]

/-- A host program as a schedule: every move with the same pace, and every engine access completes. -/
def program (pace : Nat) (moves : List HostMove) : List Turn :=
  moves.map fun m => { move := m, pace := pace, port := .completes }

end Sys2Proof.Machine
end

