-- ==== Sys2Proof/Machine/Step.lean ====
section
/-! DEFINITION. One step of the machine, a turn of the schedule (spec/10_state.md R20, spec/70_reset_and_hazards.md R332, R336): the host's move, then the engine's steps; and the state whose next turn issues a given command word. -/

namespace Sys2Proof.Machine

/-- One turn. -/
def step (s : State) : Host.Outcome State Fault Refusal := applyMove s.turn s.beginTurn

/-- `s` with the CMD write of a command word as its next turn (log entry 4: the core fetches nothing, R37; a command is a
register write by the host), the engine idle so that the write is not ignored (R255), and in that turn enough engine
steps for the command to complete. -/
def State.withFetchWord (s : State) (nbits w : Nat) : State :=
  { s with
    eng := { s.eng with busy := false }
    env := { s.env with
      agenda := { move := wr32 .cmd (BitVec.ofNat 32 (w % 2 ^ nbits)), pace := s.regs.srcLen.toNat + 3, port := .completes }
        :: s.env.agenda } }

end Sys2Proof.Machine
end

