-- ==== Sys2Proof/Machine/Lzw.lean ====
section
/-! DEFINITION. The codec as pure functions of byte sequences (spec/00_scope.md R3): the code sequence of an input (spec/40_dictionary.md R126), the bits of an encoded stream (spec/30_encoding.md R94, spec/41_bitstream.md R150), and the decoding of a stream (spec/43_uncompress.md R213). The machine does not call them; statements compare it with them. -/

namespace Sys2Proof.Machine

/-- The encoder's emissions from a table, a match S and the rest of the input (R126): each code with the table after
the insertion that follows it; the last code with the table as it is. -/
def lzwTrace (p : Params) (table : List Entry) (S : Nat) (input : List Byte) : List (Nat × List Entry) :=
  match input with
  | [] => [(S, table)]
  | b :: rest =>
    match dictFind table S b with
    | some c => lzwTrace p table c rest
    | none   => (S, dictInsert p table S b) :: lzwTrace p (dictInsert p table S b) b.toNat rest

/-- The emissions for a whole input (R181): none for an empty one, else from the first symbol as a literal match. -/
def encoderTrace (p : Params) (input : List Byte) : List (Nat × List Entry) :=
  match input with
  | []        => []
  | b :: rest => lzwTrace p [] b.toNat rest

/-- The codes of an input, in stream order. -/
def lzwCodes (p : Params) (input : List Byte) : List Nat := (encoderTrace p input).map Prod.fst

/-- The `w` bits of a code, most significant first (R150). -/
def codeBits (w c : Nat) : List Bool := (List.range w).map fun j => c.testBit (w - 1 - j)

/-- The bits of codes from code index `i` on, each in its own width, in order (R94). -/
def streamBits (p : Params) (i : Nat) (codes : List Nat) : List Bool :=
  match codes with
  | []     => []
  | c :: r => codeBits (codeWidth p i) c ++ streamBits p (i + 1) r

/-- The code bits of an input's encoding, without pad. -/
def encodedBits (p : Params) (input : List Byte) : List Bool := streamBits p 0 (lzwCodes p input)

/-- The encoded length in bytes (R98): E = ceil(T / 8). -/
def encodedLength (p : Params) (input : List Byte) : Nat := ((encodedBits p input).length + 7) / 8

/-- The result COMPRESS decides on for L input bytes, E encoded bytes and the given capacity (R184 to R187). -/
def compressVerdict (L E cap : Nat) : Result :=
  if 2 ≤ L ∧ L ≤ E then .noBenefit else if cap < E then .errDstOverflow else .ok

/-- The bits of a byte sequence in transmission order (R150). -/
def bytesBits (bytes : List Byte) : List Bool := bytes.flatMap fun b => codeBits 8 b.toNat

/-- The number a bit sequence writes, most significant bit first. -/
def bitsValue (bits : List Bool) : Nat := bits.foldl (fun c b => 2 * c + b.toNat) 0

/-- Decoding from code index `i` on (R213). `guard x` is the failure of an output of `x` bytes, if any; `fuel` bounds the
number of codes. The result is RESULT and the bytes produced (none on a failure). -/
def decodeFrom (p : Params) (guard : Nat → Option Result) (fuel : Nat) (bits : List Bool) (i : Nat) (table : List Entry)
    (prev : Nat) (out : List Byte) : Result × List Byte :=
  match fuel with
  | 0 => (.none, [])
  | fuel + 1 =>
    let w := codeWidth p i
    if bits.length < w then (if bits.length ≤ 7 then (.ok, out) else (.errTruncated, []))
    else
      let c := bitsValue (bits.take w)
      match dictResolve p table i c prev with
      | none     => (.errUndefCode, [])
      | some cur =>
        match guard (out.length + cur.length) with
        | some r => (r, [])
        | none   => decodeFrom p guard fuel (bits.drop w) (i + 1) (decGrow p table i prev cur) c (out ++ cur)

/-- Decoding of a whole stream of bytes; every code has at least 8 bits, so there is at most one per byte. -/
def decodeStream (p : Params) (guard : Nat → Option Result) (stream : List Byte) : Result × List Byte :=
  decodeFrom p guard (stream.length + 1) (bytesBits stream) 0 [] 0 []

/-- The tests UNCOMPRESS makes on an output of `x` bytes (R216): the ratio guard (R217), not applied to a one-byte input
(R221), then the capacity (R219). -/
def uncompressGuard (p : Params) (n ratio cap x : Nat) : Option Result :=
  if n ≠ 1 ∧ withinRatio p x n ratio = false then some .errRatio else if cap < x then some .errDstOverflow else none

/-- The full decode of a stream, with no bound on the output. -/
def fullDecode (p : Params) (stream : List Byte) : Result × List Byte := decodeStream p (fun _ => none) stream

/-- The decoder's table after each code it resolves (R128). -/
def decoderTables (p : Params) (i : Nat) (table : List Entry) (prev : Nat) (codes : List Nat) : List (List Entry) :=
  match codes with
  | [] => []
  | c :: rest =>
    match dictResolve p table i c prev with
    | none     => []
    | some cur => decGrow p table i prev cur :: decoderTables p (i + 1) (decGrow p table i prev cur) c rest

end Sys2Proof.Machine
end

