-- ==== Sys2Proof/Safety.lean ====
section
/-! DEFINITION. What statements are said in terms of: when a command's outcome is determined (the host's duties, spec/70_reset_and_hazards.md R331, and a platform that reports no error, spec/60_exceptions.md R286), the command's input, and the invariant of the machine, with the register widths of spec/10_state.md R38. -/

namespace Sys2Proof.Machine

/-- The input bytes the operand registers name (R62), as memory holds them. -/
def State.input (s : State) : List Byte :=
  (List.range s.regs.srcLen.toNat).map fun k => s.mem.read (s.regs.srcAddr.toNat + k)

/-- `size` bytes of memory from `base` on. -/
def Memory.bytes (m : Memory) (base size : Nat) : List Byte := (List.range size).map fun k => m.read (base + k)

/-- A command written now is accepted, passes its checks, and its outcome is the one the rules give: the engine is idle,
the operands are legal (R63, R211), the windows are not on the core's own registers (R61), the platform answers its
accesses (R258) and reports no error (R286), and the host's writes are visible (R71). -/
structure State.Ready (op : Op) (s : State) : Prop where
  idle     : s.eng.busy = false
  legal    : operandsLegal op s.regs.srcAddr s.regs.srcLen s.regs.dstAddr s.regs.dstCap s.regs.ratio = true
  offRegs  : windowsOnRegisters s.env.platform s.regs.srcAddr.toNat s.regs.srcLen.toNat s.regs.dstAddr.toNat
               s.regs.dstCap.toNat = false
  answers  : s.env.port ≠ .pending ∨ s.regs.srcLen = 0
  noError  : s.env.port ≠ .error ∨
               windowsRejected s.env.platform s.regs.srcAddr.toNat s.regs.srcLen.toNat s.regs.dstAddr.toNat
                 s.regs.dstCap.toNat = false
  visible  : s.env.platform.coherent = true ∨ s.env.shadow = []

/-- Engine steps in which every command of `len` input bytes completes. -/
def stepBound (len : Word) : Nat := len.toNat + 3

/-- Every entry's prefix is an older code (R121, R122). -/
def tableOk (table : List Entry) : Bool :=
  match table with
  | []        => true
  | e :: rest => decide (e.prefixCode < freeOf rest) && tableOk rest

/-- No two entries hold the same pair (R125, R126). -/
def tableDistinct (table : List Entry) : Bool :=
  match table with
  | []        => true
  | e :: rest => decide (dictFind rest e.prefixCode e.suffix = none) && tableDistinct rest

/-- Every register of the engine fits the width R38 gives it. -/
structure Engine.Fits (p : Params) (e : Engine) : Prop where
  table  : freeOf e.table ≤ p.dictSize
  S      : e.S < p.dictSize
  k      : e.k < 2 ^ 33
  prev   : e.prev < p.dictSize
  i      : e.i < 2 ^ 33
  bitpos : e.bitpos < 2 ^ 35
  acc    : e.acc < 2 ^ 23
  nacc   : e.nacc < 2 ^ 5
  olen   : e.olen < 2 ^ 33

/-- The encoder between two of its steps (R127, R152): the match is a defined code, fewer than 8 bits are pending, and no
more codes than symbols have been emitted. -/
structure Engine.EncoderOk (e : Engine) : Prop where
  table    : tableOk e.table = true
  distinct : tableDistinct e.table = true
  S        : e.S < freeOf e.table
  kPos     : 1 ≤ e.k
  kMax     : e.k ≤ e.lLen.toNat
  i        : e.i < e.k
  nacc     : e.nacc ≤ 7
  acc      : e.acc < 2 ^ e.nacc
  olen     : 8 * e.olen + e.nacc ≤ 16 * e.i

/-- The decoder between two of its steps (R129, R158, R219): no more bits read than there are, no more bytes written than
the window holds, and the previous code, if there is one, is defined. -/
structure Engine.DecoderOk (e : Engine) : Prop where
  table  : tableOk e.table = true
  bitpos : e.bitpos ≤ 8 * e.lLen.toNat
  codes  : 8 * e.i ≤ e.bitpos
  olen   : e.olen ≤ e.lCap.toNat
  prev   : 1 ≤ e.i → e.prev < freeOf e.table

/-- The running command's registers, by the engine's place in its sequence. -/
def Engine.RunOk (e : Engine) : Prop :=
  match e.stage with
  | .checks => True
  | .start  => e.configOk = true
  | .loop   => e.configOk = true ∧ match e.op with
    | .compress   => e.EncoderOk
    | .uncompress => e.DecoderOk

/-- The invariant of the machine: memory keeps its canonical form, every engine register fits its width (R38), and while
BUSY the host-visible results are clear (R44) and the running command's registers are in order. -/
structure State.Inv (s : State) : Prop where
  mem   : s.mem.wf = true
  fits  : s.eng.Fits s.params
  clear : s.eng.busy = true → s.regs.done = false ∧ s.regs.result = .none ∧ s.regs.outLen = 0
  run   : s.eng.busy = true → s.eng.RunOk

end Sys2Proof.Machine
end

