-- ==== Sys2Proof/Certificates/Slice0/Obligations.lean ====
section
/-! DEFINITION. The statements for the provers, each a Prop; the docstring names the rule of spec/ it formalises. -/

open Sys2Proof Sys2Proof.Machine

/-! ## Encoding and the step -/

/-- R93: every 32-bit value decodes to exactly one of NOP, COMPRESS, UNCOMPRESS or ILLEGAL. -/
def Obligations.DecodeIsTotal : Prop :=
  decode 0x00000000 = .ok .nop ∧ decode 0x00000001 = .ok .compress ∧ decode 0x00000002 = .ok .uncompress ∧
    ∀ v : Word, v ≠ 0x00000000 → v ≠ 0x00000001 → v ≠ 0x00000002 → decode v = .error (.illegalCommand v)

/-- A command's word decodes to it, and no other word does (R90). -/
def Obligations.DecodeAndEncodeAgree : Prop :=
  (∀ i : Instr, i.wf = true → decode (encode i) = .ok i) ∧ ∀ (v : Word) (i : Instr), decode v = .ok i → v = encode i

/-- R250, R93: a CMD write, as the next move of the host, runs the command its value decodes to, or does what any other
value does (`writeCmd`); the turn it belongs to has begun (the MODEL'S schedule, log entry 7: it has left the agenda, its
pace and its platform's answers are in force). -/
def Obligations.StepRunsTheDecodedCommand : Prop :=
  ∀ (s : State) (v : Word) (pace : Nat) (port : PortAnswer) (rest : List Turn),
    s.env.agenda = { move := wr32 .cmd v, pace := pace, port := port } :: rest →
      let begun := { s with env := { s.env with agenda := rest, pace := pace, port := port } }
      (∀ i : Instr, decode v = .ok i → i.wf = true → step s = exec i begun) ∧
        ∀ e : DecodeError, decode v = .error e → step s = writeCmd v begun

/-- The host's entry for a word (log entry 4): the next step of `withFetchWord` runs the command the word decodes to, on
an idle engine. -/
def Obligations.FetchedWordRunsNext : Prop :=
  ∀ (s : State) (w : Nat) (i : Instr), decodeTableWord 32 w = some i →
    step (s.withFetchWord 32 w) =
      exec i { s with
        eng := { s.eng with busy := false }
        env := { s.env with pace := stepBound s.regs.srcLen, port := .completes } }

/-! ## Reset -/

/-- R321, the values the spec gives: every register reads 0 except PARAM, `irq` is 0, the engine is IDLE, `free` is 256. -/
def Obligations.ResetValues : Prop :=
  State.reset.readReg 0x00 = 0x00000010 ∧ (∀ o, o ≠ 0x00 → State.reset.readReg o = 0x00000000) ∧
    State.reset.irq = false ∧ State.reset.eng.busy = false ∧ State.reset.eng.free = 256

/-- R320, R322: a reset event, in any state, gives the core its reset values and completes nothing. With the engine idle no
byte of memory changes; while BUSY the bytes of the running command's destination window are unspecified (`Config.freeByte`),
but for those that are also in its source window (illegal operands; DEDUCED, log entry 10), and every other byte is unchanged
(but for bytes the host itself wrote into the window, R72). The engine registers R321 leaves unspecified get the MODEL'S zeros
(log entry 1). -/
def Obligations.ResetEventAtAnyTime : Prop :=
  ∀ (s : State) (pace : Nat) (port : PortAnswer) (rest : List Turn),
    s.env.agenda = { move := .reset, pace := pace, port := port } :: rest →
      ∃ t, step s = .next t ∧ t.regs = Regs.reset ∧ t.eng = Engine.reset ∧ t.status = 0 ∧ t.irq = false ∧
        t.params = s.params ∧ t.env.platform = s.env.platform ∧ t.env.agenda = rest ∧
        (s.eng.busy = false → t.mem = s.mem) ∧
        (s.eng.busy = true → ∀ a, s.eng.inDst a = true → s.eng.inSrc a = false → a < 2 ^ 32 →
          t.mem.read a = Config.freeByte s.env.draws a) ∧
        (∀ a, s.eng.inDst a = false → a ∉ s.env.touched → t.mem.read a = s.mem.read a) ∧
        (∀ a, s.eng.inSrc a = true → a ∉ s.env.touched → t.mem.read a = s.mem.read a)

/-! ## Registers -/

/-- R24: PARAM's fields at every parameter value, its reserved bits, and that a write of it changes no register. -/
def Obligations.ParamReadsTheParameters : Prop :=
  ∀ (s : State) (v : Word),
    ((s.readReg 0x00).extractLsb' 0 5).toNat = s.params.maxWidth ∧ (s.readReg 0x00).extractLsb' 5 3 = 0 ∧
      ((s.readReg 0x00).extractLsb' 8 5).toNat = s.params.frac ∧ (s.readReg 0x00).extractLsb' 13 19 = 0 ∧
      (s.params = Params.hardware → s.readReg 0x00 = 0x00000010) ∧ s.regs.write 0x00 v = s.regs

/-- R27, R28, R30, R280: where STATUS shows BUSY, DONE and RESULT, the number of every RESULT, and that every other bit
reads 0. -/
def Obligations.StatusShowsBusyDoneResult : Prop :=
  ∀ s : State,
    (s.readReg 0x0C).getLsbD 0 = s.eng.busy ∧ (s.readReg 0x0C).getLsbD 1 = s.regs.done ∧
      (s.readReg 0x0C).extractLsb' 2 6 = 0 ∧ (s.readReg 0x0C).extractLsb' 12 20 = 0 ∧
      ((s.readReg 0x0C).extractLsb' 8 4).toNat =
        match s.regs.result with
        | .none           => 0
        | .ok             => 1
        | .noBenefit      => 2
        | .errRatio       => 3
        | .errUndefCode   => 4
        | .errTruncated   => 5
        | .errDstOverflow => 6
        | .errConfig      => 7
        | .errIllegalCmd  => 8
        | .errBus         => 9

/-- R259, R23, R25: a defined read returns the register's value (CTRL: IRQ_EN in bit 0, bits 31:1 zero; 0 at CMD and at a
reserved offset) and, with no engine step in its turn, changes no register, no byte of memory and nothing of the engine. A
read of STATUS that shows the end of a command settles what the host sees of memory (R71; the MODEL'S fields `unseen` and
`stale`, log entry 12). (The host's data is the MODEL'S own field, log entry 20; the turn, log entry 7.) -/
def Obligations.RegisterReadWritesNothing : Prop :=
  ∀ (s : State) (o : Nat) (port : PortAnswer) (rest : List Turn), o % 4 = 0 → o < 0x40 →
    s.env.agenda = { move := .read o 4, pace := 0, port := port } :: rest →
      step s = .next { s with env := { s.env with
        agenda := rest, pace := 0, port := port
        hostData :=
          if o = 0x00 then paramWord s.params
          else if o = 0x04 then (if s.regs.irqEn = true then 0x00000001 else 0x00000000)
          else if o = 0x0C then s.status else if o = 0x10 then s.regs.srcAddr else if o = 0x14 then s.regs.srcLen
          else if o = 0x18 then s.regs.dstAddr else if o = 0x1C then s.regs.dstCap
          else if o = 0x20 then s.regs.ratio else if o = 0x24 then s.regs.outLen else 0
        unseen := if o = 0x0C ∧ (s.eng.busy = false ∨ s.regs.done = true) then [] else s.env.unseen
        stale  :=
          if o = 0x0C ∧ (s.eng.busy = false ∨ s.regs.done = true) ∧ s.env.platform.coherent = false
          then s.env.unseen ++ s.env.stale else s.env.stale } }

/-- R260, R23, R29: a defined write at every offset but CMD's, whether or not a command runs: CTRL.IRQ_EN takes bit 0,
DONE is cleared by a 1 in bit 1 of a STATUS write, an operand register takes the value, and PARAM, OUT_LEN and the reserved
offsets ignore it. (The turn is the MODEL'S, log entry 7.) -/
def Obligations.RegisterWriteEffects : Prop :=
  ∀ (s : State) (o : Nat) (v : Word) (port : PortAnswer) (rest : List Turn), o % 4 = 0 → o < 0x40 → o ≠ 0x08 →
    s.env.agenda = { move := .write o 4 v, pace := 0, port := port } :: rest →
      step s = .next { s with
        regs := { s.regs with
          irqEn   := if o = 0x04 then v.getLsbD 0 else s.regs.irqEn
          done    := if o = 0x0C ∧ v.getLsbD 1 = true then false else s.regs.done
          srcAddr := if o = 0x10 then v else s.regs.srcAddr
          srcLen  := if o = 0x14 then v else s.regs.srcLen
          dstAddr := if o = 0x18 then v else s.regs.dstAddr
          dstCap  := if o = 0x1C then v else s.regs.dstCap
          ratio   := if o = 0x20 then v else s.regs.ratio }
        env := { s.env with agenda := rest, pace := 0, port := port } }

/-- R23, R103: an access of another width, an unaligned access and an access at offset 0x40 or above have no meaning: a read or
a write of that kind is refused, and so is a POLL, whose reads are 4 bytes wide, at such an offset. -/
def Obligations.UnsupportedRegisterAccessRefused : Prop :=
  ∀ (s : State) (o bytes : Nat) (v mask value : Word) (t : Turn) (rest : List Turn), s.env.agenda = t :: rest →
    ((bytes ≠ 4 ∨ o % 4 ≠ 0 ∨ 0x40 ≤ o) → (t.move = .read o bytes ∨ t.move = .write o bytes v) →
      step s = .refused (.unsupportedRegisterAccess o bytes)) ∧
    ((o % 4 ≠ 0 ∨ 0x40 ≤ o) → t.move = .poll o mask value → step s = .refused (.unsupportedRegisterAccess o 4))

/-- R43, R25, R293: `irq` is the level IRQ_EN AND DONE. A CTRL write raises or drops it at once, without clearing DONE; a
STATUS write with bit 1 set drops it and keeps RESULT and OUT_LEN (R261). -/
def Obligations.InterruptIsALevel : Prop :=
  ∀ s : State,
    (∀ v : Word, State.irq { s with regs := s.regs.write 0x04 v } = (v.getLsbD 0 && s.regs.done) ∧
      (s.regs.write 0x04 v).done = s.regs.done) ∧
    (∀ v : Word, v.getLsbD 1 = true → State.irq { s with regs := s.regs.write 0x0C v } = false ∧
      (s.regs.write 0x0C v).done = false ∧ (s.regs.write 0x0C v).result = s.regs.result ∧
      (s.regs.write 0x0C v).outLen = s.regs.outLen) ∧
    (∀ v : Word, v.getLsbD 1 = false → s.regs.write 0x0C v = s.regs)

/-- R29, R261: if a command completes in the step of a STATUS write that clears DONE, DONE is 1 after it. -/
def Obligations.CompletionWinsOverAcknowledge : Prop :=
  ∀ (s : State) (v : Word) (pace : Nat) (port : PortAnswer) (rest : List Turn), s.eng.busy = true → v.getLsbD 1 = true →
    s.env.agenda = { move := wr32 .status v, pace := pace, port := port } :: rest →
      ∃ t, step s = .next t ∧ (t.eng.busy = false → t.regs.done = true) ∧ (t.eng.busy = true → t.regs.done = false)

/-! ## Commands -/

/-- R253: CMD = 0x00000000 is NOP; with the engine idle it changes nothing at all, and while BUSY it is ignored: the running
command goes on by the turn's engine steps. -/
def Obligations.NopChangesNothing : Prop :=
  decode 0x00000000 = .ok .nop ∧
    ∀ s : State, (s.eng.busy = false → exec .nop s = .next s) ∧
      (s.eng.busy = true → exec .nop s = .next (engineRun s.env.pace s))

/-- R254: an illegal value written to CMD with the engine idle completes at once: OUT_LEN 0, RESULT 8, DONE 1, BUSY 0, `irq` as
IRQ_EN says; no byte of memory, nothing of the engine and no other register changes. -/
def Obligations.IllegalCommandCompletesAtOnce : Prop :=
  ∀ (s : State) (v : Word), s.eng.busy = false → v ≠ 0x00000000 → v ≠ 0x00000001 → v ≠ 0x00000002 →
    ∃ t, writeCmd v s = .next t ∧ t.readReg (regOffset .outLen) = 0 ∧ (t.status.extractLsb' 8 4).toNat = 8 ∧
      t.status.getLsbD 1 = true ∧ t.status.getLsbD 0 = false ∧ t.irq = s.regs.irqEn ∧
      t = { s with regs := { s.regs with outLen := 0, result := .errIllegalCmd, done := true } }

/-- R255: a write to CMD while BUSY, of any value, has no effect of any kind: the running command goes on by the turn's
engine steps, and nothing else changes. -/
def Obligations.CmdWriteWhileBusyIgnored : Prop :=
  ∀ (s : State) (v : Word), s.eng.busy = true → writeCmd v s = .next (engineRun s.env.pace s)

/-- R252, R39: acceptance of COMPRESS and of UNCOMPRESS, before any engine step: BUSY 1, DONE 0, RESULT NONE, OUT_LEN 0, the
operands latched; no other register, and no byte of memory, changes. -/
def Obligations.AcceptanceLatchesOperands : Prop :=
  ∀ (s : State) (i : Instr) (op : Op), (i = .compress ∧ op = .compress) ∨ (i = .uncompress ∧ op = .uncompress) →
    s.eng.busy = false → s.env.pace = 0 →
    windowsOnRegisters s.env.platform s.regs.srcAddr.toNat s.regs.srcLen.toNat s.regs.dstAddr.toNat s.regs.dstCap.toNat = false →
      ∃ t, exec i s = .next t ∧
        t.regs = { s.regs with done := false, result := .none, outLen := 0 } ∧
        t.eng.busy = true ∧ t.eng.op = op ∧ t.eng.lSrc = s.regs.srcAddr ∧ t.eng.lLen = s.regs.srcLen ∧
        t.eng.lDst = s.regs.dstAddr ∧ t.eng.lCap = s.regs.dstCap ∧ t.eng.lRatio = s.regs.ratio ∧
        t.mem = s.mem ∧ t.params = s.params ∧ t.env.platform = s.env.platform ∧ t.env.agenda = s.env.agenda ∧ t.irq = false

/-- R61, U21 of 93_implementation_defined.md: a command whose windows pass the checks and that would access the core's
own registers through the memory port is refused (where the model refuses: log entry 11); and when that is, in terms of
addresses: the platform maps the registers there, the input is not empty, and an address of one of the windows is among the
64 from REG_BASE on. -/
def Obligations.WindowOnOwnRegistersRefused : Prop :=
  (∀ (pl : Platform) (src len dst cap : Nat), windowsOnRegisters pl src len dst cap = true ↔
    pl.mapsRegisters = true ∧ len ≠ 0 ∧
      ∃ a, inRange pl.regBase.toNat 0x40 a = true ∧ (inRange src len a = true ∨ inRange dst cap a = true)) ∧
  ∀ (s : State) (i : Instr) (op : Op), (i = .compress ∧ op = .compress) ∨ (i = .uncompress ∧ op = .uncompress) →
    s.eng.busy = false →
    operandsLegal op s.regs.srcAddr s.regs.srcLen s.regs.dstAddr s.regs.dstCap s.regs.ratio = true →
    windowsOnRegisters s.env.platform s.regs.srcAddr.toNat s.regs.srcLen.toNat s.regs.dstAddr.toNat s.regs.dstCap.toNat = true →
      exec i s = .refused .windowOnRegisters

/-- R332, R325, R104: SETUP and START as six moves of the host: each register write is seen by the CMD write that follows
it, whatever the registers held before. -/
def Obligations.SetupThenStartLatchesTheValues : Prop :=
  ∀ (s : State) (i : Instr) (op : Op) (src len dst cap ratio : Word) (rest : List Turn),
    (i = .compress ∧ op = .compress) ∨ (i = .uncompress ∧ op = .uncompress) → s.eng.busy = false →
    s.env.platform.mapsRegisters = false →
    s.env.agenda = program 0 (setupMoves src len dst cap ratio ++ startMoves i) ++ rest →
      ∃ t, Host.Core.run Sys2Proof.core 6 s = .next t ∧ t.status = 0x00000001 ∧ t.eng.op = op ∧ t.eng.lSrc = src ∧
        t.eng.lLen = len ∧ t.eng.lDst = dst ∧ t.eng.lCap = cap ∧ t.eng.lRatio = ratio ∧
        t.regs = { s.regs with srcAddr := src, srcLen := len, dstAddr := dst, dstCap := cap, ratio := ratio,
                               done := false, result := .none, outLen := 0 } ∧
        t.mem = s.mem ∧ t.env.agenda = rest

/-- R63, R62: the operand checks, in terms of addresses: no window runs past 2^32, no address is in both windows, and for
UNCOMPRESS the ratio is not 0 (R211). -/
def Obligations.OperandChecksInTermsOfAddresses : Prop :=
  ∀ (op : Op) (src len dst cap ratio : Word),
    operandsLegal op src len dst cap ratio = true ↔
      src.toNat + len.toNat ≤ 2 ^ 32 ∧ dst.toNat + cap.toNat ≤ 2 ^ 32 ∧
        (¬ ∃ a, inRange src.toNat len.toNat a = true ∧ inRange dst.toNat cap.toNat a = true) ∧
        (op = .uncompress → ratio ≠ 0)

/-- R63, R211, R288, R69: a command whose operands fail the checks ends with ERR_CONFIG before any memory access: OUT_LEN 0,
memory unchanged and the host's view of it too (`lagging`, log entry 12), no other register changed. -/
def Obligations.ConfigErrorWritesNothing : Prop :=
  ∀ (s : State) (i : Instr) (op : Op), (i = .compress ∧ op = .compress) ∨ (i = .uncompress ∧ op = .uncompress) →
    s.eng.busy = false → 1 ≤ s.env.pace →
    operandsLegal op s.regs.srcAddr s.regs.srcLen s.regs.dstAddr s.regs.dstCap s.regs.ratio = false →
      ∃ t, exec i s = .next t ∧ t.eng.busy = false ∧
        t.regs = { s.regs with done := true, result := .errConfig, outLen := 0 } ∧ t.mem = s.mem ∧ t.params = s.params ∧
        ∀ a, t.lagging a = s.lagging a

/-! ## COMPRESS -/

/-- R180, R185, R187, R69: the whole of COMPRESS. RESULT is decided by L, the encoded length E and the capacity; on OK, OUT_LEN
is E, the bytes from DST_ADDR hold the stream of R94 in the layout of R150 with pad bits 0, and no other byte changes;
otherwise OUT_LEN is 0 and no byte outside the destination window changes. Of the unchanged bytes the host sees what it saw
before (`lagging`, log entry 12). No other register changes. -/
def Obligations.CompressMeetsItsFunction : Prop :=
  ∀ s : State, s.Ready .compress → stepBound s.regs.srcLen ≤ s.env.pace →
    let E := encodedLength s.params s.input
    let r := compressVerdict s.regs.srcLen.toNat E s.regs.dstCap.toNat
    ∃ t, exec .compress s = .next t ∧ t.eng.busy = false ∧
      t.regs = { s.regs with done := true, result := r, outLen := if r = .ok then BitVec.ofNat 32 E else 0 } ∧
      (r = .ok →
        (∀ j, j < 8 * E → (t.mem.read (s.regs.dstAddr.toNat + j / 8)).getLsbD (7 - j % 8) =
          (encodedBits s.params s.input).getD j false) ∧
        ∀ a, inRange s.regs.dstAddr.toNat E a = false → t.mem.read a = s.mem.read a ∧ t.lagging a = s.lagging a) ∧
      (∀ a, inRange s.regs.dstAddr.toNat s.regs.dstCap.toNat a = false →
        t.mem.read a = s.mem.read a ∧ t.lagging a = s.lagging a) ∧
      t.params = s.params ∧ t.env.platform = s.env.platform ∧ t.env.agenda = s.env.agenda ∧
      t.env.hostData = s.env.hostData

/-- R182: zero bytes: OK, OUT_LEN 0, nothing written, whatever the capacity and the ratio. -/
def Obligations.CompressOfNothing : Prop :=
  ∀ s : State, s.Ready .compress → stepBound s.regs.srcLen ≤ s.env.pace → s.regs.srcLen = 0 →
    ∃ t, exec .compress s = .next t ∧ t.eng.busy = false ∧
      t.regs = { s.regs with done := true, result := .ok, outLen := 0 } ∧ t.mem = s.mem

/-- R183: one byte passes through when the window has room; with none the result is ERR_DST_OVERFLOW. -/
def Obligations.CompressOfOneByte : Prop :=
  ∀ s : State, s.Ready .compress → stepBound s.regs.srcLen ≤ s.env.pace → s.regs.srcLen = 1 →
    ∃ t, exec .compress s = .next t ∧ t.eng.busy = false ∧
      (1 ≤ s.regs.dstCap.toNat → t.regs = { s.regs with done := true, result := .ok, outLen := 1 } ∧
        t.mem.read s.regs.dstAddr.toNat = s.mem.read s.regs.srcAddr.toNat ∧
        ∀ a, a ≠ s.regs.dstAddr.toNat → t.mem.read a = s.mem.read a) ∧
      (s.regs.dstCap = 0 → t.regs = { s.regs with done := true, result := .errDstOverflow, outLen := 0 })

/-- R184: every 2-byte input gives NO_BENEFIT. -/
def Obligations.TwoBytesGiveNoBenefit : Prop :=
  ∀ s : State, s.Ready .compress → stepBound s.regs.srcLen ≤ s.env.pace → s.regs.srcLen = 2 →
    ∃ t, exec .compress s = .next t ∧ t.eng.busy = false ∧
      t.regs = { s.regs with done := true, result := .noBenefit, outLen := 0 }

/-- R185: a host that sets DST_CAP to at least L - 1 never sees ERR_DST_OVERFLOW from COMPRESS with L >= 2. -/
def Obligations.CompressCapacityThatSuffices : Prop :=
  ∀ s t : State, s.Ready .compress → stepBound s.regs.srcLen ≤ s.env.pace → 2 ≤ s.regs.srcLen.toNat →
    s.regs.srcLen.toNat - 1 ≤ s.regs.dstCap.toNat → exec .compress s = .next t →
      t.regs.result = .noBenefit ∧ t.regs.outLen = 0 ∨ t.regs.result = .ok ∧ t.regs.outLen.toNat < s.regs.srcLen.toNat

/-- R180, R210: COMPRESS never ends with a decoding error, and UNCOMPRESS never with NO_BENEFIT: with the engine idle and the
command not refused, each completes with one of its own results and with no other, whatever errors the platform reports
(where its accesses complete, R258, or the input is empty). -/
def Obligations.EachCommandHasItsOwnResults : Prop :=
  ∀ (s : State) (i : Instr) (op : Op), (i = .compress ∧ op = .compress) ∨ (i = .uncompress ∧ op = .uncompress) →
    s.eng.busy = false → stepBound s.regs.srcLen ≤ s.env.pace → s.env.port ≠ .pending ∨ s.regs.srcLen = 0 →
    windowsOnRegisters s.env.platform s.regs.srcAddr.toNat s.regs.srcLen.toNat s.regs.dstAddr.toNat s.regs.dstCap.toNat = false →
      ∃ t, exec i s = .next t ∧ t.eng.busy = false ∧ t.regs.done = true ∧
        (op = .compress → t.regs.result ∈ [Result.ok, .noBenefit, .errDstOverflow, .errConfig, .errBus]) ∧
        (op = .uncompress → t.regs.result ∈
          [Result.ok, .errTruncated, .errUndefCode, .errRatio, .errDstOverflow, .errConfig, .errBus])

/-- R181: the emitted codes' sequences, one after the other, are the input; and each emitted code's sequence is the longest
prefix of the remaining input that has a dictionary entry at that moment. -/
def Obligations.EncoderParsesGreedily : Prop :=
  ∀ (p : Params) (d : List Byte) (pre post : List (Nat × List Entry)) (c : Nat) (after : List Entry),
    encoderTrace p d = pre ++ (c, after) :: post →
      let table := (pre.getLast?.map Prod.snd).getD []
      let rest := d.drop ((pre.map Prod.fst).flatMap (seqOf table)).length
      (pre.map Prod.fst).flatMap (seqOf table) <+: d ∧ c < freeOf table ∧ seqOf table c <+: rest ∧
        (∀ c', c' < freeOf table → seqOf table c' <+: rest → (seqOf table c').length ≤ (seqOf table c).length) ∧
        (post = [] → seqOf table c = rest)

/-- R127: the code the encoder emits at index i is below its counter, which is min(256 + i, 2^M), and fits in w(i) bits. And
R181's N <= L: no more codes are emitted than the input has symbols. -/
def Obligations.EmittedCodesFitTheirWidth : Prop :=
  ∀ (p : Params) (d : List Byte), (encoderTrace p d).length ≤ d.length ∧
    ∀ (pre post : List (Nat × List Entry)) (c : Nat) (after : List Entry), encoderTrace p d = pre ++ (c, after) :: post →
      freeOf ((pre.getLast?.map Prod.snd).getD []) = min (256 + pre.length) p.dictSize ∧
        c < min (256 + pre.length) p.dictSize ∧ c < 2 ^ codeWidth p pre.length

/-! ## Dictionary and bits -/

/-- R125: in a table the encoder can build, DICT_FIND returns the one entry whose sequence is seq(p) followed by the symbol,
and NONE only when no entry has that sequence. -/
def Obligations.FindReturnsTheSequence : Prop :=
  ∀ (table : List Entry) (code c : Nat) (b : Byte), tableOk table = true → tableDistinct table = true → code < freeOf table →
    (dictFind table code b = some c ↔ 256 ≤ c ∧ c < freeOf table ∧ seqOf table c = seqOf table code ++ [b])

/-- R122, R121, R124: an insertion gives the next free code the sequence of the prefix and the symbol and changes no other
sequence; in a full dictionary it changes nothing. -/
def Obligations.InsertAddsOneSequence : Prop :=
  ∀ (p : Params) (table : List Entry) (code : Nat) (b : Byte),
    (freeOf table < p.dictSize →
      freeOf (dictInsert p table code b) = freeOf table + 1 ∧
        seqOf (dictInsert p table code b) (freeOf table) = seqOf table code ++ [b] ∧
        ∀ c, c < freeOf table → seqOf (dictInsert p table code b) c = seqOf table c) ∧
    (p.dictSize ≤ freeOf table → dictInsert p table code b = table)

/-- R130, R131: which codes are defined when the code with index i is read, and what each stands for. -/
def Obligations.DefinedCodesAtAPosition : Prop :=
  ∀ (p : Params) (table : List Entry) (i c prev : Nat),
    (i = 0 → dictResolve p table i c prev = some [BitVec.ofNat 8 c]) ∧
    (1 ≤ i → c < freeOf table → dictResolve p table i c prev = some (seqOf table c)) ∧
    (1 ≤ i → c = freeOf table → freeOf table < p.dictSize →
      dictResolve p table i c prev = some (seqOf table prev ++ (seqOf table prev).take 1)) ∧
    (1 ≤ i → freeOf table < c → dictResolve p table i c prev = none)

/-- R97: the width table at M = 16, and at M = 9. -/
def Obligations.WidthTable : Prop :=
  ∀ i : Nat,
    codeWidth Params.hardware i =
      (if i = 0 then 8 else if i ≤ 256 then 9 else if i ≤ 768 then 10 else if i ≤ 1792 then 11 else if i ≤ 3840 then 12
       else if i ≤ 7936 then 13 else if i ≤ 16128 then 14 else if i ≤ 32512 then 15 else 16) ∧
    codeWidth { widthOverNine := 0, fracBits := 0 } i = (if i = 0 then 8 else 9)

/-- R96, R99: at every M, the first code has 8 bits, every other at least 9 and at most M, and the width never shrinks. -/
def Obligations.WidthsGrowWithinBounds : Prop :=
  ∀ (p : Params) (i j : Nat), codeWidth p 0 = 8 ∧ (1 ≤ i → 9 ≤ codeWidth p i ∧ codeWidth p i ≤ p.maxWidth) ∧
    (i ≤ j → codeWidth p i ≤ codeWidth p j)

/-- R159, R150: on bytes that hold the bits of codes in the layout of R150, the bit reader returns each code at its place. -/
def Obligations.ReaderReturnsTheWrittenCodes : Prop :=
  ∀ (p : Params) (codes : List Nat) (byte : Nat → Byte),
    (∀ j c, codes[j]? = some c → c < 2 ^ codeWidth p j) →
    (∀ t b, (streamBits p 0 codes)[t]? = some b → (byte (t / 8)).getLsbD (7 - t % 8) = b) →
      ∀ j c, codes[j]? = some c → readBits byte (streamBits p 0 (codes.take j)).length (codeWidth p j) 0 = c

/-! ## UNCOMPRESS -/

/-- R210, R213, R216, R224, R69: the whole of UNCOMPRESS. RESULT is that of the decoding of R213 with its tests in the order of
R216; on OK, OUT_LEN is the decoded length, the bytes from DST_ADDR are the decoded bytes, and no other byte changes;
otherwise OUT_LEN is 0 and no byte outside the destination window changes. Of the unchanged bytes the host sees what it saw
before (`lagging`, log entry 12). No other register changes. -/
def Obligations.UncompressMeetsItsFunction : Prop :=
  ∀ s : State, s.Ready .uncompress → stepBound s.regs.srcLen ≤ s.env.pace →
    let r := decodeStream s.params
      (uncompressGuard s.params s.regs.srcLen.toNat s.regs.ratio.toNat s.regs.dstCap.toNat) s.input
    ∃ t, exec .uncompress s = .next t ∧ t.eng.busy = false ∧
      t.regs = { s.regs with done := true, result := r.1,
                             outLen := if r.1 = .ok then BitVec.ofNat 32 r.2.length else 0 } ∧
      (r.1 = .ok →
        r.2.length ≤ s.regs.dstCap.toNat ∧ t.mem.bytes s.regs.dstAddr.toNat r.2.length = r.2 ∧
        ∀ a, inRange s.regs.dstAddr.toNat r.2.length a = false → t.mem.read a = s.mem.read a ∧ t.lagging a = s.lagging a) ∧
      (∀ a, inRange s.regs.dstAddr.toNat s.regs.dstCap.toNat a = false →
        t.mem.read a = s.mem.read a ∧ t.lagging a = s.lagging a) ∧
      t.params = s.params ∧ t.env.platform = s.env.platform ∧ t.env.agenda = s.env.agenda ∧
      t.env.hostData = s.env.hostData

/-- R222: zero bytes decode to nothing: OK, OUT_LEN 0, nothing written, whatever the capacity. -/
def Obligations.UncompressOfNothing : Prop :=
  ∀ s : State, s.Ready .uncompress → stepBound s.regs.srcLen ≤ s.env.pace → s.regs.srcLen = 0 →
    ∃ t, exec .uncompress s = .next t ∧ t.eng.busy = false ∧
      t.regs = { s.regs with done := true, result := .ok, outLen := 0 } ∧ t.mem = s.mem

/-- R221: one byte decodes to itself for every nonzero RATIO; only a window without room makes it fail. -/
def Obligations.UncompressOfOneByte : Prop :=
  ∀ s : State, s.Ready .uncompress → stepBound s.regs.srcLen ≤ s.env.pace → s.regs.srcLen = 1 →
    ∃ t, exec .uncompress s = .next t ∧ t.eng.busy = false ∧
      (1 ≤ s.regs.dstCap.toNat → t.regs = { s.regs with done := true, result := .ok, outLen := 1 } ∧
        t.mem.read s.regs.dstAddr.toNat = s.mem.read s.regs.srcAddr.toNat ∧
        ∀ a, a ≠ s.regs.dstAddr.toNat → t.mem.read a = s.mem.read a) ∧
      (s.regs.dstCap = 0 → t.regs = { s.regs with done := true, result := .errDstOverflow, outLen := 0 })

/-- R100: a 2-byte stream is never well-formed: it never ends OK, and at F = 0 with room for its first byte it ends with
ERR_TRUNCATED (log entry 19: the order of R216 decides the result elsewhere). -/
def Obligations.TwoByteStreamsAreTruncated : Prop :=
  ∀ s : State, s.Ready .uncompress → stepBound s.regs.srcLen ≤ s.env.pace → s.regs.srcLen = 2 →
    ∃ t, exec .uncompress s = .next t ∧ t.eng.busy = false ∧ t.regs.result ≠ .ok ∧ t.regs.outLen = 0 ∧
      (s.params.frac = 0 → 1 ≤ s.regs.dstCap.toNat → t.regs.result = .errTruncated)

/-- R218: for a stream of at least two bytes that is not malformed and whose full decode fits the window, the command ends OK
if the decoded length is within the ratio, and with ERR_RATIO otherwise. -/
def Obligations.RatioGuardIsExact : Prop :=
  ∀ (s : State) (out : List Byte), s.Ready .uncompress → stepBound s.regs.srcLen ≤ s.env.pace → 2 ≤ s.regs.srcLen.toNat →
    fullDecode s.params s.input = (.ok, out) → out.length ≤ s.regs.dstCap.toNat →
      ∃ t, exec .uncompress s = .next t ∧ t.eng.busy = false ∧
        (out.length * 2 ^ s.params.frac ≤ s.regs.srcLen.toNat * s.regs.ratio.toNat →
          t.regs.result = .ok ∧ t.regs.outLen.toNat = out.length ∧ t.mem.bytes s.regs.dstAddr.toNat out.length = out) ∧
        (s.regs.srcLen.toNat * s.regs.ratio.toNat < out.length * 2 ^ s.params.frac →
          t.regs.result = .errRatio ∧ t.regs.outLen = 0)

/-- R218, R70: no output longer than n * R / 2^F is ever produced from a stream of other than one byte: a running decoder's
output, at every step, and so OUT_LEN at the end. -/
def Obligations.OutputStaysWithinTheRatio : Prop :=
  ∀ (s : State) (n : Nat), s.Ready .uncompress → s.regs.srcLen ≠ 1 →
    2 ≤ n → let u := engineRun n (accept .uncompress s)
    u.eng.olen * 2 ^ s.params.frac ≤ s.regs.srcLen.toNat * s.regs.ratio.toNat ∧
      u.regs.outLen.toNat * 2 ^ s.params.frac ≤ s.regs.srcLen.toNat * s.regs.ratio.toNat

/-- R219: a host that sets DST_CAP to at least floor(n * R / 2^F) never sees ERR_DST_OVERFLOW for n >= 2. -/
def Obligations.UncompressCapacityThatSuffices : Prop :=
  ∀ s t : State, s.Ready .uncompress → stepBound s.regs.srcLen ≤ s.env.pace → 2 ≤ s.regs.srcLen.toNat →
    s.regs.srcLen.toNat * s.regs.ratio.toNat / 2 ^ s.params.frac ≤ s.regs.dstCap.toNat → exec .uncompress s = .next t →
      t.eng.busy = false ∧ t.regs.result ≠ .errDstOverflow

/-- R132: the entry with code k that the decoder builds from the encoder's stream is the one the encoder inserted: after the
code with index j + 1 the decoder's table is the encoder's table after the emission with index j. -/
def Obligations.DecoderRebuildsTheEncodersTable : Prop :=
  ∀ (p : Params) (d : List Byte) (j : Nat), j + 1 < (encoderTrace p d).length →
    (decoderTables p 0 [] 0 (lzwCodes p d))[j + 1]? = (encoderTrace p d)[j]?.map Prod.snd

/-- R223, R159, R215: every input's would-be stream, with up to 7 pad bits of any value, decodes to the input. -/
def Obligations.EveryStreamDecodesToItsInput : Prop :=
  ∀ (p : Params) (d stream : List Byte) (pad : List Bool), bytesBits stream = encodedBits p d ++ pad → pad.length ≤ 7 →
    fullDecode p stream = (.ok, d)

/-- R223: for every input for which COMPRESS ends OK, UNCOMPRESS of its output, at any address and with any RATIO large enough
(any nonzero one when the output has at most one byte), ends OK with the input. -/
def Obligations.RoundTrip : Prop :=
  ∀ s t u : State, s.Ready .compress → stepBound s.regs.srcLen ≤ s.env.pace → exec .compress s = .next t →
    t.regs.result = .ok →
    u.Ready .uncompress → stepBound u.regs.srcLen ≤ u.env.pace → u.params = s.params → u.regs.srcLen = t.regs.outLen →
    u.input = t.mem.bytes s.regs.dstAddr.toNat t.regs.outLen.toNat → s.regs.srcLen.toNat ≤ u.regs.dstCap.toNat →
    (s.regs.srcLen.toNat * 2 ^ s.params.frac ≤ t.regs.outLen.toNat * u.regs.ratio.toNat ∨ t.regs.outLen.toNat ≤ 1) →
      ∃ v, exec .uncompress u = .next v ∧ v.eng.busy = false ∧ v.regs.result = .ok ∧ v.regs.outLen = s.regs.srcLen ∧
        v.mem.bytes u.regs.dstAddr.toNat v.regs.outLen.toNat = s.input

/-! ## The whole machine -/

/-- From every state that meets the invariant, every step keeps it: memory's canonical form, the width of every engine
register (R38), the clear results while BUSY (R44), and the running command's registers. -/
def Obligations.StepKeepsInvariant : Prop := ∀ s t : State, s.Inv → step s = .next t → t.Inv

/-- The invariant holds after reset. -/
def Obligations.ResetMeetsInvariant : Prop := State.reset.Inv

/-- R44: while BUSY a host read of STATUS gives 1 (BUSY = 1, DONE = 0, RESULT = 0) and of OUT_LEN 0, and `irq` is 0. -/
def Obligations.BusyShowsNoResult : Prop :=
  ∀ s : State, s.Inv → s.eng.busy = true →
    s.readReg (regOffset .status) = 0x00000001 ∧ s.readReg (regOffset .outLen) = 0 ∧ s.irq = false

/-- R258, R251, R337: where every access completes, and for a command that makes none in any case (an empty input, operands that
fail the checks), a running command completes within as many engine steps as its input has bytes, and three: then BUSY is 0,
DONE is 1, RESULT is not NONE, and OUT_LEN is 0 unless RESULT is OK (R36). So every WAIT (R104) of the host ends, whatever the pace
of its turn. An access that never completes leaves BUSY = 1, in any number of steps. The counts are of this MODEL'S engine
steps and turns (log entry 7). -/
def Obligations.EveryCommandCompletes : Prop :=
  (∀ s : State, s.eng.busy = true →
    s.env.port ≠ .pending ∨ s.eng.lLen = 0 ∨ (s.eng.stage = .checks ∧ s.eng.configOk = false) →
      ∃ n, n ≤ stepBound s.eng.lLen ∧ (engineRun n s).eng.busy = false ∧ (engineRun n s).regs.done = true ∧
        (engineRun n s).regs.result ≠ .none ∧
        ((engineRun n s).regs.result ≠ .ok → (engineRun n s).regs.outLen = 0) ∧
        ∀ m, n ≤ m → engineRun m s = engineRun n s) ∧
  (∀ (s : State) (pace : Nat) (port : PortAnswer) (rest : List Turn), s.eng.busy = true →
    port ≠ .pending ∨ s.eng.lLen = 0 ∨ (s.eng.stage = .checks ∧ s.eng.configOk = false) →
    s.env.agenda = { move := .poll 0x0C 0x00000001 0x00000000, pace := pace, port := port } :: rest →
      ∃ n t, n ≤ stepBound s.eng.lLen + 2 ∧ Host.Core.run Sys2Proof.core n s = .next t ∧ t.eng.busy = false ∧
        t.regs.done = true ∧ t.env.agenda = rest) ∧
  ∀ (s : State) (i : Instr) (op : Op), (i = .compress ∧ op = .compress) ∨ (i = .uncompress ∧ op = .uncompress) →
    s.eng.busy = false → s.env.port = .pending → s.regs.srcLen ≠ 0 →
    operandsLegal op s.regs.srcAddr s.regs.srcLen s.regs.dstAddr s.regs.dstCap s.regs.ratio = true →
    windowsOnRegisters s.env.platform s.regs.srcAddr.toNat s.regs.srcLen.toNat s.regs.dstAddr.toNat s.regs.dstCap.toNat = false →
      ∃ t, exec i s = .next t ∧ ∀ n, (engineRun n t).eng.busy = true

/-- R66, R34, R69: the engine changes no byte outside its destination window, in any number of steps from any state (but for
bytes the host itself wrote into that window while the command ran, R72). -/
def Obligations.EngineWritesOnlyItsWindow : Prop :=
  ∀ (s : State) (n a : Nat), s.eng.inDst a = false → a ∉ s.env.touched → (engineRun n s).mem.read a = s.mem.read a

/-- R39, R331: writes of the operand registers and of CTRL while a command runs change the register written and nothing of the
command: its engine, memory, STATUS and OUT_LEN are the same after any number of steps. -/
def Obligations.RunningCommandIgnoresRegisterWrites : Prop :=
  ∀ (s : State) (n o : Nat) (v : Word), s.eng.busy = true → o ∈ [0x04, 0x10, 0x14, 0x18, 0x1C, 0x20] →
    let t := engineRun n { s with regs := s.regs.write o v }
    let u := engineRun n s
    t.eng = u.eng ∧ t.mem = u.mem ∧ t.env = u.env ∧ t.params = u.params ∧ t.status = u.status ∧
      t.regs = u.regs.write o v

/-- R286, R290: an error the platform reports on an access to an address it rejects ends the command with ERR_BUS; otherwise the
command has the outcome the rules give without the error. `windowsRejected` in terms of addresses: the input is not empty
(DEDUCED, log entry 8), and an address of the source window rejects reads or one of the destination window rejects writes.
(Whether an error is reported is the MODEL'S input of the turn, log entry 8.) -/
def Obligations.BusErrorOrTheErrorFreeOutcome : Prop :=
  (∀ (pl : Platform) (src len dst cap : Nat), windowsRejected pl src len dst cap = true ↔
    len ≠ 0 ∧ ∃ r ∈ pl.regions, ∃ a, inRange r.base r.size a = true ∧
      (r.rejectsRead = true ∧ inRange src len a = true ∨ r.rejectsWrite = true ∧ inRange dst cap a = true)) ∧
  ∀ (s : State) (i : Instr) (op : Op), (i = .compress ∧ op = .compress) ∨ (i = .uncompress ∧ op = .uncompress) →
    State.Ready op { s with env := { s.env with port := .completes } } → stepBound s.regs.srcLen ≤ s.env.pace →
    s.env.port ≠ .pending ∨ s.regs.srcLen = 0 →
      ∃ t u, exec i s = .next t ∧ exec i { s with env := { s.env with port := .completes } } = .next u ∧
        (t.regs.result = .errBus ∧ t.regs.outLen = 0 ∧ t.regs.done = true ∧ t.eng.busy = false ∧ s.env.port = .error ∧
            windowsRejected s.env.platform s.regs.srcAddr.toNat s.regs.srcLen.toNat s.regs.dstAddr.toNat
              s.regs.dstCap.toNat = true ∨
          t.regs = u.regs ∧ t.mem = u.mem ∧
            (s.env.port ≠ .error ∨ windowsRejected s.env.platform s.regs.srcAddr.toNat s.regs.srcLen.toNat
              s.regs.dstAddr.toNat s.regs.dstCap.toNat = false))

/-- R286: with windows that the platform accepts throughout (no address of the source window in a region that rejects reads,
none of the destination window in one that rejects writes), or an empty input (log entry 8), ERR_BUS never occurs: no engine
steps produce it. -/
def Obligations.NoBusErrorOnAcceptedWindows : Prop :=
  ∀ (s : State) (n : Nat),
    (s.eng.lLen = 0 ∨ ∀ r ∈ s.env.platform.regions, ∀ a, inRange r.base r.size a = true →
      (s.eng.inSrc a = true → r.rejectsRead = false) ∧ (s.eng.inDst a = true → r.rejectsWrite = false)) →
    s.regs.result ≠ .errBus →
    (engineRun n s).regs.result ≠ .errBus

/-- R324, R41: what a command does depends on nothing the engine or the results held before it: two idle machines that agree
on operands, memory and surroundings give the same registers and the same memory, however many engine steps pass. -/
def Obligations.CommandsDependOnNoEarlierCommand : Prop :=
  ∀ (s s' : State) (i : Instr), i = .compress ∨ i = .uncompress → s.eng.busy = false → s'.eng.busy = false →
    s.params = s'.params → s.mem = s'.mem → s.env = s'.env →
    s.regs = { s'.regs with done := s.regs.done, result := s.regs.result, outLen := s.regs.outLen } →
    windowsOnRegisters s.env.platform s.regs.srcAddr.toNat s.regs.srcLen.toNat s.regs.dstAddr.toNat s.regs.dstCap.toNat = false →
      ∃ t t', exec i s = .next t ∧ exec i s' = .next t' ∧ t.regs = t'.regs ∧ t.mem = t'.mem ∧ t.env = t'.env ∧
        t.eng.busy = t'.eng.busy

/-- R45: the outcome of a command is a function of its operands and of the source bytes: at whatever addresses the windows lie
and whatever else memory holds, RESULT, OUT_LEN and, on OK, the destination bytes are the same. -/
def Obligations.OutcomeIsAFunctionOfTheInput : Prop :=
  ∀ (s s' : State) (i : Instr) (op : Op), (i = .compress ∧ op = .compress) ∨ (i = .uncompress ∧ op = .uncompress) →
    s.Ready op → s'.Ready op → stepBound s.regs.srcLen ≤ s.env.pace → stepBound s'.regs.srcLen ≤ s'.env.pace →
    s.params = s'.params → s.input = s'.input → s.regs.dstCap = s'.regs.dstCap → s.regs.ratio = s'.regs.ratio →
      ∃ t t', exec i s = .next t ∧ exec i s' = .next t' ∧ t.regs.result = t'.regs.result ∧ t.regs.outLen = t'.regs.outLen ∧
        (t.regs.result = .ok → t.mem.bytes s.regs.dstAddr.toNat t.regs.outLen.toNat =
          t'.mem.bytes s'.regs.dstAddr.toNat t'.regs.outLen.toNat)

/-- R302, R323, R257, R336: a turn in which the host makes no access. An idle core waits: all its state stays as it is. A
running command goes on by the turn's engine steps, and nothing else happens; with no move scheduled it goes on by one. (The
turns are the MODEL'S schedule, log entry 7.) -/
def Obligations.IdleCoreKeepsItsState : Prop :=
  ∀ (s : State) (pace : Nat) (port : PortAnswer) (rest : List Turn),
    let idle := { s with env := { s.env with agenda := rest, pace := pace, port := port } }
    let quiet := { s with env := { s.env with agenda := [], pace := 1, port := .completes } }
    (s.env.agenda = { move := .idle, pace := pace, port := port } :: rest →
      step s = .next (engineRun pace idle) ∧ (s.eng.busy = false → step s = .next idle)) ∧
    (s.env.agenda = [] → step s = .next (engineRun 1 quiet) ∧ (s.eng.busy = false → step s = .next quiet))

/-- No step changes the parameters M and F (R7, R24) or the platform's. That they are fields of State which no step changes is
the MODEL'S choice (log entry 9). -/
def Obligations.ParametersNeverChange : Prop :=
  ∀ s t : State, step s = .next t → t.params = s.params ∧ t.env.platform = s.env.platform

/-- R68, R71, R256: what the host's own memory accesses do with the engine idle, on every platform and whether or not a STATUS
read has ordered what commands wrote: a byte written is memory's byte and is read back, every other byte is unchanged, and no
register changes. (Log entries 12 and 20.) -/
def Obligations.HostMemoryAccesses : Prop :=
  ∀ (s : State) (a : Nat) (v : Byte) (port : PortAnswer) (rest : List Turn), s.eng.busy = false → a < 2 ^ 32 →
    s.env.agenda = { move := .memWrite a v, pace := 0, port := port } ::
      { move := .memRead a, pace := 0, port := port } :: rest →
      ∃ t u, step s = .next t ∧ step t = .next u ∧ t.mem.read a = v ∧ (∀ b, b ≠ a → t.mem.read b = s.mem.read b) ∧
        u.env.hostData = v.setWidth 32 ∧ u.mem = t.mem ∧ u.regs = s.regs ∧ u.eng = s.eng

/-- R103, R104: POLL repeats its read until the masked value is the one waited for: then the schedule goes on; else the same
turn comes again, with at least one engine step (R337). Either way the turn is the read (`hostRead`) followed by the turn's
engine steps, and on an idle engine it changes no register and no byte of memory (the MODEL'S schedule, log entry 7). -/
def Obligations.PollRepeatsUntilTheValue : Prop :=
  ∀ (s : State) (o pace : Nat) (mask value : Word) (port : PortAnswer) (rest : List Turn), o % 4 = 0 → o < 0x40 →
    s.env.agenda = { move := .poll o mask value, pace := pace, port := port } :: rest →
      let read := hostRead o { s with env := { s.env with agenda := rest, pace := pace, port := port } }
      let next := if s.readReg o &&& mask = value then rest
        else { move := .poll o mask value, pace := max pace 1, port := port } :: rest
      ∃ t, step s = .next t ∧ t = engineRun pace { read with env := { read.env with agenda := next } } ∧
        t.env.hostData = s.readReg o ∧ t.env.agenda = next ∧
        (s.eng.busy = false → t.regs = s.regs ∧ t.eng = s.eng ∧ t.mem = s.mem)

/-- R71, R73: the registers order the host's memory accesses and the engine's. A CMD write that is accepted makes every byte
of memory what the command reads there (on a platform that is not coherent, once maintenance has left no older value); so a
command issued after a host write reads the host's byte, whether or not a STATUS read has ordered what the last one wrote. A read of
STATUS that returns BUSY = 0 or DONE = 1 makes the host's view lag nowhere but in ranges not maintained (on a coherent
platform it adds none to those); any other register read orders nothing. Maintenance leaves no older value and no range not
maintained. Where its view does not lag and the engine is idle, the host sees memory's byte. (`lagging`, `unseen`, `stale`
and `shadow` are the MODEL'S, log entry 12.) -/
def Obligations.RegistersOrderMemoryAccesses : Prop :=
  ∀ (s : State) (port : PortAnswer) (rest : List Turn),
    (∀ (i : Instr) (op : Op), (i = .compress ∧ op = .compress) ∨ (i = .uncompress ∧ op = .uncompress) →
      s.eng.busy = false → s.env.pace = 0 →
      windowsOnRegisters s.env.platform s.regs.srcAddr.toNat s.regs.srcLen.toNat s.regs.dstAddr.toNat
        s.regs.dstCap.toNat = false →
      s.env.platform.coherent = true ∨ s.env.shadow = [] →
        ∃ t, exec i s = .next t ∧ ∀ a, t.engineRead a = s.mem.read a) ∧
    (∀ (i : Instr) (op : Op) (a : Nat) (v : Byte), (i = .compress ∧ op = .compress) ∨ (i = .uncompress ∧ op = .uncompress) →
      s.eng.busy = false → a < 2 ^ 32 →
      windowsOnRegisters s.env.platform s.regs.srcAddr.toNat s.regs.srcLen.toNat s.regs.dstAddr.toNat
        s.regs.dstCap.toNat = false →
      s.env.platform.coherent = true →
      s.env.agenda = { move := .memWrite a v, pace := 0, port := port } ::
        { move := wr32 .cmd (encode i), pace := 0, port := port } :: rest →
        ∃ t u, step s = .next t ∧ step t = .next u ∧ u.eng.busy = true ∧ u.engineRead a = v) ∧
    (∀ o, o % 4 = 0 → o < 0x40 → s.env.agenda = { move := .read o 4, pace := 0, port := port } :: rest →
      ∃ t, step s = .next t ∧
        (o = 0x0C ∧ (s.eng.busy = false ∨ s.regs.done = true) → ∀ a, t.lagging a =
          if s.env.platform.coherent = true then inWindows s.env.stale a else s.lagging a) ∧
        (¬ (o = 0x0C ∧ (s.eng.busy = false ∨ s.regs.done = true)) → ∀ a, t.lagging a = s.lagging a)) ∧
    (s.env.agenda = { move := .maintain, pace := 0, port := port } :: rest →
      ∃ t, step s = .next t ∧ t.env.shadow = [] ∧ ∀ a, t.lagging a = inWindows s.env.unseen a) ∧
    ∀ a, s.eng.busy = false → s.lagging a = false → s.hostByte a = s.mem.read a
end

