-- ==== Sys2Proof/Laws/Bits.lean ====
section
/-! SUPPORT. Laws of code widths, of bit sequences, and of the bit reader. -/

namespace Sys2Proof

/-! ## Parameters and widths -/

theorem Params.maxWidth_ge (p : Params) : 9 ≤ p.maxWidth := by unfold Params.maxWidth; omega

theorem Params.maxWidth_le (p : Params) : p.maxWidth ≤ 16 := by unfold Params.maxWidth; omega

theorem Params.dictSize_ge (p : Params) : 512 ≤ p.dictSize :=
  Nat.pow_le_pow_right (n := 2) (by decide) p.maxWidth_ge

theorem Params.dictSize_le (p : Params) : p.dictSize ≤ 65536 :=
  Nat.pow_le_pow_right (n := 2) (by decide) p.maxWidth_le

end Sys2Proof

namespace Sys2Proof.Machine

theorem bitlen_le {x w : Nat} (hx : x ≠ 0) : bitlen x ≤ w ↔ x < 2 ^ w := by
  unfold bitlen
  rw [← Nat.log2_lt hx]; omega

/-- `x` fits in `bitlen x` bits. -/
theorem lt_two_pow_bitlen (x : Nat) : x < 2 ^ bitlen x := by
  unfold bitlen
  exact Nat.lt_log2_self

theorem bitlen_mono {x y : Nat} (hx : x ≠ 0) (h : x ≤ y) : bitlen x ≤ bitlen y :=
  (bitlen_le hx).mpr (Nat.lt_of_le_of_lt h (lt_two_pow_bitlen y))

theorem codeWidth_zero (p : Params) : codeWidth p 0 = 8 := by
  have := p.dictSize_ge
  unfold codeWidth
  rw [show min (255 + 0) (p.dictSize - 1) = 255 by omega]; rfl

theorem codeWidth_ge (p : Params) (i : Nat) (h : 1 ≤ i) : 9 ≤ codeWidth p i := by
  have := p.dictSize_ge
  unfold codeWidth
  exact (bitlen_mono (x := 256) (by decide) (by omega))

theorem codeWidth_le (p : Params) (i : Nat) : codeWidth p i ≤ p.maxWidth := by
  have := p.dictSize_ge
  unfold codeWidth
  rw [bitlen_le (by omega)]
  have : 0 < p.dictSize := by omega
  show min (255 + i) (p.dictSize - 1) < p.dictSize
  omega

theorem codeWidth_bounds (p : Params) (i : Nat) : 8 ≤ codeWidth p i ∧ codeWidth p i ≤ 16 := by
  refine ⟨?_, (codeWidth_le p i).trans p.maxWidth_le⟩
  cases i with
  | zero => rw [codeWidth_zero]
  | succ i => exact Nat.le_of_lt (codeWidth_ge p _ (by omega))

/-- A code below the encoder's counter at index `i` fits in w(i) bits (R127). -/
theorem lt_two_pow_codeWidth (p : Params) (i c : Nat) (h : c < min (256 + i) p.dictSize) : c < 2 ^ codeWidth p i := by
  refine Nat.lt_of_le_of_lt (m := min (255 + i) (p.dictSize - 1)) (by omega) (lt_two_pow_bitlen _)

/-! ## Bit sequences -/

@[simp] theorem length_codeBits (w c : Nat) : (codeBits w c).length = w := by simp [codeBits]

theorem getElem?_codeBits (w c j : Nat) (h : j < w) : (codeBits w c)[j]? = some (c.testBit (w - 1 - j)) := by
  simp [codeBits, h]

theorem bitsValue_foldl (bits : List Bool) (c : Nat) :
    bits.foldl (fun c b => 2 * c + b.toNat) c = c * 2 ^ bits.length + bitsValue bits := by
  induction bits generalizing c with
  | nil => simp [bitsValue]
  | cons b r ih =>
    unfold bitsValue
    simp only [List.foldl_cons, List.length_cons]
    rw [ih, ih (2 * 0 + b.toNat)]
    ring

@[simp] theorem bitsValue_nil : bitsValue [] = 0 := rfl

theorem bitsValue_append (a b : List Bool) : bitsValue (a ++ b) = bitsValue a * 2 ^ b.length + bitsValue b := by
  rw [← bitsValue_foldl]; simp [bitsValue, List.foldl_append]

theorem bitsValue_lt (bits : List Bool) : bitsValue bits < 2 ^ bits.length := by
  induction bits with
  | nil => simp
  | cons b r ih =>
    rw [show b :: r = [b] ++ r from rfl, bitsValue_append, List.length_append, Nat.pow_add]
    have : bitsValue [b] ≤ 1 := by cases b <;> simp [bitsValue]
    have h1 : ([b] : List Bool).length = 1 := rfl
    rw [h1, Nat.pow_one]
    nlinarith

theorem codeBits_succ (w c : Nat) : codeBits (w + 1) c = codeBits w (c / 2) ++ [c.testBit 0] := by
  unfold codeBits
  rw [List.range_succ, List.map_append]
  congr 1
  · refine List.map_congr_left fun j hj => ?_
    have hj := List.mem_range.mp hj
    rw [show w + 1 - 1 - j = (w - 1 - j) + 1 by omega, Nat.testBit_succ]
  · simp

/-- The bits of a code write the code. -/
theorem bitsValue_codeBits (w c : Nat) (h : c < 2 ^ w) : bitsValue (codeBits w c) = c := by
  induction w generalizing c with
  | zero => simp [codeBits]; omega
  | succ w ih =>
    rw [codeBits_succ, bitsValue_append, ih _ (by rw [Nat.pow_succ] at h; omega)]
    have : bitsValue [c.testBit 0] = c % 2 := by
      rw [Nat.testBit_zero]
      rcases Nat.mod_two_eq_zero_or_one c with h | h <;> simp [bitsValue, h]
    rw [this]; simp; omega

theorem streamBits_append (p : Params) (i : Nat) (a b : List Nat) :
    streamBits p i (a ++ b) = streamBits p i a ++ streamBits p (i + a.length) b := by
  induction a generalizing i with
  | nil => simp [streamBits]
  | cons c r ih =>
    simp only [List.cons_append, streamBits, ih, List.append_assoc, List.length_cons]
    rw [show i + 1 + r.length = i + (r.length + 1) by omega]

theorem length_streamBits_bounds (p : Params) (i : Nat) (codes : List Nat) :
    8 * codes.length ≤ (streamBits p i codes).length ∧ (streamBits p i codes).length ≤ 16 * codes.length := by
  induction codes generalizing i with
  | nil => simp [streamBits]
  | cons c r ih =>
    have := codeWidth_bounds p i
    have := ih (i + 1)
    simp only [streamBits, List.length_append, length_codeBits, List.length_cons]
    omega

@[simp] theorem length_bytesBits (bs : List Byte) : (bytesBits bs).length = 8 * bs.length := by
  induction bs with
  | nil => rfl
  | cons b r ih => simp only [bytesBits, List.flatMap_cons, List.length_append, length_codeBits, List.length_cons] at ih ⊢; omega

theorem bytesBits_append (a b : List Byte) : bytesBits (a ++ b) = bytesBits a ++ bytesBits b := by
  simp [bytesBits]

/-- Bit `t` of a byte sequence is bit 7 - t % 8 of byte t // 8 (R150). -/
theorem getElem?_bytesBits (bs : List Byte) (t : Nat) (h : t < 8 * bs.length) :
    (bytesBits bs)[t]? = some ((bs.getD (t / 8) 0).getLsbD (7 - t % 8)) := by
  induction bs generalizing t with
  | nil => simp at h
  | cons b r ih =>
    have hb : bytesBits (b :: r) = codeBits 8 b.toNat ++ bytesBits r := rfl
    rw [hb]
    simp only [List.length_cons] at h
    by_cases ht : t < 8
    · rw [List.getElem?_append_left (by simpa using ht), getElem?_codeBits _ _ _ ht,
        show t / 8 = 0 by omega, show t % 8 = t by omega]
      simp [BitVec.getLsbD]
    · rw [List.getElem?_append_right (by simp; omega), length_codeBits, ih _ (by omega)]
      rw [show (t - 8) / 8 = t / 8 - 1 by omega, show (t - 8) % 8 = t % 8 by omega]
      obtain ⟨k, hk⟩ : ∃ k, t / 8 = k + 1 := ⟨t / 8 - 1, by omega⟩
      rw [hk]; simp

/-- Two bit sequences of one length that agree at every place are equal, in terms of `getD`. -/
theorem eq_of_getD_eq (a b : List Bool) (hl : a.length = b.length)
    (h : ∀ j, j < a.length → a.getD j false = b.getD j false) : a = b := by
  refine List.ext_getElem hl fun j h₁ h₂ => ?_
  simpa [List.getD_eq_getElem?_getD, h₁, h₂] using h j h₁

/-! ## The bit reader -/

theorem streamBit_eq (byte : Nat → Byte) (t : Nat) :
    streamBit byte t = ((byte (t / 8)).getLsbD (7 - t % 8)).toNat := by
  unfold streamBit BitVec.getLsbD
  rw [Nat.and_one_is_mod, Nat.testBit, Nat.one_and_eq_mod_two]
  rcases Nat.mod_two_eq_zero_or_one ((byte (t / 8)).toNat >>> (7 - t % 8)) with h | h <;> simp [h]

theorem shift_or_bit (c : Nat) (b : Bool) : (c <<< 1) ||| b.toNat = 2 * c + b.toNat := by
  rw [← Nat.shiftLeft_add_eq_or_of_lt (by cases b <;> decide), Nat.shiftLeft_eq]; ring

/-- BR_GET's loop reads the number the next `n` bits write. -/
theorem readBits_eq (byte : Nat → Byte) (bits : List Bool) (t n c : Nat)
    (hb : ∀ j, j < n → bits[j]? = some ((byte ((t + j) / 8)).getLsbD (7 - (t + j) % 8))) :
    readBits byte t n c = c * 2 ^ n + bitsValue (bits.take n) := by
  induction n generalizing t c bits with
  | zero => simp [readBits]
  | succ n ih =>
    cases bits with
    | nil => simpa using hb 0 (by omega)
    | cons b r =>
      have h0 := hb 0 (by omega)
      simp only [List.getElem?_cons_zero, Option.some.injEq, Nat.add_zero] at h0
      rw [readBits, streamBit_eq, ← h0, shift_or_bit, ih r (t + 1) _ fun j hj => by
        have := hb (j + 1) (by omega)
        rwa [List.getElem?_cons_succ, show t + (j + 1) = t + 1 + j by omega] at this]
      rw [List.take_succ_cons, show b :: r.take n = [b] ++ r.take n from rfl, bitsValue_append]
      have hl : n ≤ r.length := by
        by_contra hcon
        have := hb n (by omega)
        rw [List.getElem?_eq_none (by simp; omega)] at this
        exact absurd this (by simp)
      rw [List.length_take, Nat.min_eq_left hl]
      have : bitsValue [b] = b.toNat := by cases b <;> rfl
      rw [this]; ring

end Sys2Proof.Machine
end

