-- ==== Sys2Proof/Laws/Dictionary.lean ====
section
/-! SUPPORT. Laws of the dictionary: what an insertion adds, what a lookup finds, and that the sequences of an encoder's table are distinct. -/

namespace Sys2Proof.Machine

@[simp] theorem freeOf_nil : freeOf [] = 256 := rfl

@[simp] theorem freeOf_cons (e : Entry) (t : List Entry) : freeOf (e :: t) = freeOf t + 1 := by simp [freeOf]; omega

theorem le_freeOf (t : List Entry) : 256 ≤ freeOf t := by simp [freeOf]

@[simp] theorem seqOf_cons_self (e : Entry) (t : List Entry) :
    seqOf (e :: t) (freeOf t) = seqOf t e.prefixCode ++ [e.suffix] := by simp [seqOf]

theorem seqOf_cons_of_ne (e : Entry) (t : List Entry) (c : Nat) (h : c ≠ freeOf t) : seqOf (e :: t) c = seqOf t c := by
  simp [seqOf, h]

/-- A literal stands for its byte in every table (R121). -/
theorem seqOf_literal (t : List Entry) (c : Nat) (h : c < 256) : seqOf t c = [BitVec.ofNat 8 c] := by
  induction t with
  | nil => rfl
  | cons e r ih => rw [seqOf_cons_of_ne _ _ _ (by have := le_freeOf r; omega), ih]

theorem seqOf_byte (t : List Entry) (b : Byte) : seqOf t b.toNat = [b] := by
  rw [seqOf_literal _ _ b.isLt]; simp

/-- No sequence is empty (R121). -/
theorem seqOf_ne_nil (t : List Entry) (c : Nat) : seqOf t c ≠ [] := by
  induction t generalizing c with
  | nil => simp [seqOf]
  | cons e r ih => unfold seqOf; split <;> simp [ih]

theorem firstOf_append (s t : List Byte) (h : s ≠ []) : firstOf (s ++ t) = firstOf s := by
  cases s with
  | nil => exact absurd rfl h
  | cons b r => rfl

@[simp] theorem firstOf_singleton (b : Byte) : firstOf [b] = b := rfl

/-! ## Insertion -/

theorem dictInsert_of_lt (p : Params) (t : List Entry) (c : Nat) (b : Byte) (h : freeOf t < p.dictSize) :
    dictInsert p t c b = { prefixCode := c, suffix := b } :: t := by simp [dictInsert, h]

theorem dictInsert_of_ge (p : Params) (t : List Entry) (c : Nat) (b : Byte) (h : p.dictSize ≤ freeOf t) :
    dictInsert p t c b = t := by simp [dictInsert]; omega

theorem freeOf_dictInsert (p : Params) (t : List Entry) (c : Nat) (b : Byte) :
    freeOf (dictInsert p t c b) = if freeOf t < p.dictSize then freeOf t + 1 else freeOf t := by
  unfold dictInsert; split <;> simp

theorem freeOf_le_dictInsert (p : Params) (t : List Entry) (c : Nat) (b : Byte) :
    freeOf t ≤ freeOf (dictInsert p t c b) := by rw [freeOf_dictInsert]; split <;> omega

/-- An insertion changes no defined sequence. -/
theorem seqOf_dictInsert (p : Params) (t : List Entry) (c : Nat) (b : Byte) (x : Nat) (h : x < freeOf t) :
    seqOf (dictInsert p t c b) x = seqOf t x := by
  unfold dictInsert; split
  · exact seqOf_cons_of_ne _ _ _ (by omega)
  · rfl

theorem tableOk_dictInsert (p : Params) (t : List Entry) (c : Nat) (b : Byte) (h : tableOk t = true) (hc : c < freeOf t) :
    tableOk (dictInsert p t c b) = true := by
  unfold dictInsert; split
  · simp [tableOk, h, hc]
  · exact h

theorem tableDistinct_dictInsert (p : Params) (t : List Entry) (c : Nat) (b : Byte) (h : tableDistinct t = true)
    (hf : dictFind t c b = none) : tableDistinct (dictInsert p t c b) = true := by
  unfold dictInsert; split
  · simp [tableDistinct, h, hf]
  · exact h

/-! ## Lookup -/

/-- What DICT_FIND finds (R125). -/
theorem dictFind_spec {t : List Entry} {code c : Nat} {b : Byte} (ht : tableOk t = true) (h : dictFind t code b = some c) :
    256 ≤ c ∧ c < freeOf t ∧ code < c ∧ seqOf t c = seqOf t code ++ [b] := by
  induction t with
  | nil => simp [dictFind] at h
  | cons e r ih =>
    simp only [tableOk, Bool.and_eq_true, decide_eq_true_eq] at ht
    have := le_freeOf r
    unfold dictFind at h
    split at h
    case isTrue he =>
      obtain ⟨rfl, rfl⟩ := he
      cases h
      refine ⟨this, by simp, ht.1, ?_⟩
      rw [seqOf_cons_self, seqOf_cons_of_ne _ _ _ (by omega)]
    case isFalse =>
      obtain ⟨h1, h2, h3, h4⟩ := ih ht.2 h
      refine ⟨h1, by simp; omega, h3, ?_⟩
      rw [seqOf_cons_of_ne _ _ _ (by omega), seqOf_cons_of_ne _ _ _ (by omega), h4]

/-- Every code that is no literal is its entry's prefix and symbol, and that pair is found. -/
theorem exists_entry {t : List Entry} {c : Nat} (ht : tableOk t = true) (h1 : 256 ≤ c) (h2 : c < freeOf t) :
    ∃ code b, code < c ∧ seqOf t c = seqOf t code ++ [b] ∧ dictFind t code b ≠ none := by
  induction t with
  | nil => simp at h2; omega
  | cons e r ih =>
    simp only [tableOk, Bool.and_eq_true, decide_eq_true_eq] at ht
    by_cases hc : c = freeOf r
    · subst hc
      refine ⟨e.prefixCode, e.suffix, ht.1, ?_, by simp [dictFind]⟩
      rw [seqOf_cons_self, seqOf_cons_of_ne _ _ _ (by omega)]
    · obtain ⟨code, b, h3, h4, h5⟩ := ih ht.2 (by simp at h2; omega)
      refine ⟨code, b, h3, ?_, ?_⟩
      · rw [seqOf_cons_of_ne _ _ _ hc, seqOf_cons_of_ne _ _ _ (by simp at h2; omega), h4]
      · unfold dictFind; split <;> simp [h5]

/-- In a table with no pair twice, different codes stand for different sequences. -/
theorem seqOf_injective {t : List Entry} (ht : tableOk t = true) (hd : tableDistinct t = true) {c c' : Nat}
    (hc : c < freeOf t) (hc' : c' < freeOf t) (h : seqOf t c = seqOf t c') : c = c' := by
  induction t generalizing c c' with
  | nil =>
    simp only [seqOf, List.cons.injEq, and_true, freeOf_nil] at h hc hc'
    have := congrArg BitVec.toNat h
    simpa [Nat.mod_eq_of_lt hc, Nat.mod_eq_of_lt hc'] using this
  | cons e r ih =>
    simp only [tableOk, tableDistinct, Bool.and_eq_true, decide_eq_true_eq] at ht hd
    have new : ∀ x, x < freeOf r → seqOf (e :: r) (freeOf r) ≠ seqOf (e :: r) x := by
      intro x hx heq
      rw [seqOf_cons_self, seqOf_cons_of_ne _ _ _ (by omega)] at heq
      by_cases hl : x < 256
      · rw [seqOf_literal _ _ hl] at heq
        have := congrArg List.length heq
        simp at this
        exact seqOf_ne_nil _ _ this
      · obtain ⟨code, b, h3, h4, h5⟩ := exists_entry ht.2 (by omega) hx
        rw [h4] at heq
        obtain ⟨h6, h7⟩ := List.append_inj' heq rfl
        have : e.prefixCode = code := ih ht.2 hd.2 ht.1 (by omega) h6
        simp only [List.cons.injEq, and_true] at h7
        exact h5 (this ▸ h7 ▸ hd.1)
    simp only [freeOf_cons] at hc hc'
    by_cases h1 : c = freeOf r <;> by_cases h2 : c' = freeOf r
    · rw [h1, h2]
    · subst h1; exact absurd h (new c' (by omega))
    · subst h2; exact absurd h.symm (new c (by omega))
    · rw [seqOf_cons_of_ne _ _ _ h1, seqOf_cons_of_ne _ _ _ h2] at h
      exact ih ht.2 hd.2 (by omega) (by omega) h

end Sys2Proof.Machine
end

