-- ==== Sys2Proof/Laws/Lzw.lean ====
section
/-! SUPPORT. Laws of the codec as pure functions: the decoder follows the encoder (spec/40_dictionary.md R132), and what a guard on the output's length changes. -/

namespace Sys2Proof.Machine

/-- One code of the synchronization (R128, R131): the decoder's table is the encoder's before its last insertion; the
next code resolves to its sequence in the encoder's table, and the decoder's insertion makes the tables equal. -/
theorem dictResolve_sync (p : Params) (t : List Entry) (i prev S : Nat) (b : Byte) (hi : 1 ≤ i)
    (hS : S < freeOf (dictInsert p t prev b)) (hb : firstOf (seqOf (dictInsert p t prev b) S) = b) :
    dictResolve p t i S prev = some (seqOf (dictInsert p t prev b) S) ∧
      decGrow p t i prev (seqOf (dictInsert p t prev b) S) = dictInsert p t prev b := by
  refine ⟨?_, by rw [decGrow, if_pos hi, hb]⟩
  unfold dictResolve
  rw [if_neg (by omega)]
  by_cases h : S < freeOf t
  · rw [if_pos h, seqOf_dictInsert _ _ _ _ _ h]
  · rw [if_neg h]
    rw [freeOf_dictInsert] at hS
    split at hS
    case isFalse => omega
    case isTrue hlt =>
      obtain rfl : S = freeOf t := by omega
      rw [if_pos ⟨rfl, hlt⟩]
      rw [dictInsert_of_lt _ _ _ _ hlt, seqOf_cons_self] at hb ⊢
      rw [firstOf_append _ _ (seqOf_ne_nil _ _)] at hb
      simp only at hb ⊢
      rw [hb]

/-- A step of the decoding that resolves a code and passes the guard. -/
theorem decodeFrom_step (p : Params) (guard : Nat → Option Result) (fuel : Nat) (bits : List Bool) (i c : Nat)
    (t : List Entry) (prev : Nat) (out cur : List Byte) (hc : c < 2 ^ codeWidth p i)
    (hr : dictResolve p t i c prev = some cur) (hg : guard (out.length + cur.length) = none) :
    decodeFrom p guard (fuel + 1) (codeBits (codeWidth p i) c ++ bits) i t prev out =
      decodeFrom p guard fuel bits (i + 1) (decGrow p t i prev cur) c (out ++ cur) := by
  rw [decodeFrom]
  simp only [List.length_append, length_codeBits]
  rw [if_neg (by omega), List.take_left' (by simp), bitsValue_codeBits _ _ hc, hr]
  simp only [hg]
  rw [List.drop_left' (by simp)]

/-- The end of a stream (R215). -/
theorem decodeFrom_end (p : Params) (guard : Nat → Option Result) (fuel : Nat) (pad : List Bool) (i : Nat)
    (t : List Entry) (prev : Nat) (out : List Byte) (h : pad.length ≤ 7) :
    decodeFrom p guard (fuel + 1) pad i t prev out = (.ok, out) := by
  have := (codeWidth_bounds p i).1
  rw [decodeFrom]
  simp only
  rw [if_pos (by omega), if_pos h]

/-- Decoding the encoder's codes from the code index `i >= 1` on: the decoder's table is the encoder's before its last
insertion. -/
theorem decodeFrom_lzwTrace (p : Params) (input : List Byte) (pad : List Bool) (hpad : pad.length ≤ 7) (i prev S : Nat)
    (t : List Entry) (b : Byte) (out : List Byte) (fuel : Nat) (hi : 1 ≤ i) (hprev : prev < freeOf t)
    (ht : tableOk t = true) (hS : S < freeOf (dictInsert p t prev b))
    (hb : firstOf (seqOf (dictInsert p t prev b) S) = b) (hfree : freeOf (dictInsert p t prev b) = min (256 + i) p.dictSize)
    (hfuel : ((lzwTrace p (dictInsert p t prev b) S input).map Prod.fst).length < fuel) :
    decodeFrom p (fun _ => none) fuel
        (streamBits p i ((lzwTrace p (dictInsert p t prev b) S input).map Prod.fst) ++ pad) i t prev out =
      (.ok, out ++ seqOf (dictInsert p t prev b) S ++ input) := by
  induction input generalizing i prev S t b out fuel with
  | nil =>
    obtain ⟨fuel, rfl⟩ : ∃ f, fuel = f + 2 := ⟨fuel - 2, by simp [lzwTrace] at hfuel; omega⟩
    obtain ⟨hr, -⟩ := dictResolve_sync p t i prev S b hi hS hb
    simp only [lzwTrace, List.map_cons, List.map_nil, streamBits, List.append_nil]
    rw [decodeFrom_step p _ _ _ _ _ _ _ _ _ (lt_two_pow_codeWidth _ _ _ (by omega)) hr rfl, decodeFrom_end _ _ _ _ _ _ _ _ hpad]
  | cons x r ih =>
    have htok := tableOk_dictInsert p t prev b ht hprev
    cases hf : dictFind (dictInsert p t prev b) S x with
    | some c =>
      obtain ⟨-, h2, -, h4⟩ := dictFind_spec htok hf
      simp only [lzwTrace, hf] at hfuel ⊢
      rw [ih i prev c t b out fuel hi hprev ht h2 (by rw [h4, firstOf_append _ _ (seqOf_ne_nil _ _), hb]) hfree hfuel, h4]
      simp
    | none =>
      obtain ⟨fuel, rfl⟩ : ∃ f, fuel = f + 1 := ⟨fuel - 1, by omega⟩
      obtain ⟨hr, hg⟩ := dictResolve_sync p t i prev S b hi hS hb
      simp only [lzwTrace, hf, List.map_cons, streamBits, List.append_assoc] at hfuel ⊢
      rw [decodeFrom_step p _ _ _ _ _ _ _ _ _ (lt_two_pow_codeWidth _ _ _ (by omega)) hr rfl, hg]
      have hfree' : freeOf (dictInsert p (dictInsert p t prev b) S x) = min (256 + (i + 1)) p.dictSize := by
        rw [freeOf_dictInsert]; split <;> omega
      have := x.isLt
      have hle := le_freeOf (dictInsert p (dictInsert p t prev b) S x)
      rw [ih (i + 1) S x.toNat (dictInsert p t prev b) x _ fuel (by omega) hS htok (by omega)
        (by rw [seqOf_byte]; rfl) hfree' (by simpa using hfuel), seqOf_byte]
      simp

/-- Every stream of an input's codes, with up to 7 pad bits, decodes to the input. -/
theorem decodeFrom_encoderTrace (p : Params) (d : List Byte) (pad : List Bool) (hpad : pad.length ≤ 7) (fuel : Nat)
    (hfuel : (lzwCodes p d).length < fuel) :
    decodeFrom p (fun _ => none) fuel (encodedBits p d ++ pad) 0 [] 0 [] = (.ok, d) := by
  unfold encodedBits
  cases d with
  | nil =>
    obtain ⟨fuel, rfl⟩ : ∃ f, fuel = f + 1 := ⟨fuel - 1, by omega⟩
    exact decodeFrom_end _ _ _ _ _ _ _ _ hpad
  | cons b rest =>
    unfold lzwCodes encoderTrace at *
    simp only at hfuel ⊢
    cases rest with
    | nil =>
      obtain ⟨fuel, rfl⟩ : ∃ f, fuel = f + 2 := ⟨fuel - 2, by simp [lzwTrace] at hfuel; omega⟩
      simp only [lzwTrace, List.map_cons, List.map_nil, streamBits, List.append_nil]
      rw [decodeFrom_step p _ _ _ _ _ _ _ _ [b] (by rw [codeWidth_zero]; exact b.isLt) (by simp [dictResolve]) rfl,
        decodeFrom_end _ _ _ _ _ _ _ _ hpad]
      rfl
    | cons x r =>
      obtain ⟨fuel, rfl⟩ : ∃ f, fuel = f + 1 := ⟨fuel - 1, by omega⟩
      have hsize := p.dictSize_ge
      simp only [lzwTrace, dictFind, List.map_cons, streamBits, List.append_assoc] at hfuel ⊢
      rw [decodeFrom_step p _ _ _ _ _ _ _ _ [b] (by rw [codeWidth_zero]; exact b.isLt) (by simp [dictResolve]) rfl]
      have hx := x.isLt
      have hbl := b.isLt
      have hfree : freeOf (dictInsert p [] b.toNat x) = min (256 + 1) p.dictSize := by
        rw [freeOf_dictInsert, freeOf_nil, if_pos (by omega)]; omega
      rw [show decGrow p [] 0 0 [b] = [] from rfl]
      rw [decodeFrom_lzwTrace p r pad hpad (0 + 1) b.toNat x.toNat [] x _ fuel (by omega) (by simp; omega) rfl (by omega)
        (by rw [seqOf_byte]; rfl) hfree (by simpa using hfuel), seqOf_byte]
      simp

/-! ## The guard -/

/-- An output only grows. -/
theorem decodeFrom_length_le (p : Params) (fuel : Nat) (bits : List Bool) (i : Nat) (t : List Entry) (prev : Nat)
    (out res : List Byte) (h : decodeFrom p (fun _ => none) fuel bits i t prev out = (.ok, res)) :
    out.length ≤ res.length := by
  induction fuel generalizing bits i t prev out with
  | zero => simp [decodeFrom] at h
  | succ fuel ih =>
    rw [decodeFrom] at h
    simp only at h
    split at h
    · split at h
      · simp at h; rw [h]
      · simp at h
    · split at h
      · simp at h
      · have := ih _ _ _ _ _ h
        simp at this; omega

/-- Where the unguarded decoding succeeds and the guard lets every length up to the output's pass, it changes nothing. -/
theorem decodeFrom_guard_pass (p : Params) (guard : Nat → Option Result) (fuel : Nat) (bits : List Bool) (i : Nat)
    (t : List Entry) (prev : Nat) (out res : List Byte)
    (h : decodeFrom p (fun _ => none) fuel bits i t prev out = (.ok, res))
    (hg : ∀ x, x ≤ res.length → guard x = none) : decodeFrom p guard fuel bits i t prev out = (.ok, res) := by
  induction fuel generalizing bits i t prev out with
  | zero => simp [decodeFrom] at h
  | succ fuel ih =>
    rw [decodeFrom] at h ⊢
    simp only at h ⊢
    split at h
    case isTrue hw => rw [if_pos hw]; exact h
    case isFalse hw =>
      rw [if_neg hw]
      split at h
      · simp at h
      case h_2 cur hr =>
        have hlen := decodeFrom_length_le _ _ _ _ _ _ _ _ h
        simp only [List.length_append] at hlen
        simp only [hg _ hlen]
        exact ih _ _ _ _ _ h

/-- A decoding that ends OK has let every length it reached pass, its output's among them. -/
theorem decodeFrom_ok_guard (p : Params) (guard : Nat → Option Result) (fuel : Nat) (bits : List Bool) (i : Nat)
    (t : List Entry) (prev : Nat) (out res : List Byte) (h : decodeFrom p guard fuel bits i t prev out = (.ok, res))
    (hout : guard out.length = none) (hok : ∀ x, guard x ≠ some .ok) : guard res.length = none := by
  induction fuel generalizing bits i t prev out with
  | zero => simp [decodeFrom] at h
  | succ fuel ih =>
    rw [decodeFrom] at h
    simp only at h
    split at h
    · split at h <;> simp at h
      rw [← h]; exact hout
    · split at h
      · simp at h
      · split at h
        case h_1 r hg => simp at h; exact absurd (h.1 ▸ hg) (hok _)
        case h_2 hg => exact ih _ _ _ _ _ h (by simpa using hg)

/-- Where the unguarded decoding succeeds and the guard has one failure only, the guarded one succeeds alike or fails so. -/
theorem decodeFrom_guard_fail (p : Params) (guard : Nat → Option Result) (r : Result) (fuel : Nat) (bits : List Bool)
    (i : Nat) (t : List Entry) (prev : Nat) (out res : List Byte)
    (h : decodeFrom p (fun _ => none) fuel bits i t prev out = (.ok, res))
    (hg : ∀ x, x ≤ res.length → guard x = none ∨ guard x = some r) :
    decodeFrom p guard fuel bits i t prev out = (.ok, res) ∨ decodeFrom p guard fuel bits i t prev out = (r, []) := by
  induction fuel generalizing bits i t prev out with
  | zero => simp [decodeFrom] at h
  | succ fuel ih =>
    rw [decodeFrom] at h ⊢
    simp only at h ⊢
    split at h
    case isTrue hw => rw [if_pos hw]; exact .inl h
    case isFalse hw =>
      rw [if_neg hw]
      split at h
      · simp at h
      case h_2 cur hr =>
        have hlen := decodeFrom_length_le _ _ _ _ _ _ _ _ h
        rw [List.length_append] at hlen
        rcases hg _ hlen with hg' | hg' <;> simp only [hg']
        · exact ih _ _ _ _ _ h
        · exact .inr trivial

/-- A failure that neither the stream's end, nor a code, nor the guard can give is never given. -/
theorem decodeFrom_ne (p : Params) (guard : Nat → Option Result) (r : Result) (hg : ∀ x, guard x ≠ some r)
    (hr : r ≠ .none ∧ r ≠ .ok ∧ r ≠ .errTruncated ∧ r ≠ .errUndefCode) (fuel : Nat) (bits : List Bool) (i : Nat)
    (t : List Entry) (prev : Nat) (out : List Byte) : (decodeFrom p guard fuel bits i t prev out).1 ≠ r := by
  induction fuel generalizing bits i t prev out with
  | zero => exact Ne.symm hr.1
  | succ fuel ih =>
    rw [decodeFrom]
    simp only
    split
    · split
      · exact hr.2.1.symm
      · exact hr.2.2.1.symm
    · split
      · exact hr.2.2.2.symm
      · split
        case h_1 r' h => intro hh; exact hg _ (h.trans (congrArg some hh))
        · exact ih _ _ _ _ _

/-! ## The decoder's tables -/

theorem lzwTrace_ne_nil (p : Params) (t : List Entry) (S : Nat) (input : List Byte) : lzwTrace p t S input ≠ [] := by
  induction input generalizing t S with
  | nil => simp [lzwTrace]
  | cons b r ih =>
    unfold lzwTrace
    split
    · exact ih _ _
    · simp

/-- The decoder's tables from the code index `i >= 1` on are the encoder's, one emission later (R132). -/
theorem decoderTables_lzwTrace (p : Params) (input : List Byte) (i prev S : Nat) (t : List Entry) (b : Byte) (hi : 1 ≤ i)
    (hprev : prev < freeOf t) (ht : tableOk t = true) (hS : S < freeOf (dictInsert p t prev b))
    (hb : firstOf (seqOf (dictInsert p t prev b) S) = b) :
    decoderTables p i t prev ((lzwTrace p (dictInsert p t prev b) S input).map Prod.fst) =
      dictInsert p t prev b :: ((lzwTrace p (dictInsert p t prev b) S input).map Prod.snd).dropLast := by
  induction input generalizing i prev S t b with
  | nil =>
    obtain ⟨hr, hg⟩ := dictResolve_sync p t i prev S b hi hS hb
    simp [lzwTrace, decoderTables, hr, hg]
  | cons x r ih =>
    have htok := tableOk_dictInsert p t prev b ht hprev
    cases hf : dictFind (dictInsert p t prev b) S x with
    | some c =>
      obtain ⟨-, h2, -, h4⟩ := dictFind_spec htok hf
      simp only [lzwTrace, hf]
      rw [ih i prev c t b hi hprev ht h2 (by rw [h4, firstOf_append _ _ (seqOf_ne_nil _ _), hb])]
    | none =>
      obtain ⟨hr, hg⟩ := dictResolve_sync p t i prev S b hi hS hb
      simp only [lzwTrace, hf, List.map_cons, decoderTables, hr, hg]
      have := x.isLt
      have hle := le_freeOf (dictInsert p (dictInsert p t prev b) S x)
      rw [ih (i + 1) S x.toNat (dictInsert p t prev b) x (by omega) hS htok (by omega) (by rw [seqOf_byte]; rfl),
        List.dropLast_cons_of_ne_nil (by simpa using lzwTrace_ne_nil _ _ _ _)]

end Sys2Proof.Machine
end

