-- ==== Sys2Proof/Laws/Memory.lean ====
section
/-! SUPPORT. Memory's laws: what each operation leaves to be read, and that each keeps the canonical form. -/

namespace Sys2Proof.Machine

/-! ## Ranges of addresses -/

@[simp] theorem inWindows_nil (a : Nat) : inWindows [] a = false := rfl

@[simp] theorem inWindows_cons (w : Nat × Nat) (ws : List (Nat × Nat)) (a : Nat) :
    inWindows (w :: ws) a = (inRange w.1 w.2 a || inWindows ws a) := rfl

/-- What `rangeMinus` leaves: the addresses of the first range that are not in the second. -/
@[simp] theorem inWindows_rangeMinus (a n b m x : Nat) :
    inWindows (rangeMinus a n b m) x = (inRange a n x && !inRange b m x) := by
  rw [Bool.eq_iff_iff]
  simp only [inWindows, rangeMinus, inRange, List.any_cons, List.any_nil, Bool.or_false, Bool.or_eq_true,
    Bool.and_eq_true, Bool.not_eq_true', Bool.and_eq_false_iff, decide_eq_true_eq, decide_eq_false_iff_not]
  omega

/-- The engine may write its destination window and never its source window (R66). -/
theorem inWindows_target (e : Engine) (a : Nat) : inWindows e.target a = (e.inDst a && !e.inSrc a) :=
  inWindows_rangeMinus _ _ _ _ _

@[simp] theorem inWindows_append (ws vs : List (Nat × Nat)) (a : Nat) :
    inWindows (ws ++ vs) a = (inWindows ws a || inWindows vs a) := List.any_append

@[simp] theorem inWindows_without (ws : List (Nat × Nat)) (x a : Nat) :
    inWindows (windowsWithout ws x) a = (inWindows ws a && decide (a ≠ x)) := by
  unfold windowsWithout
  have h1 : inRange x 1 a = decide (a = x) := by simp only [inRange, ← Bool.decide_and]; congr 1; simp only [eq_iff_iff]; omega
  induction ws with
  | nil => rfl
  | cons w r ih =>
    rw [List.flatMap_cons, inWindows_append, ih, inWindows_rangeMinus, h1]
    simp only [inWindows, List.any_cons, decide_not]
    cases inRange w.1 w.2 a <;> cases decide (a = x) <;> simp

/-! ## Reading -/

theorem Memory.read_erase (m : Memory) (a b : Nat) :
    (Memory.erase m a).read b = if b = a then Memory.unlisted b else m.read b := by
  induction m with
  | nil => simp [Memory.erase, Memory.read]
  | cons c r ih =>
    obtain ⟨x, w⟩ := c
    unfold Memory.erase at ih ⊢
    by_cases hx : x = a <;> by_cases hb : b = a <;> simp_all [Memory.read]
    intro h; exact absurd h.symm hb

theorem Memory.read_insert (m : Memory) (a : Nat) (v : Byte) (b : Nat) (h : ∀ c ∈ m, c.1 ≠ a) :
    (Memory.insert m a v).read b = if b = a then v else m.read b := by
  induction m with
  | nil => simp [Memory.insert, Memory.read, eq_comm]
  | cons c r ih =>
    have ih := ih fun c hc => h c (List.mem_cons_of_mem _ hc)
    have hx : c.1 ≠ a := h c List.mem_cons_self
    unfold Memory.insert
    by_cases hlt : a < c.1
    · rw [if_pos hlt, Memory.read]
      by_cases hb : b = a
      · rw [if_pos hb.symm, if_pos hb]
      · rw [if_neg (Ne.symm hb), if_neg hb]
    · rw [if_neg hlt, Memory.read, Memory.read, ih]
      by_cases hb : b = a
      · rw [if_pos hb, if_neg (by omega), if_pos hb]
      · rw [if_neg hb, if_neg hb]

@[simp] theorem Memory.read_put (m : Memory) (a : Nat) (v : Byte) (b : Nat) :
    (Memory.put m a v).read b = if b = a then v else m.read b := by
  unfold Memory.put
  by_cases hv : v = Memory.unlisted a
  · rw [if_pos hv, Memory.read_erase]
    by_cases hb : b = a <;> simp [hb, hv]
  · rw [if_neg hv, Memory.read_insert, Memory.read_erase]
    · by_cases hb : b = a <;> simp [hb]
    · intro c hc
      simpa [Memory.erase] using (List.mem_filter.mp hc).2

/-- A write is read back at its own address, below 2^32, and nowhere else. -/
theorem Memory.read_write (m : Memory) (a : Nat) (v : Byte) (b : Nat) :
    (Memory.write m a v).read b = if b = a ∧ a < 2 ^ 32 then v else m.read b := by
  unfold Memory.write
  by_cases ha : a < 2 ^ 32
  · rw [if_pos ha, Memory.read_put]
    by_cases hb : b = a
    · rw [if_pos hb, if_pos ⟨hb, ha⟩]
    · rw [if_neg hb, if_neg fun h => hb h.1]
  · rw [if_neg ha, if_neg fun h => ha h.2]

theorem Memory.read_write_ne (m : Memory) (a : Nat) (v : Byte) (b : Nat) (h : b ≠ a) :
    (Memory.write m a v).read b = m.read b := by simp [Memory.read_write, h]

theorem Memory.read_write_self (m : Memory) (a : Nat) (v : Byte) (h : a < 2 ^ 32) :
    (Memory.write m a v).read a = v := by rw [Memory.read_write, if_pos ⟨rfl, h⟩]

/-- A sequence is read back at its addresses, and nothing else changes. -/
theorem Memory.read_writeSeq (m : Memory) (a : Nat) (bs : List Byte) (b : Nat) (h : a + bs.length ≤ 2 ^ 32) :
    (Memory.writeSeq m a bs).read b = if a ≤ b then bs.getD (b - a) (m.read b) else m.read b := by
  induction bs generalizing m a with
  | nil => simp [Memory.writeSeq]
  | cons x r ih =>
    simp only [List.length_cons] at h
    rw [Memory.writeSeq, ih _ _ (by omega), Memory.read_write]
    rcases Nat.lt_trichotomy b a with hb | hb | hb
    · rw [if_neg (by omega), if_neg (by omega), if_neg (by omega)]
    · subst hb; rw [if_neg (by omega), if_pos (by omega), if_pos (Nat.le_refl _)]; simp
    · rw [if_pos (by omega), if_neg (by omega), if_pos (by omega)]
      obtain ⟨k, rfl⟩ : ∃ k, b = a + 1 + k := ⟨b - a - 1, by omega⟩
      rw [show a + 1 + k - (a + 1) = k by omega, show a + 1 + k - a = k + 1 by omega]; simp

theorem Memory.read_writeSeq_outside (m : Memory) (a : Nat) (bs : List Byte) (b : Nat)
    (h : b < a ∨ a + bs.length ≤ b) : (Memory.writeSeq m a bs).read b = m.read b := by
  induction bs generalizing m a with
  | nil => rfl
  | cons x r ih =>
    simp only [List.length_cons] at h
    rw [Memory.writeSeq, ih _ _ (by omega), Memory.read_write_ne _ _ _ _ (by omega)]

/-- An opened range reads as the draw's free values, and nothing else changes. -/
theorem Memory.read_openRange (m : Memory) (d a n b : Nat) : (Memory.openRange m d a n).read b =
    if inRange a n b = true ∧ b < 2 ^ 32 then Config.freeByte d b else m.read b := by
  simp only [inRange, Bool.and_eq_true, decide_eq_true_eq]
  induction n generalizing m a with
  | zero => rw [if_neg (by omega)]; rfl
  | succ n ih =>
    rw [Memory.openRange, ih, Memory.read_write]
    by_cases hb : b = a
    · subst hb
      rw [if_neg (by omega)]
      by_cases hl : b < 2 ^ 32
      · rw [if_pos ⟨rfl, hl⟩, if_pos (by omega)]
      · rw [if_neg (by omega), if_neg (by omega)]
    · rw [if_neg (show ¬ (b = a ∧ a < 2 ^ 32) from fun h => hb h.1)]
      congr 1
      simp only [eq_iff_iff]
      omega

/-- Opened ranges read as the draw's free values, and nothing else changes. -/
theorem Memory.read_openWindows (m : Memory) (d : Nat) (ws : List (Nat × Nat)) (b : Nat) :
    (Memory.openWindows m d ws).read b =
      if inWindows ws b = true ∧ b < 2 ^ 32 then Config.freeByte d b else m.read b := by
  induction ws generalizing m with
  | nil => rfl
  | cons w r ih =>
    rw [Memory.openWindows, ih, Memory.read_openRange]
    generalize 2 ^ 32 = top
    by_cases h1 : inWindows r b = true <;> by_cases h2 : inRange w.1 w.2 b = true <;> by_cases h3 : b < top <;>
      simp [h1, h2, h3]

/-- Opened addresses read as the draw's free values, and nothing else changes. -/
theorem Memory.read_openList (m : Memory) (d : Nat) (as : List Nat) (b : Nat) :
    (Memory.openList m d as).read b = if b ∈ as ∧ b < 2 ^ 32 then Config.freeByte d b else m.read b := by
  induction as generalizing m with
  | nil => rfl
  | cons a r ih =>
    rw [Memory.openList, ih, Memory.read_write]
    by_cases h1 : b ∈ r <;> by_cases h2 : b = a <;> by_cases h3 : b < 2 ^ 32 <;> simp_all

@[simp] theorem Memory.openList_nil (m : Memory) (d : Nat) : Memory.openList m d [] = m := rfl

/-! ## The canonical form -/

theorem Memory.wfFrom_mono {lo hi : Nat} (m : Memory) (h : hi ≤ lo) (hm : Memory.wfFrom lo m = true) :
    Memory.wfFrom hi m = true := by
  cases m with
  | nil => rfl
  | cons c r =>
    simp only [Memory.wfFrom, Bool.and_eq_true, decide_eq_true_eq] at hm ⊢
    exact ⟨⟨⟨by omega, hm.1.1.2⟩, hm.1.2⟩, hm.2⟩

theorem Memory.wfFrom_erase (lo : Nat) (m : Memory) (a : Nat) (h : Memory.wfFrom lo m = true) :
    Memory.wfFrom lo (Memory.erase m a) = true := by
  induction m generalizing lo with
  | nil => rfl
  | cons c r ih =>
    simp only [Memory.wfFrom, Bool.and_eq_true, decide_eq_true_eq] at h
    have hr := ih _ h.2
    unfold Memory.erase at hr ⊢
    by_cases hc : c.1 = a
    · rw [List.filter_cons_of_neg (by simp [hc])]
      exact Memory.wfFrom_mono _ (by omega) hr
    · rw [List.filter_cons_of_pos (by simp [hc])]
      simp only [Memory.wfFrom, Bool.and_eq_true, decide_eq_true_eq]
      exact ⟨h.1, hr⟩

theorem Memory.wfFrom_insert (lo : Nat) (m : Memory) (a : Nat) (v : Byte) (h : Memory.wfFrom lo m = true)
    (hlo : lo ≤ a) (ha : a < 2 ^ 32) (hv : v ≠ Memory.unlisted a) (hne : ∀ c ∈ m, c.1 ≠ a) :
    Memory.wfFrom lo (Memory.insert m a v) = true := by
  induction m generalizing lo with
  | nil => simp only [Memory.insert, Memory.wfFrom, Bool.and_eq_true, decide_eq_true_eq]; exact ⟨⟨⟨hlo, ha⟩, hv⟩, trivial⟩
  | cons c r ih =>
    simp only [Memory.wfFrom, Bool.and_eq_true, decide_eq_true_eq] at h
    have hx : c.1 ≠ a := hne c List.mem_cons_self
    unfold Memory.insert
    by_cases hlt : a < c.1
    · rw [if_pos hlt]
      simp only [Memory.wfFrom, Bool.and_eq_true, decide_eq_true_eq]
      exact ⟨⟨⟨hlo, ha⟩, hv⟩, ⟨⟨by omega, h.1.1.2⟩, h.1.2⟩, h.2⟩
    · rw [if_neg hlt]
      simp only [Memory.wfFrom, Bool.and_eq_true, decide_eq_true_eq]
      exact ⟨h.1, ih _ h.2 (by omega) fun c hc => hne c (List.mem_cons_of_mem _ hc)⟩

theorem Memory.wf_write (m : Memory) (a : Nat) (v : Byte) (h : m.wf = true) : (Memory.write m a v).wf = true := by
  unfold Memory.write
  split
  case isTrue ha =>
    unfold Memory.put
    split
    · exact Memory.wfFrom_erase _ _ _ h
    case isFalse hv =>
      refine Memory.wfFrom_insert _ _ _ _ (Memory.wfFrom_erase _ _ _ h) (Nat.zero_le _) ha hv fun c hc => ?_
      simpa [Memory.erase] using (List.mem_filter.mp hc).2
  · exact h

theorem Memory.wf_writeSeq (m : Memory) (a : Nat) (bs : List Byte) (h : m.wf = true) :
    (Memory.writeSeq m a bs).wf = true := by
  induction bs generalizing m a with
  | nil => exact h
  | cons b r ih => exact ih _ _ (Memory.wf_write _ _ _ h)

theorem Memory.wf_openRange (m : Memory) (d a n : Nat) (h : m.wf = true) : (Memory.openRange m d a n).wf = true := by
  induction n generalizing m a with
  | zero => exact h
  | succ n ih => exact ih _ _ (Memory.wf_write _ _ _ h)

theorem Memory.wf_openWindows (m : Memory) (d : Nat) (ws : List (Nat × Nat)) (h : m.wf = true) :
    (Memory.openWindows m d ws).wf = true := by
  induction ws generalizing m with
  | nil => exact h
  | cons w r ih => exact ih _ (Memory.wf_openRange _ _ _ _ h)

theorem Memory.wf_openList (m : Memory) (d : Nat) (as : List Nat) (h : m.wf = true) :
    (Memory.openList m d as).wf = true := by
  induction as generalizing m with
  | nil => exact h
  | cons a r ih => exact ih _ (Memory.wf_write _ _ _ h)

/-- Below its first address a canonical memory reads as unlisted. -/
theorem Memory.read_below {lo : Nat} (m : Memory) (h : Memory.wfFrom lo m = true) (a : Nat) (ha : a < lo) :
    m.read a = Memory.unlisted a := by
  induction m generalizing lo with
  | nil => rfl
  | cons c r ih =>
    simp only [Memory.wfFrom, Bool.and_eq_true, decide_eq_true_eq] at h
    rw [Memory.read, if_neg (by omega), ih h.2 (by omega)]

/-- Equal memories are equal lists: two canonical memories that read alike are the same. -/
theorem Memory.ext_of_wfFrom (lo : Nat) (m m' : Memory) (h : Memory.wfFrom lo m = true) (h' : Memory.wfFrom lo m' = true)
    (heq : ∀ a, m.read a = m'.read a) : m = m' := by
  induction m generalizing lo m' with
  | nil =>
    cases m' with
    | nil => rfl
    | cons c r =>
      simp only [Memory.wfFrom, Bool.and_eq_true, decide_eq_true_eq] at h'
      exact absurd (by simpa [Memory.read] using (heq c.1).symm) h'.1.2
  | cons c r ih =>
    cases m' with
    | nil =>
      simp only [Memory.wfFrom, Bool.and_eq_true, decide_eq_true_eq] at h
      exact absurd (by simpa [Memory.read] using heq c.1) h.1.2
    | cons c' r' =>
      simp only [Memory.wfFrom, Bool.and_eq_true, decide_eq_true_eq] at h h'
      have hcc : c.1 = c'.1 := by
        rcases Nat.lt_trichotomy c.1 c'.1 with hlt | he | hlt
        · have := heq c.1
          rw [Memory.read, if_pos rfl, Memory.read, if_neg (by omega), Memory.read_below r' h'.2 _ (by omega)] at this
          exact absurd this h.1.2
        · exact he
        · have := heq c'.1
          rw [Memory.read, if_neg (by omega), Memory.read_below r h.2 _ (by omega), Memory.read, if_pos rfl] at this
          exact absurd this.symm h'.1.2
      have hv : c.2 = c'.2 := by simpa [Memory.read, hcc] using heq c.1
      have hr : r = r' := by
        refine ih (c.1 + 1) r' h.2 (hcc ▸ h'.2) fun a => ?_
        by_cases ha : a < c.1 + 1
        · rw [Memory.read_below r h.2 a ha, Memory.read_below r' h'.2 a (by omega)]
        · simpa [Memory.read, show c.1 ≠ a by omega, show c'.1 ≠ a by omega] using heq a
      rw [hr, Prod.ext hcc hv]

end Sys2Proof.Machine
end

