-- ==== Sys2Proof/Laws/State.lean ====
section
/-! SUPPORT. Each named operation on the state, field by field: what it leaves and what it sets, true by definition, so that no later proof unfolds a record update. -/

namespace Sys2Proof.Machine


/-! ## Latching and acceptance (R39, R252) -/

@[simp] theorem latch_busy (op : Op) (r : Regs) (e : Engine) : (latch op r e).busy = true := rfl
@[simp] theorem latch_op (op : Op) (r : Regs) (e : Engine) : (latch op r e).op = op := rfl
@[simp] theorem latch_stage (op : Op) (r : Regs) (e : Engine) : (latch op r e).stage = .checks := rfl
@[simp] theorem latch_lSrc (op : Op) (r : Regs) (e : Engine) : (latch op r e).lSrc = r.srcAddr := rfl
@[simp] theorem latch_lLen (op : Op) (r : Regs) (e : Engine) : (latch op r e).lLen = r.srcLen := rfl
@[simp] theorem latch_lDst (op : Op) (r : Regs) (e : Engine) : (latch op r e).lDst = r.dstAddr := rfl
@[simp] theorem latch_lCap (op : Op) (r : Regs) (e : Engine) : (latch op r e).lCap = r.dstCap := rfl
@[simp] theorem latch_lRatio (op : Op) (r : Regs) (e : Engine) : (latch op r e).lRatio = r.ratio := rfl
@[simp] theorem latch_table (op : Op) (r : Regs) (e : Engine) : (latch op r e).table = e.table := rfl
@[simp] theorem latch_S (op : Op) (r : Regs) (e : Engine) : (latch op r e).S = e.S := rfl
@[simp] theorem latch_k (op : Op) (r : Regs) (e : Engine) : (latch op r e).k = e.k := rfl
@[simp] theorem latch_prev (op : Op) (r : Regs) (e : Engine) : (latch op r e).prev = e.prev := rfl
@[simp] theorem latch_i (op : Op) (r : Regs) (e : Engine) : (latch op r e).i = e.i := rfl
@[simp] theorem latch_bitpos (op : Op) (r : Regs) (e : Engine) : (latch op r e).bitpos = e.bitpos := rfl
@[simp] theorem latch_acc (op : Op) (r : Regs) (e : Engine) : (latch op r e).acc = e.acc := rfl
@[simp] theorem latch_nacc (op : Op) (r : Regs) (e : Engine) : (latch op r e).nacc = e.nacc := rfl
@[simp] theorem latch_olen (op : Op) (r : Regs) (e : Engine) : (latch op r e).olen = e.olen := rfl
@[simp] theorem accept_params (op : Op) (s : State) : (accept op s).params = s.params := rfl
@[simp] theorem accept_mem (op : Op) (s : State) : (accept op s).mem = s.mem := rfl
@[simp] theorem accept_eng (op : Op) (s : State) : (accept op s).eng = latch op s.regs s.eng := rfl
@[simp] theorem accept_regs (op : Op) (s : State) : (accept op s).regs = { s.regs with done := false, result := .none, outLen := 0 } := rfl
@[simp] theorem accept_env_agenda (op : Op) (s : State) : (accept op s).env.agenda = s.env.agenda := rfl
@[simp] theorem accept_env_pace (op : Op) (s : State) : (accept op s).env.pace = s.env.pace := rfl
@[simp] theorem accept_env_port (op : Op) (s : State) : (accept op s).env.port = s.env.port := rfl
@[simp] theorem accept_env_platform (op : Op) (s : State) : (accept op s).env.platform = s.env.platform := rfl
@[simp] theorem accept_env_hostData (op : Op) (s : State) : (accept op s).env.hostData = s.env.hostData := rfl
@[simp] theorem accept_env_shadow (op : Op) (s : State) : (accept op s).env.shadow = (if s.env.platform.coherent then [] else s.env.shadow) := rfl
@[simp] theorem accept_env_racing (op : Op) (s : State) : (accept op s).env.racing = [] := rfl
@[simp] theorem accept_env_unseen (op : Op) (s : State) : (accept op s).env.unseen = s.env.unseen := rfl
@[simp] theorem accept_env_touched (op : Op) (s : State) : (accept op s).env.touched = [] := rfl
@[simp] theorem accept_env_stale (op : Op) (s : State) : (accept op s).env.stale = s.env.stale := rfl
@[simp] theorem accept_env_draws (op : Op) (s : State) : (accept op s).env.draws = s.env.draws + 1 := rfl

/-! ## The end of a command (R69, R72, R256) -/

@[simp] theorem releaseWindow_params (o : Bool) (ws : List (Nat × Nat)) (s : State) : (s.releaseWindow o ws).params = s.params := rfl
@[simp] theorem releaseWindow_regs (o : Bool) (ws : List (Nat × Nat)) (s : State) : (s.releaseWindow o ws).regs = s.regs := rfl
@[simp] theorem releaseWindow_eng (o : Bool) (ws : List (Nat × Nat)) (s : State) : (s.releaseWindow o ws).eng = s.eng := rfl
@[simp] theorem releaseWindow_mem (o : Bool) (ws : List (Nat × Nat)) (s : State) : (s.releaseWindow o ws).mem =
    Memory.openList (if o then s.mem.openWindows s.env.draws ws else s.mem) s.env.draws s.env.touched := rfl
@[simp] theorem releaseWindow_env_agenda (o : Bool) (ws : List (Nat × Nat)) (s : State) : (s.releaseWindow o ws).env.agenda = s.env.agenda := rfl
@[simp] theorem releaseWindow_env_pace (o : Bool) (ws : List (Nat × Nat)) (s : State) : (s.releaseWindow o ws).env.pace = s.env.pace := rfl
@[simp] theorem releaseWindow_env_port (o : Bool) (ws : List (Nat × Nat)) (s : State) : (s.releaseWindow o ws).env.port = s.env.port := rfl
@[simp] theorem releaseWindow_env_platform (o : Bool) (ws : List (Nat × Nat)) (s : State) : (s.releaseWindow o ws).env.platform = s.env.platform := rfl
@[simp] theorem releaseWindow_env_hostData (o : Bool) (ws : List (Nat × Nat)) (s : State) : (s.releaseWindow o ws).env.hostData = s.env.hostData := rfl
@[simp] theorem releaseWindow_env_shadow (o : Bool) (ws : List (Nat × Nat)) (s : State) : (s.releaseWindow o ws).env.shadow = s.env.shadow := rfl
@[simp] theorem releaseWindow_env_touched (o : Bool) (ws : List (Nat × Nat)) (s : State) : (s.releaseWindow o ws).env.touched = [] := rfl
@[simp] theorem releaseWindow_env_racing (o : Bool) (ws : List (Nat × Nat)) (s : State) : (s.releaseWindow o ws).env.racing = [] := rfl
@[simp] theorem releaseWindow_env_unseen (o : Bool) (ws : List (Nat × Nat)) (s : State) : (s.releaseWindow o ws).env.unseen = ws ++ s.env.unseen := rfl
@[simp] theorem releaseWindow_env_stale (o : Bool) (ws : List (Nat × Nat)) (s : State) : (s.releaseWindow o ws).env.stale = s.env.stale := rfl
@[simp] theorem releaseWindow_env_draws (o : Bool) (ws : List (Nat × Nat)) (s : State) : (s.releaseWindow o ws).env.draws = s.env.draws + 1 := rfl
@[simp] theorem complete_irqEn (r : Result) (g : Regs) : (Regs.complete r g).irqEn = g.irqEn := rfl
@[simp] theorem complete_done (r : Result) (g : Regs) : (Regs.complete r g).done = true := rfl
@[simp] theorem complete_result (r : Result) (g : Regs) : (Regs.complete r g).result = r := rfl
@[simp] theorem complete_srcAddr (r : Result) (g : Regs) : (Regs.complete r g).srcAddr = g.srcAddr := rfl
@[simp] theorem complete_srcLen (r : Result) (g : Regs) : (Regs.complete r g).srcLen = g.srcLen := rfl
@[simp] theorem complete_dstAddr (r : Result) (g : Regs) : (Regs.complete r g).dstAddr = g.dstAddr := rfl
@[simp] theorem complete_dstCap (r : Result) (g : Regs) : (Regs.complete r g).dstCap = g.dstCap := rfl
@[simp] theorem complete_ratio (r : Result) (g : Regs) : (Regs.complete r g).ratio = g.ratio := rfl
@[simp] theorem complete_outLen (r : Result) (g : Regs) : (Regs.complete r g).outLen = (if r = .ok then g.outLen else 0) := rfl
@[simp] theorem finish_params (r : Result) (s : State) : (finish r s).params = s.params := rfl
@[simp] theorem finish_regs (r : Result) (s : State) : (finish r s).regs = Regs.complete r s.regs := rfl
@[simp] theorem finish_mem (r : Result) (s : State) : (finish r s).mem = (s.releaseWindow r.leavesWindowOpen (s.written r)).mem := rfl
@[simp] theorem finish_env (r : Result) (s : State) : (finish r s).env = (s.releaseWindow r.leavesWindowOpen (s.written r)).env := rfl
@[simp] theorem finish_eng_busy (r : Result) (s : State) : (finish r s).eng.busy = false := rfl
@[simp] theorem finish_eng_op (r : Result) (s : State) : (finish r s).eng.op = s.eng.op := rfl
@[simp] theorem finish_eng_stage (r : Result) (s : State) : (finish r s).eng.stage = s.eng.stage := rfl
@[simp] theorem finish_eng_lSrc (r : Result) (s : State) : (finish r s).eng.lSrc = s.eng.lSrc := rfl
@[simp] theorem finish_eng_lLen (r : Result) (s : State) : (finish r s).eng.lLen = s.eng.lLen := rfl
@[simp] theorem finish_eng_lDst (r : Result) (s : State) : (finish r s).eng.lDst = s.eng.lDst := rfl
@[simp] theorem finish_eng_lCap (r : Result) (s : State) : (finish r s).eng.lCap = s.eng.lCap := rfl
@[simp] theorem finish_eng_lRatio (r : Result) (s : State) : (finish r s).eng.lRatio = s.eng.lRatio := rfl
@[simp] theorem finish_eng_table (r : Result) (s : State) : (finish r s).eng.table = s.eng.table := rfl
@[simp] theorem finish_eng_S (r : Result) (s : State) : (finish r s).eng.S = s.eng.S := rfl
@[simp] theorem finish_eng_k (r : Result) (s : State) : (finish r s).eng.k = s.eng.k := rfl
@[simp] theorem finish_eng_prev (r : Result) (s : State) : (finish r s).eng.prev = s.eng.prev := rfl
@[simp] theorem finish_eng_i (r : Result) (s : State) : (finish r s).eng.i = s.eng.i := rfl
@[simp] theorem finish_eng_bitpos (r : Result) (s : State) : (finish r s).eng.bitpos = s.eng.bitpos := rfl
@[simp] theorem finish_eng_acc (r : Result) (s : State) : (finish r s).eng.acc = s.eng.acc := rfl
@[simp] theorem finish_eng_nacc (r : Result) (s : State) : (finish r s).eng.nacc = s.eng.nacc := rfl
@[simp] theorem finish_eng_olen (r : Result) (s : State) : (finish r s).eng.olen = s.eng.olen := rfl

/-! ## The bit writer and reader (R152 to R158) -/

@[simp] theorem outByte_params (v : Byte) (s : State) : (outByte v s).params = s.params := rfl
@[simp] theorem outByte_regs (v : Byte) (s : State) : (outByte v s).regs = s.regs := rfl
@[simp] theorem outByte_env (v : Byte) (s : State) : (outByte v s).env = s.env := rfl
@[simp] theorem outByte_mem (v : Byte) (s : State) : (outByte v s).mem = 
    if s.eng.olen < s.eng.lCap.toNat then s.mem.write (s.eng.lDst.toNat + s.eng.olen) v else s.mem := rfl
@[simp] theorem outByte_eng_busy (v : Byte) (s : State) : (outByte v s).eng.busy = s.eng.busy := rfl
@[simp] theorem outByte_eng_op (v : Byte) (s : State) : (outByte v s).eng.op = s.eng.op := rfl
@[simp] theorem outByte_eng_stage (v : Byte) (s : State) : (outByte v s).eng.stage = s.eng.stage := rfl
@[simp] theorem outByte_eng_lSrc (v : Byte) (s : State) : (outByte v s).eng.lSrc = s.eng.lSrc := rfl
@[simp] theorem outByte_eng_lLen (v : Byte) (s : State) : (outByte v s).eng.lLen = s.eng.lLen := rfl
@[simp] theorem outByte_eng_lDst (v : Byte) (s : State) : (outByte v s).eng.lDst = s.eng.lDst := rfl
@[simp] theorem outByte_eng_lCap (v : Byte) (s : State) : (outByte v s).eng.lCap = s.eng.lCap := rfl
@[simp] theorem outByte_eng_lRatio (v : Byte) (s : State) : (outByte v s).eng.lRatio = s.eng.lRatio := rfl
@[simp] theorem outByte_eng_table (v : Byte) (s : State) : (outByte v s).eng.table = s.eng.table := rfl
@[simp] theorem outByte_eng_S (v : Byte) (s : State) : (outByte v s).eng.S = s.eng.S := rfl
@[simp] theorem outByte_eng_k (v : Byte) (s : State) : (outByte v s).eng.k = s.eng.k := rfl
@[simp] theorem outByte_eng_prev (v : Byte) (s : State) : (outByte v s).eng.prev = s.eng.prev := rfl
@[simp] theorem outByte_eng_i (v : Byte) (s : State) : (outByte v s).eng.i = s.eng.i := rfl
@[simp] theorem outByte_eng_bitpos (v : Byte) (s : State) : (outByte v s).eng.bitpos = s.eng.bitpos := rfl
@[simp] theorem outByte_eng_acc (v : Byte) (s : State) : (outByte v s).eng.acc = s.eng.acc := rfl
@[simp] theorem outByte_eng_nacc (v : Byte) (s : State) : (outByte v s).eng.nacc = s.eng.nacc := rfl
@[simp] theorem outByte_eng_olen (v : Byte) (s : State) : (outByte v s).eng.olen = s.eng.olen + 1 := rfl
@[simp] theorem drainByte_params (s : State) : (drainByte s).params = s.params := rfl
@[simp] theorem drainByte_regs (s : State) : (drainByte s).regs = s.regs := rfl
@[simp] theorem drainByte_env (s : State) : (drainByte s).env = s.env := rfl
@[simp] theorem drainByte_eng_busy (s : State) : (drainByte s).eng.busy = s.eng.busy := rfl
@[simp] theorem drainByte_eng_op (s : State) : (drainByte s).eng.op = s.eng.op := rfl
@[simp] theorem drainByte_eng_stage (s : State) : (drainByte s).eng.stage = s.eng.stage := rfl
@[simp] theorem drainByte_eng_lSrc (s : State) : (drainByte s).eng.lSrc = s.eng.lSrc := rfl
@[simp] theorem drainByte_eng_lLen (s : State) : (drainByte s).eng.lLen = s.eng.lLen := rfl
@[simp] theorem drainByte_eng_lDst (s : State) : (drainByte s).eng.lDst = s.eng.lDst := rfl
@[simp] theorem drainByte_eng_lCap (s : State) : (drainByte s).eng.lCap = s.eng.lCap := rfl
@[simp] theorem drainByte_eng_lRatio (s : State) : (drainByte s).eng.lRatio = s.eng.lRatio := rfl
@[simp] theorem drainByte_eng_table (s : State) : (drainByte s).eng.table = s.eng.table := rfl
@[simp] theorem drainByte_eng_S (s : State) : (drainByte s).eng.S = s.eng.S := rfl
@[simp] theorem drainByte_eng_k (s : State) : (drainByte s).eng.k = s.eng.k := rfl
@[simp] theorem drainByte_eng_prev (s : State) : (drainByte s).eng.prev = s.eng.prev := rfl
@[simp] theorem drainByte_eng_i (s : State) : (drainByte s).eng.i = s.eng.i := rfl
@[simp] theorem drainByte_eng_bitpos (s : State) : (drainByte s).eng.bitpos = s.eng.bitpos := rfl
@[simp] theorem drainByte_eng_acc (s : State) : (drainByte s).eng.acc = s.eng.acc &&& (2 ^ (s.eng.nacc - 8) - 1) := rfl
@[simp] theorem drainByte_eng_nacc (s : State) : (drainByte s).eng.nacc = s.eng.nacc - 8 := rfl
@[simp] theorem drainByte_eng_olen (s : State) : (drainByte s).eng.olen = s.eng.olen + 1 := rfl
@[simp] theorem brAdvance_params (s : State) : (brAdvance s).params = s.params := rfl
@[simp] theorem brAdvance_regs (s : State) : (brAdvance s).regs = s.regs := rfl
@[simp] theorem brAdvance_env (s : State) : (brAdvance s).env = s.env := rfl
@[simp] theorem brAdvance_mem (s : State) : (brAdvance s).mem = s.mem := rfl
@[simp] theorem brAdvance_eng_busy (s : State) : (brAdvance s).eng.busy = s.eng.busy := rfl
@[simp] theorem brAdvance_eng_op (s : State) : (brAdvance s).eng.op = s.eng.op := rfl
@[simp] theorem brAdvance_eng_stage (s : State) : (brAdvance s).eng.stage = s.eng.stage := rfl
@[simp] theorem brAdvance_eng_lSrc (s : State) : (brAdvance s).eng.lSrc = s.eng.lSrc := rfl
@[simp] theorem brAdvance_eng_lLen (s : State) : (brAdvance s).eng.lLen = s.eng.lLen := rfl
@[simp] theorem brAdvance_eng_lDst (s : State) : (brAdvance s).eng.lDst = s.eng.lDst := rfl
@[simp] theorem brAdvance_eng_lCap (s : State) : (brAdvance s).eng.lCap = s.eng.lCap := rfl
@[simp] theorem brAdvance_eng_lRatio (s : State) : (brAdvance s).eng.lRatio = s.eng.lRatio := rfl
@[simp] theorem brAdvance_eng_table (s : State) : (brAdvance s).eng.table = s.eng.table := rfl
@[simp] theorem brAdvance_eng_S (s : State) : (brAdvance s).eng.S = s.eng.S := rfl
@[simp] theorem brAdvance_eng_k (s : State) : (brAdvance s).eng.k = s.eng.k := rfl
@[simp] theorem brAdvance_eng_prev (s : State) : (brAdvance s).eng.prev = s.eng.prev := rfl
@[simp] theorem brAdvance_eng_i (s : State) : (brAdvance s).eng.i = s.eng.i + 1 := rfl
@[simp] theorem brAdvance_eng_bitpos (s : State) : (brAdvance s).eng.bitpos = s.eng.bitpos + codeWidth s.params s.eng.i := rfl
@[simp] theorem brAdvance_eng_acc (s : State) : (brAdvance s).eng.acc = s.eng.acc := rfl
@[simp] theorem brAdvance_eng_nacc (s : State) : (brAdvance s).eng.nacc = s.eng.nacc := rfl
@[simp] theorem brAdvance_eng_olen (s : State) : (brAdvance s).eng.olen = s.eng.olen := rfl

/-! ## The host's moves and the turn (R259 to R261, R332) -/

@[simp] theorem hostRead_params (o : Nat) (s : State) : (hostRead o s).params = s.params := rfl
@[simp] theorem hostRead_regs (o : Nat) (s : State) : (hostRead o s).regs = s.regs := rfl
@[simp] theorem hostRead_eng (o : Nat) (s : State) : (hostRead o s).eng = s.eng := rfl
@[simp] theorem hostRead_mem (o : Nat) (s : State) : (hostRead o s).mem = s.mem := rfl
@[simp] theorem hostRead_env_agenda (o : Nat) (s : State) : (hostRead o s).env.agenda = s.env.agenda := rfl
@[simp] theorem hostRead_env_pace (o : Nat) (s : State) : (hostRead o s).env.pace = s.env.pace := rfl
@[simp] theorem hostRead_env_port (o : Nat) (s : State) : (hostRead o s).env.port = s.env.port := rfl
@[simp] theorem hostRead_env_platform (o : Nat) (s : State) : (hostRead o s).env.platform = s.env.platform := rfl
@[simp] theorem hostRead_env_hostData (o : Nat) (s : State) : (hostRead o s).env.hostData = s.readReg o := rfl
@[simp] theorem hostRead_env_shadow (o : Nat) (s : State) : (hostRead o s).env.shadow = s.env.shadow := rfl
@[simp] theorem hostRead_env_touched (o : Nat) (s : State) : (hostRead o s).env.touched = s.env.touched := rfl
@[simp] theorem hostRead_env_racing (o : Nat) (s : State) : (hostRead o s).env.racing = s.env.racing := rfl
@[simp] theorem hostRead_env_unseen (o : Nat) (s : State) :
    (hostRead o s).env.unseen = if s.observes o then [] else s.env.unseen := rfl
@[simp] theorem hostRead_env_stale (o : Nat) (s : State) : (hostRead o s).env.stale =
    if s.observes o && !s.env.platform.coherent then s.env.unseen ++ s.env.stale else s.env.stale := rfl
@[simp] theorem hostRead_env_draws (o : Nat) (s : State) : (hostRead o s).env.draws = s.env.draws := rfl
@[simp] theorem hostMemRead_params (a : Nat) (s : State) : (hostMemRead a s).params = s.params := rfl
@[simp] theorem hostMemRead_regs (a : Nat) (s : State) : (hostMemRead a s).regs = s.regs := rfl
@[simp] theorem hostMemRead_eng (a : Nat) (s : State) : (hostMemRead a s).eng = s.eng := rfl
@[simp] theorem hostMemRead_mem (a : Nat) (s : State) : (hostMemRead a s).mem = s.mem := rfl
@[simp] theorem hostMemRead_env_agenda (a : Nat) (s : State) : (hostMemRead a s).env.agenda = s.env.agenda := rfl
@[simp] theorem hostMemRead_env_pace (a : Nat) (s : State) : (hostMemRead a s).env.pace = s.env.pace := rfl
@[simp] theorem hostMemRead_env_port (a : Nat) (s : State) : (hostMemRead a s).env.port = s.env.port := rfl
@[simp] theorem hostMemRead_env_platform (a : Nat) (s : State) : (hostMemRead a s).env.platform = s.env.platform := rfl
@[simp] theorem hostMemRead_env_hostData (a : Nat) (s : State) : (hostMemRead a s).env.hostData = (s.hostByte a).setWidth 32 := rfl
@[simp] theorem hostMemRead_env_shadow (a : Nat) (s : State) : (hostMemRead a s).env.shadow = s.env.shadow := rfl
@[simp] theorem hostMemRead_env_touched (a : Nat) (s : State) : (hostMemRead a s).env.touched = s.env.touched := rfl
@[simp] theorem hostMemRead_env_racing (a : Nat) (s : State) : (hostMemRead a s).env.racing = s.env.racing := rfl
@[simp] theorem hostMemRead_env_unseen (a : Nat) (s : State) : (hostMemRead a s).env.unseen = s.env.unseen := rfl
@[simp] theorem hostMemRead_env_stale (a : Nat) (s : State) : (hostMemRead a s).env.stale = s.env.stale := rfl
@[simp] theorem hostMemRead_env_draws (a : Nat) (s : State) : (hostMemRead a s).env.draws = s.env.draws + 1 := rfl
@[simp] theorem hostMemWrite_params (a : Nat) (v : Byte) (s : State) : (hostMemWrite a v s).params = s.params := rfl
@[simp] theorem hostMemWrite_regs (a : Nat) (v : Byte) (s : State) : (hostMemWrite a v s).regs = s.regs := rfl
@[simp] theorem hostMemWrite_eng (a : Nat) (v : Byte) (s : State) : (hostMemWrite a v s).eng = s.eng := rfl
@[simp] theorem hostMemWrite_mem (a : Nat) (v : Byte) (s : State) : (hostMemWrite a v s).mem = s.mem.write a v := rfl
@[simp] theorem hostMemWrite_env_agenda (a : Nat) (v : Byte) (s : State) : (hostMemWrite a v s).env.agenda = s.env.agenda := rfl
@[simp] theorem hostMemWrite_env_pace (a : Nat) (v : Byte) (s : State) : (hostMemWrite a v s).env.pace = s.env.pace := rfl
@[simp] theorem hostMemWrite_env_port (a : Nat) (v : Byte) (s : State) : (hostMemWrite a v s).env.port = s.env.port := rfl
@[simp] theorem hostMemWrite_env_platform (a : Nat) (v : Byte) (s : State) : (hostMemWrite a v s).env.platform = s.env.platform := rfl
@[simp] theorem hostMemWrite_env_hostData (a : Nat) (v : Byte) (s : State) : (hostMemWrite a v s).env.hostData = s.env.hostData := rfl
@[simp] theorem hostMemWrite_env_racing (a : Nat) (v : Byte) (s : State) : (hostMemWrite a v s).env.racing =
    if s.eng.busy && s.eng.inSrc a then (a, s.mem.read a) :: s.env.racing else s.env.racing := rfl
@[simp] theorem hostMemWrite_env_shadow (a : Nat) (v : Byte) (s : State) : (hostMemWrite a v s).env.shadow =
    if s.env.platform.coherent then s.env.shadow else (a, s.mem.read a) :: s.env.shadow := rfl
@[simp] theorem hostMemWrite_env_touched (a : Nat) (v : Byte) (s : State) : (hostMemWrite a v s).env.touched =
    if s.eng.busy && s.eng.inDst a then a :: s.env.touched else s.env.touched := rfl
@[simp] theorem hostMemWrite_env_unseen (a : Nat) (v : Byte) (s : State) : (hostMemWrite a v s).env.unseen = windowsWithout s.env.unseen a := rfl
@[simp] theorem hostMemWrite_env_stale (a : Nat) (v : Byte) (s : State) : (hostMemWrite a v s).env.stale = windowsWithout s.env.stale a := rfl
@[simp] theorem hostMemWrite_env_draws (a : Nat) (v : Byte) (s : State) : (hostMemWrite a v s).env.draws = s.env.draws := rfl
/-- With the engine idle the host sees memory's byte where its view does not lag (R71). -/
theorem State.hostByte_seen {s : State} {a : Nat} (hb : s.eng.busy = false) (h : s.lagging a = false) :
    s.hostByte a = s.mem.read a := by simp [State.hostByte, hb, h]
@[simp] theorem hostMaintain_params (s : State) : (hostMaintain s).params = s.params := rfl
@[simp] theorem hostMaintain_regs (s : State) : (hostMaintain s).regs = s.regs := rfl
@[simp] theorem hostMaintain_eng (s : State) : (hostMaintain s).eng = s.eng := rfl
@[simp] theorem hostMaintain_mem (s : State) : (hostMaintain s).mem = s.mem := rfl
@[simp] theorem hostMaintain_env_agenda (s : State) : (hostMaintain s).env.agenda = s.env.agenda := rfl
@[simp] theorem hostMaintain_env_pace (s : State) : (hostMaintain s).env.pace = s.env.pace := rfl
@[simp] theorem hostMaintain_env_port (s : State) : (hostMaintain s).env.port = s.env.port := rfl
@[simp] theorem hostMaintain_env_platform (s : State) : (hostMaintain s).env.platform = s.env.platform := rfl
@[simp] theorem hostMaintain_env_hostData (s : State) : (hostMaintain s).env.hostData = s.env.hostData := rfl
@[simp] theorem hostMaintain_env_touched (s : State) : (hostMaintain s).env.touched = s.env.touched := rfl
@[simp] theorem hostMaintain_env_racing (s : State) : (hostMaintain s).env.racing = s.env.racing := rfl
@[simp] theorem hostMaintain_env_shadow (s : State) : (hostMaintain s).env.shadow = [] := rfl
@[simp] theorem hostMaintain_env_unseen (s : State) : (hostMaintain s).env.unseen = s.env.unseen := rfl
@[simp] theorem hostMaintain_env_stale (s : State) : (hostMaintain s).env.stale = [] := rfl
@[simp] theorem hostMaintain_env_draws (s : State) : (hostMaintain s).env.draws = s.env.draws := rfl
@[simp] theorem beginTurn_params (s : State) : (State.beginTurn s).params = s.params := rfl
@[simp] theorem beginTurn_regs (s : State) : (State.beginTurn s).regs = s.regs := rfl
@[simp] theorem beginTurn_eng (s : State) : (State.beginTurn s).eng = s.eng := rfl
@[simp] theorem beginTurn_mem (s : State) : (State.beginTurn s).mem = s.mem := rfl
@[simp] theorem beginTurn_env_agenda (s : State) : (State.beginTurn s).env.agenda = s.env.agenda.tail := rfl
@[simp] theorem beginTurn_env_pace (s : State) : (State.beginTurn s).env.pace = s.turn.pace := rfl
@[simp] theorem beginTurn_env_port (s : State) : (State.beginTurn s).env.port = s.turn.port := rfl
@[simp] theorem beginTurn_env_platform (s : State) : (State.beginTurn s).env.platform = s.env.platform := rfl
@[simp] theorem beginTurn_env_hostData (s : State) : (State.beginTurn s).env.hostData = s.env.hostData := rfl
@[simp] theorem beginTurn_env_shadow (s : State) : (State.beginTurn s).env.shadow = s.env.shadow := rfl
@[simp] theorem beginTurn_env_touched (s : State) : (State.beginTurn s).env.touched = s.env.touched := rfl
@[simp] theorem beginTurn_env_racing (s : State) : (State.beginTurn s).env.racing = s.env.racing := rfl
@[simp] theorem beginTurn_env_unseen (s : State) : (State.beginTurn s).env.unseen = s.env.unseen := rfl
@[simp] theorem beginTurn_env_stale (s : State) : (State.beginTurn s).env.stale = s.env.stale := rfl
@[simp] theorem beginTurn_env_draws (s : State) : (State.beginTurn s).env.draws = s.env.draws := rfl

end Sys2Proof.Machine
end

