-- ==== Sys2Proof/Laws/Engine.lean ====
section
/-! SUPPORT. What an engine step can do: what none changes (`Kept`), and that each either goes on or ends the command by `finish`. -/

namespace Sys2Proof.Machine

/-! ## The bit writer's frame -/

theorem drain_frame (n : Nat) (s : State) :
    (drain n s).params = s.params ∧ (drain n s).regs = s.regs ∧ (drain n s).env = s.env ∧
      (drain n s).eng =
        { s.eng with acc := (drain n s).eng.acc, nacc := (drain n s).eng.nacc, olen := (drain n s).eng.olen } := by
  induction n generalizing s with
  | zero => exact ⟨rfl, rfl, rfl, rfl⟩
  | succ n ih =>
    obtain ⟨h1, h2, h3, h4⟩ := ih (drainByte s)
    exact ⟨h1, h2, h3, h4⟩

theorem emit_frame (c : Nat) (s : State) :
    (emit c s).params = s.params ∧ (emit c s).regs = s.regs ∧ (emit c s).env = s.env ∧
      (emit c s).eng =
        { s.eng with acc := (emit c s).eng.acc, nacc := (emit c s).eng.nacc, olen := (emit c s).eng.olen,
                     i := s.eng.i + 1 } := by
  unfold emit
  simp only
  obtain ⟨h1, h2, h3, h4⟩ := drain_frame ((s.eng.nacc + codeWidth s.params s.eng.i) / 8)
    { s with eng := { s.eng with acc := (s.eng.acc <<< codeWidth s.params s.eng.i) ||| c,
                                 nacc := s.eng.nacc + codeWidth s.params s.eng.i } }
  refine ⟨h1, h2, h3, ?_⟩
  rw [h4]

theorem flush_frame (s : State) :
    (flush s).params = s.params ∧ (flush s).regs = s.regs ∧ (flush s).env = s.env ∧
      (flush s).eng = { s.eng with acc := (flush s).eng.acc, nacc := (flush s).eng.nacc, olen := (flush s).eng.olen } := by
  unfold flush
  split <;> exact ⟨rfl, rfl, rfl, rfl⟩

/-- OUT_BYTE writes inside the destination window only (R154). -/
theorem outByte_outside (v : Byte) (s : State) (a : Nat) (h : s.eng.inDst a = false) :
    (outByte v s).mem.read a = s.mem.read a := by
  rw [outByte_mem]
  split
  · refine Memory.read_write_ne _ _ _ _ ?_
    simp only [Engine.inDst, inRange, Bool.and_eq_false_iff, decide_eq_false_iff_not] at h
    omega
  · rfl

theorem drain_outside (n : Nat) (s : State) (a : Nat) (h : s.eng.inDst a = false) :
    (drain n s).mem.read a = s.mem.read a := by
  induction n generalizing s with
  | zero => rfl
  | succ n ih => exact (ih (drainByte s) h).trans (outByte_outside _ _ _ h)

theorem emit_outside (c : Nat) (s : State) (a : Nat) (h : s.eng.inDst a = false) :
    (emit c s).mem.read a = s.mem.read a := drain_outside _ _ _ h

theorem flush_outside (s : State) (a : Nat) (h : s.eng.inDst a = false) : (flush s).mem.read a = s.mem.read a := by
  unfold flush
  split
  · exact outByte_outside _ _ _ h
  · rfl

/-! ## What no engine step changes -/

/-- What the engine leaves as it is: the parameters, the outside world's part, the registers the host writes, the latched
operands, and memory outside the destination window (but for bytes the host wrote into the window, R72). -/
structure Kept (s t : State) : Prop where
  params     : t.params = s.params
  agenda     : t.env.agenda = s.env.agenda
  pace       : t.env.pace = s.env.pace
  port       : t.env.port = s.env.port
  platform   : t.env.platform = s.env.platform
  hostData   : t.env.hostData = s.env.hostData
  shadow     : t.env.shadow = s.env.shadow
  regs       : t.regs = { s.regs with done := t.regs.done, result := t.regs.result, outLen := t.regs.outLen }
  op         : t.eng.op = s.eng.op
  lSrc       : t.eng.lSrc = s.eng.lSrc
  lLen       : t.eng.lLen = s.eng.lLen
  lDst       : t.eng.lDst = s.eng.lDst
  lCap       : t.eng.lCap = s.eng.lCap
  lRatio     : t.eng.lRatio = s.eng.lRatio
  touched    : t.env.touched = s.env.touched ∨ t.env.touched = []
  outside    : ∀ a, s.eng.inDst a = false → a ∉ s.env.touched → t.mem.read a = s.mem.read a

theorem Kept.refl (s : State) : Kept s s :=
  ⟨rfl, rfl, rfl, rfl, rfl, rfl, rfl, rfl, rfl, rfl, rfl, rfl, rfl, rfl, .inl rfl, fun _ _ _ => rfl⟩

theorem Kept.inDst {s t : State} (h : Kept s t) (a : Nat) : t.eng.inDst a = s.eng.inDst a := by
  unfold Engine.inDst; rw [h.lDst, h.lCap]

theorem Kept.trans {s t u : State} (h : Kept s t) (k : Kept t u) : Kept s u where
  params := k.params.trans h.params
  agenda := k.agenda.trans h.agenda
  pace := k.pace.trans h.pace
  port := k.port.trans h.port
  platform := k.platform.trans h.platform
  hostData := k.hostData.trans h.hostData
  shadow := k.shadow.trans h.shadow
  regs := by rw [k.regs, h.regs]
  op := k.op.trans h.op
  lSrc := k.lSrc.trans h.lSrc
  lLen := k.lLen.trans h.lLen
  lDst := k.lDst.trans h.lDst
  lCap := k.lCap.trans h.lCap
  lRatio := k.lRatio.trans h.lRatio
  touched := by
    rcases k.touched with e | e
    · rw [e]; exact h.touched
    · exact .inr e
  outside a ha ht := by
    rw [k.outside a (by rw [h.inDst]; exact ha) ?_, h.outside a ha ht]
    rcases h.touched with e | e <;> rw [e]
    · exact ht
    · exact List.not_mem_nil

/-- A step of a pass that keeps the command running: registers and surroundings are as before, the engine's latched
operands too, and memory changes in the destination window only. -/
structure Goes (s t : State) : Prop where
  params  : t.params = s.params
  env     : t.env = s.env
  regs    : t.regs = s.regs
  busy    : t.eng.busy = s.eng.busy
  op      : t.eng.op = s.eng.op
  lSrc    : t.eng.lSrc = s.eng.lSrc
  lLen    : t.eng.lLen = s.eng.lLen
  lDst    : t.eng.lDst = s.eng.lDst
  lCap    : t.eng.lCap = s.eng.lCap
  lRatio  : t.eng.lRatio = s.eng.lRatio
  outside : ∀ a, s.eng.inDst a = false → t.mem.read a = s.mem.read a

theorem Goes.refl (s : State) : Goes s s := ⟨rfl, rfl, rfl, rfl, rfl, rfl, rfl, rfl, rfl, rfl, fun _ _ => rfl⟩

theorem Goes.inDst {s t : State} (h : Goes s t) (a : Nat) : t.eng.inDst a = s.eng.inDst a := by
  unfold Engine.inDst; rw [h.lDst, h.lCap]

theorem Goes.trans {s t u : State} (h : Goes s t) (k : Goes t u) : Goes s u :=
  ⟨k.params.trans h.params, k.env.trans h.env, k.regs.trans h.regs, k.busy.trans h.busy, k.op.trans h.op,
    k.lSrc.trans h.lSrc, k.lLen.trans h.lLen, k.lDst.trans h.lDst, k.lCap.trans h.lCap, k.lRatio.trans h.lRatio,
    fun a ha => (k.outside a (by rw [h.inDst]; exact ha)).trans (h.outside a ha)⟩

theorem Goes.kept {s t : State} (h : Goes s t) : Kept s t where
  params := h.params
  agenda := by rw [h.env]
  pace := by rw [h.env]
  port := by rw [h.env]
  platform := by rw [h.env]
  hostData := by rw [h.env]
  shadow := by rw [h.env]
  regs := by rw [h.regs]
  op := h.op
  lSrc := h.lSrc
  lLen := h.lLen
  lDst := h.lDst
  lCap := h.lCap
  lRatio := h.lRatio
  touched := .inl (by rw [h.env])
  outside a ha _ := h.outside a ha

theorem goes_eng {s : State} {e : Engine} (hb : e.busy = s.eng.busy) (ho : e.op = s.eng.op) (h1 : e.lSrc = s.eng.lSrc)
    (h2 : e.lLen = s.eng.lLen) (h3 : e.lDst = s.eng.lDst) (h4 : e.lCap = s.eng.lCap) (h5 : e.lRatio = s.eng.lRatio) :
    Goes s { s with eng := e } := ⟨rfl, rfl, rfl, hb, ho, h1, h2, h3, h4, h5, fun _ _ => rfl⟩

theorem emit_goes (c : Nat) (s : State) : Goes s (emit c s) := by
  obtain ⟨h1, h2, h3, h4⟩ := emit_frame c s
  constructor <;> first | exact h1 | exact h2 | exact h3 | exact emit_outside c s | (rw [h4])

theorem flush_goes (s : State) : Goes s (flush s) := by
  obtain ⟨h1, h2, h3, h4⟩ := flush_frame s
  constructor <;> first | exact h1 | exact h2 | exact h3 | exact flush_outside s | (rw [h4])

theorem brAdvance_goes (s : State) : Goes s (brAdvance s) := goes_eng rfl rfl rfl rfl rfl rfl rfl

theorem encStep_goes (b : Byte) (s : State) : Goes s (encStep b s) := by
  unfold encStep
  split
  · exact goes_eng rfl rfl rfl rfl rfl rfl rfl
  · exact (emit_goes _ s).trans (goes_eng rfl rfl rfl rfl rfl rfl rfl)

/-- A completion, from a state the command's steps led to: RESULT `r`, and OUT_LEN set just before on OK only. -/
structure Ends (s : State) (r : Result) (u : State) : Prop where
  goes   : Goes s { u with regs := s.regs }
  regs   : u.regs = { s.regs with outLen := u.regs.outLen }
  result : r ≠ .none

theorem Goes.ends {s t : State} (h : Goes s t) (r : Result) (hr : r ≠ .none) : Ends s r t := by
  refine ⟨?_, by rw [h.regs], hr⟩
  rw [← h.regs]; exact h

theorem Goes.endsOk {s t : State} (h : Goes s t) (x : Word) :
    Ends s .ok { t with regs := { t.regs with outLen := x } } := by
  refine ⟨?_, by rw [h.regs], by decide⟩
  show Goes s { t with regs := s.regs }
  rw [← h.regs]; exact h

/-- The results that leave the destination window unspecified leave all of it so that the engine may write. -/
theorem State.written_open {r : Result} {s : State} (h : r.leavesWindowOpen = true) : s.written r = s.eng.target := by
  cases r <;> first | rfl | cases h

/-- What a completion hides from the host until it reads STATUS: what the command may have written (R71). -/
theorem finish_lagging (r : Result) (s : State) (a : Nat) :
    (finish r s).lagging a = (inWindows (s.written r) a || s.lagging a) := by
  simp [State.lagging, Bool.or_assoc]

/-- A command writes its destination window only, whatever its result, where its output fits the window (R66). -/
theorem State.written_outside {r : Result} {s : State} {a : Nat} (h : s.eng.inDst a = false)
    (hl : r = .ok → s.regs.outLen.toNat ≤ s.eng.lCap.toNat) : inWindows (s.written r) a = false := by
  unfold State.written
  split
  case isTrue hr =>
    have := hl hr
    simp only [Engine.inDst, inRange, inWindows_cons, inWindows_nil, Bool.or_false, Bool.and_eq_false_iff,
      decide_eq_false_iff_not] at h ⊢
    omega
  · split
    · rw [inWindows_target, h, Bool.false_and]
    · rfl

/-- What keeps a pass from waiting for ever: the platform answers, or the input is empty (R258, R182, R222). -/
def State.Answered (s : State) : Prop := s.env.port ≠ .pending ∨ s.eng.lLen = 0

theorem State.Answered.stalled {s : State} (h : s.Answered) : s.stalled = false := by
  rcases h with h | h <;> simp [State.stalled, Engine.accesses, h]

theorem Goes.answered {s t : State} (h : Goes s t) (ha : s.Answered) : t.Answered := by
  unfold State.Answered at *; rw [h.env, h.lLen]; exact ha

/-- A step of a pass: ERR_BUS, no change, or what it comes to when its accesses complete. -/
theorem State.onPort_cases (s t : State) : s.onPort t = finish .errBus s ∨ s.onPort t = s ∨ s.onPort t = t := by
  unfold State.onPort
  split
  · exact .inl rfl
  · split
    · exact .inr (.inl rfl)
    · exact .inr (.inr rfl)

theorem Ends.kept {s u : State} {r : Result} (h : Ends s r u) : Kept s (finish r u) := by
  have g := h.goes
  have henv : u.env = s.env := g.env
  constructor
  case params => exact g.params
  case agenda => rw [finish_env, releaseWindow_env_agenda, henv]
  case pace => rw [finish_env, releaseWindow_env_pace, henv]
  case port => rw [finish_env, releaseWindow_env_port, henv]
  case platform => rw [finish_env, releaseWindow_env_platform, henv]
  case hostData => rw [finish_env, releaseWindow_env_hostData, henv]
  case shadow => rw [finish_env, releaseWindow_env_shadow, henv]
  case regs => rw [finish_regs, h.regs]; rfl
  case op => exact g.op
  case lSrc => exact g.lSrc
  case lLen => exact g.lLen
  case lDst => exact g.lDst
  case lCap => exact g.lCap
  case lRatio => exact g.lRatio
  case touched => exact .inr rfl
  case outside =>
    intro a ha ht
    have hu : u.mem.read a = s.mem.read a := g.outside a ha
    have hd : u.eng.inDst a = false := (g.inDst a).trans ha
    have he : u.env.touched = s.env.touched := congrArg Env.touched g.env
    rw [finish_mem, releaseWindow_mem, Memory.read_openList, if_neg (fun h => ht (he ▸ h.1))]
    split
    case isTrue ho =>
      rw [Memory.read_openWindows, State.written_open ho, inWindows_target, hd, if_neg (fun h => by simp at h), hu]
    · exact hu

theorem compressResult_ends {s t : State} (h : Goes s t) : ∃ r u, compressResult t = finish r u ∧ Ends s r u := by
  unfold compressResult
  simp only
  split
  · exact ⟨_, _, rfl, h.ends _ (by decide)⟩
  · split
    · exact ⟨_, _, rfl, h.ends _ (by decide)⟩
    · exact ⟨_, _, rfl, h.endsOk _⟩

/-- What a step of a running command can do: go on, or end the command by a completion. -/
theorem engineStep_cases (s : State) (hb : s.eng.busy = true) :
    Goes s (engineStep s) ∨ ∃ r u, engineStep s = finish r u ∧ Ends s r u := by
  unfold engineStep
  rw [if_neg (by simp [hb])]
  split
  · unfold engineChecks
    split
    · exact .inl (goes_eng rfl rfl rfl rfl rfl rfl rfl)
    · exact .inr ⟨_, _, rfl, (Goes.refl s).ends _ (by decide)⟩
  · rcases s.onPort_cases (engineStart s) with h | h | h <;> rw [h]
    · exact .inr ⟨_, _, rfl, (Goes.refl s).ends _ (by decide)⟩
    · exact .inl (Goes.refl s)
    · unfold engineStart
      split
      · unfold compressStart
        simp only
        split
        · exact .inr (compressResult_ends (goes_eng rfl rfl rfl rfl rfl rfl rfl))
        · exact .inl (goes_eng rfl rfl rfl rfl rfl rfl rfl)
      · exact .inl (goes_eng rfl rfl rfl rfl rfl rfl rfl)
  · rcases s.onPort_cases (engineLoop s) with h | h | h <;> rw [h]
    · exact .inr ⟨_, _, rfl, (Goes.refl s).ends _ (by decide)⟩
    · exact .inl (Goes.refl s)
    · unfold engineLoop
      split
      · unfold compressLoop
        split
        · refine .inl (Goes.trans (t := { s with eng := { s.eng with k := s.eng.k + 1 } }) ?_ (encStep_goes _ _))
          exact goes_eng rfl rfl rfl rfl rfl rfl rfl
        · exact .inr (compressResult_ends ((emit_goes _ s).trans (flush_goes _)))
      · unfold uncompressLoop
        split
        · unfold uncompressEnd
          split
          · exact .inr ⟨_, _, rfl, (Goes.refl s).endsOk _⟩
          · exact .inr ⟨_, _, rfl, (Goes.refl s).ends _ (by decide)⟩
        · simp only
          split
          · exact .inr ⟨_, _, rfl, (brAdvance_goes s).ends _ (by decide)⟩
          · have hg : ∀ tb, Goes s { brAdvance s with eng := { (brAdvance s).eng with table := tb } } :=
              fun tb => (brAdvance_goes s).trans (goes_eng rfl rfl rfl rfl rfl rfl rfl)
            unfold uncompressAppend
            simp only
            split
            · exact .inr ⟨_, _, rfl, (hg _).ends _ (by decide)⟩
            · split
              · exact .inr ⟨_, _, rfl, (hg _).ends _ (by decide)⟩
              case isFalse hcap =>
                refine .inl ⟨rfl, rfl, rfl, rfl, rfl, rfl, rfl, rfl, rfl, rfl, fun a ha => ?_⟩
                refine Memory.read_writeSeq_outside _ _ _ _ ?_
                simp only [Engine.inDst, inRange, Bool.and_eq_false_iff, decide_eq_false_iff_not] at ha
                simp only [brAdvance_eng_olen, brAdvance_eng_lCap, brAdvance_eng_lDst] at hcap ⊢
                omega

theorem engineStep_idle (s : State) (h : s.eng.busy = false) : engineStep s = s := by simp [engineStep, h]

theorem engineStep_kept (s : State) : Kept s (engineStep s) := by
  cases hb : s.eng.busy with
  | false => rw [engineStep_idle s hb]; exact Kept.refl s
  | true =>
    rcases engineStep_cases s hb with h | ⟨r, u, h, he⟩
    · exact h.kept
    · rw [h]; exact he.kept

/-! ## The host's writes (R71) -/

/-- The host's view lags nowhere where it wrote. -/
theorem hostMemWrite_lagging (a : Nat) (v : Byte) (s : State) (b : Nat) :
    (hostMemWrite a v s).lagging b = (s.lagging b && decide (b ≠ a)) := by
  simp only [State.lagging, hostMemWrite_env_unseen, hostMemWrite_env_stale, inWindows_without, Bool.and_or_distrib_right]

/-! ## Reset (R322) -/

theorem resetCore_idle {s : State} (h : s.eng.busy = false) :
    resetCore s = { s with regs := Regs.reset, eng := Engine.reset } := by simp [resetCore, h]

theorem resetCore_busy {s : State} (h : s.eng.busy = true) :
    resetCore s = { s.releaseWindow true s.eng.target with regs := Regs.reset, eng := Engine.reset } := by
  simp [resetCore, h]

@[simp] theorem resetCore_regs (s : State) : (resetCore s).regs = Regs.reset := rfl
@[simp] theorem resetCore_eng (s : State) : (resetCore s).eng = Engine.reset := rfl

/-- What a reset event leaves of the surroundings. -/
theorem resetCore_kept (s : State) : (resetCore s).params = s.params ∧ (resetCore s).env.agenda = s.env.agenda ∧
    (resetCore s).env.pace = s.env.pace ∧ (resetCore s).env.platform = s.env.platform := by
  cases h : s.eng.busy with
  | false => rw [resetCore_idle h]; exact ⟨rfl, rfl, rfl, rfl⟩
  | true => rw [resetCore_busy h]; exact ⟨rfl, rfl, rfl, rfl⟩

/-- Every byte of memory after a reset event: unspecified where the running command's destination window and not its source
window lies and where the host wrote into the window, else unchanged. -/
theorem read_resetCore (s : State) (a : Nat) : (resetCore s).mem.read a =
    if s.eng.busy = true ∧ (a ∈ s.env.touched ∨ s.eng.inDst a = true ∧ s.eng.inSrc a = false) ∧ a < 2 ^ 32
    then Config.freeByte s.env.draws a else s.mem.read a := by
  cases h : s.eng.busy with
  | false => rw [resetCore_idle h, if_neg (fun h => by simp at h)]
  | true =>
    rw [resetCore_busy h, releaseWindow_mem, Memory.read_openList, if_pos rfl, Memory.read_openWindows, inWindows_target]
    generalize 2 ^ 32 = top
    by_cases h1 : a ∈ s.env.touched <;> by_cases h2 : a < top <;> simp [h1, h2]

/-! ## Runs -/

theorem engineRun_kept (n : Nat) (s : State) : Kept s (engineRun n s) := by
  induction n generalizing s with
  | zero => exact Kept.refl s
  | succ n ih => exact (engineStep_kept s).trans (ih _)

theorem engineRun_idle (n : Nat) (s : State) (h : s.eng.busy = false) : engineRun n s = s := by
  induction n with
  | zero => rfl
  | succ n ih => rw [engineRun, engineStep_idle s h, ih]

theorem engineRun_add (m n : Nat) (s : State) : engineRun (m + n) s = engineRun n (engineRun m s) := by
  induction m generalizing s with
  | zero => rw [Nat.zero_add]; rfl
  | succ m ih => rw [show m + 1 + n = m + n + 1 by omega, engineRun, ih]; rfl

theorem settle_idle (s : State) (h : s.eng.busy = false) : settle s = .next s := by rw [settle, engineRun_idle _ _ h]

/-- Once a run is over, more steps change nothing. -/
theorem engineRun_of_le {m n : Nat} (h : m ≤ n) (s : State) (hi : (engineRun m s).eng.busy = false) :
    engineRun n s = engineRun m s := by
  obtain ⟨k, rfl⟩ := Nat.exists_eq_add_of_le h
  rw [engineRun_add, engineRun_idle _ _ hi]

/-- After any number of steps a command still runs, with the registers it had, or it has completed: DONE is set, RESULT is
not NONE, and OUT_LEN is 0 unless RESULT is OK (R256). -/
theorem engineRun_cases (n : Nat) (s : State) (hb : s.eng.busy = true) :
    (engineRun n s).regs = s.regs ∧ (engineRun n s).eng.busy = true ∨
      (engineRun n s).eng.busy = false ∧ (engineRun n s).regs.done = true ∧ (engineRun n s).regs.result ≠ .none ∧
        ((engineRun n s).regs.result ≠ .ok → (engineRun n s).regs.outLen = 0) := by
  induction n generalizing s with
  | zero => exact .inl ⟨rfl, hb⟩
  | succ n ih =>
    rw [engineRun]
    rcases engineStep_cases s hb with h | ⟨r, u, h, he⟩
    · rcases ih _ (h.busy.trans hb) with h1 | h1
      · exact .inl ⟨h1.1.trans h.regs, h1.2⟩
      · exact .inr h1
    · right
      rw [h, engineRun_idle _ _ rfl]
      refine ⟨rfl, rfl, he.result, fun hh => ?_⟩
      simp only [finish_regs, Regs.complete] at hh ⊢
      rw [if_neg hh]

end Sys2Proof.Machine
end

