-- ==== Sys2Proof/Laws/Writer.lean ====
section
/-! SUPPORT. The writer's output law (spec/41_bitstream.md R155): what EMIT and BW_FLUSH leave in the accumulator and in the destination window, in terms of the bits written so far. -/

namespace Sys2Proof.Machine

/-- Byte `k` of a bit sequence in the layout of R150, missing bits 0. -/
def byteAt (bits : List Bool) (k : Nat) : Byte :=
  BitVec.ofNat 8 (bitsValue ((List.range 8).map fun j => bits.getD (8 * k + j) false))

theorem testBit_bitsValue (bits : List Bool) (j : Nat) (h : j < bits.length) :
    (bitsValue bits).testBit (bits.length - 1 - j) = bits.getD j false := by
  induction bits generalizing j with
  | nil => simp at h
  | cons b r ih =>
    rw [show b :: r = [b] ++ r from rfl, bitsValue_append]
    have hr := bitsValue_lt r
    cases j with
    | zero =>
      have : bitsValue [b] = b.toNat := by cases b <;> rfl
      simp only [List.length_append, List.length_singleton, Nat.sub_zero, this]
      rw [show 1 + r.length - 1 = r.length by omega, Nat.mul_comm, Nat.testBit_two_pow_mul_add _ hr, if_neg (by omega)]
      cases b <;> simp
    | succ j =>
      simp only [List.length_cons] at h
      simp only [List.length_append, List.length_singleton]
      rw [show 1 + r.length - 1 - (j + 1) = r.length - 1 - j by omega, Nat.mul_comm, Nat.testBit_two_pow_mul_add _ hr,
        if_pos (by omega), ih j (by omega)]
      simp

/-- Bit 7 - j of byte k is stream bit 8k + j. -/
theorem getLsbD_byteAt (bits : List Bool) (k j : Nat) (h : j < 8) :
    (byteAt bits k).getLsbD (7 - j) = bits.getD (8 * k + j) false := by
  unfold byteAt BitVec.getLsbD
  have hlt := bitsValue_lt ((List.range 8).map fun j => bits.getD (8 * k + j) false)
  have ht := testBit_bitsValue ((List.range 8).map fun j => bits.getD (8 * k + j) false) j (by simpa using h)
  simp only [List.length_map, List.length_range] at hlt ht
  rw [BitVec.toNat_ofNat, Nat.mod_eq_of_lt hlt, ht]
  simp [List.getD_eq_getElem?_getD, h]

theorem byteAt_append (bits more : List Bool) (k : Nat) (h : 8 * k + 8 ≤ bits.length) :
    byteAt (bits ++ more) k = byteAt bits k := by
  unfold byteAt
  congr 2
  refine List.map_congr_left fun j hj => ?_
  have := List.mem_range.mp hj
  simp [List.getD_eq_getElem?_getD, List.getElem?_append_left (show 8 * k + j < bits.length by omega)]

/-- The bits from 8k on, cut or filled with zeros to eight, are the bits of byte k. -/
theorem byteAt_eq (bits : List Bool) (k : Nat) :
    byteAt bits k = BitVec.ofNat 8 (bitsValue ((bits.drop (8 * k) ++ List.replicate 8 false).take 8)) := by
  unfold byteAt
  congr 2
  refine eq_of_getD_eq _ _ (by simp) fun j hj => ?_
  simp only [List.length_map, List.length_range] at hj
  simp only [List.getD_eq_getElem?_getD, List.getElem?_map, List.getElem?_range hj, Option.map_some, Option.getD_some,
    List.getElem?_take_of_lt hj]
  by_cases hl : 8 * k + j < bits.length
  · rw [List.getElem?_append_left (by simp; omega), List.getElem?_drop]
  · rw [List.getElem?_eq_none (by omega), List.getElem?_append_right (by simp; omega)]
    simp only [List.length_drop, List.getElem?_replicate]
    split <;> rfl

/-- The bit writer after the bits `bits`, of which some may still be pending (R151 to R154): full bytes are counted, and
written where the window had room; the rest is in the accumulator; all other bytes are those of `m`. -/
structure Wrote (m : Memory) (bits : List Bool) (s : State) : Prop where
  count : 8 * s.eng.olen + s.eng.nacc = bits.length
  acc   : s.eng.acc = bitsValue (bits.drop (8 * s.eng.olen))
  mem   : ∀ a, s.mem.read a =
    if inRange s.eng.lDst.toNat (min s.eng.olen s.eng.lCap.toNat) a = true then byteAt bits (a - s.eng.lDst.toNat)
    else m.read a

theorem Wrote.start (m : Memory) (s : State) (h0 : s.eng.olen = 0) (h1 : s.eng.nacc = 0) (h2 : s.eng.acc = 0)
    (hm : s.mem = m) : Wrote m [] s := by
  refine ⟨by simp [h0, h1], by simp [h2], fun a => ?_⟩
  rw [h0, hm, if_neg]
  simp [inRange]

/-- OUT_BYTE of byte `olen` of the bits. -/
theorem read_outByte (m : Memory) (bits : List Bool) (s : State) (v : Byte)
    (hroom : s.eng.lDst.toNat + s.eng.lCap.toNat ≤ 2 ^ 32) (hv : v = byteAt bits s.eng.olen)
    (hm : ∀ a, s.mem.read a =
      if inRange s.eng.lDst.toNat (min s.eng.olen s.eng.lCap.toNat) a = true then byteAt bits (a - s.eng.lDst.toNat)
      else m.read a) (a : Nat) :
    (outByte v s).mem.read a =
      if inRange s.eng.lDst.toNat (min (s.eng.olen + 1) s.eng.lCap.toNat) a = true then byteAt bits (a - s.eng.lDst.toNat)
      else m.read a := by
  rw [outByte_mem]
  simp only [inRange, Bool.and_eq_true, decide_eq_true_eq] at hm ⊢
  split
  case isTrue h =>
    rw [Memory.read_write, hm]
    by_cases ha : a = s.eng.lDst.toNat + s.eng.olen
    · rw [if_pos ⟨ha, by omega⟩, if_pos (by omega), hv, ha]
      congr 1; omega
    · rw [if_neg (by omega)]
      by_cases hc : s.eng.lDst.toNat ≤ a ∧ a < s.eng.lDst.toNat + min s.eng.olen s.eng.lCap.toNat
      · rw [if_pos hc, if_pos (by omega)]
      · rw [if_neg hc, if_neg (by omega)]
  case isFalse h =>
    rw [hm, Nat.min_eq_right (by omega), Nat.min_eq_right (by omega)]

/-- One pass of EMIT's loop keeps the writer's law. -/
theorem Wrote.drainByte {m : Memory} {bits : List Bool} {s : State} (h : Wrote m bits s) (hn : 8 ≤ s.eng.nacc)
    (hroom : s.eng.lDst.toNat + s.eng.lCap.toNat ≤ 2 ^ 32) : Wrote m bits (drainByte s) := by
  have hcount := h.count
  have hsplit : bits.drop (8 * s.eng.olen) =
      (bits.drop (8 * s.eng.olen)).take 8 ++ bits.drop (8 * (s.eng.olen + 1)) := by
    rw [show 8 * (s.eng.olen + 1) = 8 * s.eng.olen + 8 by ring, ← List.drop_drop, List.take_append_drop]
  have hlen : (bits.drop (8 * (s.eng.olen + 1))).length = s.eng.nacc - 8 := by simp; omega
  have hacc : s.eng.acc = bitsValue ((bits.drop (8 * s.eng.olen)).take 8) * 2 ^ (s.eng.nacc - 8) +
      bitsValue (bits.drop (8 * (s.eng.olen + 1))) := by
    rw [h.acc, hsplit, bitsValue_append, hlen, ← hsplit]
  have hlow := bitsValue_lt (bits.drop (8 * (s.eng.olen + 1)))
  rw [hlen] at hlow
  have hhigh := bitsValue_lt ((bits.drop (8 * s.eng.olen)).take 8)
  rw [List.length_take, List.length_drop, Nat.min_eq_left (by omega)] at hhigh
  have hbyte : BitVec.ofNat 8 ((s.eng.acc >>> (s.eng.nacc - 8)) &&& 0xFF) = byteAt bits s.eng.olen := by
    rw [byteAt_eq, List.take_append_of_le_length (by simp; omega), hacc]
    rw [Nat.shiftRight_eq_div_pow, Nat.mul_comm, Nat.mul_add_div (Nat.two_pow_pos _), Nat.div_eq_of_lt hlow,
      Nat.add_zero, show (0xFF : Nat) = 2 ^ 8 - 1 from rfl, Nat.and_two_pow_sub_one_eq_mod, Nat.mod_eq_of_lt hhigh]
  refine ⟨?_, ?_, ?_⟩
  · simp only [drainByte_eng_olen, drainByte_eng_nacc]; omega
  · simp only [drainByte_eng_olen, drainByte_eng_acc]
    rw [Nat.and_two_pow_sub_one_eq_mod, hacc, Nat.mul_comm, Nat.mul_add_mod, Nat.mod_eq_of_lt hlow]
  · exact read_outByte m bits s _ hroom hbyte h.mem

theorem Wrote.drain {m : Memory} {bits : List Bool} {s : State} (n : Nat) (h : Wrote m bits s) (hn : 8 * n ≤ s.eng.nacc)
    (hroom : s.eng.lDst.toNat + s.eng.lCap.toNat ≤ 2 ^ 32) :
    Wrote m bits (Machine.drain n s) ∧ (Machine.drain n s).eng.nacc = s.eng.nacc - 8 * n := by
  induction n generalizing s with
  | zero => exact ⟨h, rfl⟩
  | succ n ih =>
    obtain ⟨h1, h2⟩ := ih (h.drainByte (by omega) hroom) (by simp only [drainByte_eng_nacc]; omega) hroom
    refine ⟨h1, ?_⟩
    rw [Machine.drain, h2, drainByte_eng_nacc]; omega

/-- EMIT appends the code's bits (R152), and leaves fewer than eight pending. -/
theorem Wrote.emit {m : Memory} {bits : List Bool} {s : State} (c : Nat) (h : Wrote m bits s)
    (hc : c < 2 ^ codeWidth s.params s.eng.i) (hroom : s.eng.lDst.toNat + s.eng.lCap.toNat ≤ 2 ^ 32) :
    Wrote m (bits ++ codeBits (codeWidth s.params s.eng.i) c) (Machine.emit c s) ∧ (Machine.emit c s).eng.nacc ≤ 7 := by
  have hcount := h.count
  have hpend : Wrote m (bits ++ codeBits (codeWidth s.params s.eng.i) c)
      { s with eng := { s.eng with acc := (s.eng.acc <<< codeWidth s.params s.eng.i) ||| c,
                                   nacc := s.eng.nacc + codeWidth s.params s.eng.i } } := by
    refine ⟨?_, ?_, fun a => ?_⟩
    · simp only [List.length_append, length_codeBits]; omega
    · simp only
      rw [List.drop_append_of_le_length (by omega), bitsValue_append, bitsValue_codeBits _ _ hc, ← h.acc,
        length_codeBits, ← Nat.shiftLeft_add_eq_or_of_lt hc, Nat.shiftLeft_eq]
    · rw [h.mem a]
      simp only
      split
      case isTrue hr =>
        simp only [inRange, Bool.and_eq_true, decide_eq_true_eq] at hr
        rw [byteAt_append _ _ _ (by omega)]
      · rfl
  obtain ⟨h1, h2⟩ := hpend.drain ((s.eng.nacc + codeWidth s.params s.eng.i) / 8) (Nat.mul_div_le _ _) hroom
  refine ⟨⟨h1.count, h1.acc, h1.mem⟩, ?_⟩
  show (Machine.drain _ _).eng.nacc ≤ 7
  rw [h2]; simp only; omega

/-- BW_FLUSH puts out the last byte (R153): then the counted bytes are those of the bits with zeros after them (R155). -/
theorem Wrote.flush {m : Memory} {bits : List Bool} {s : State} (h : Wrote m bits s) (hn : s.eng.nacc ≤ 7)
    (hroom : s.eng.lDst.toNat + s.eng.lCap.toNat ≤ 2 ^ 32) :
    (Machine.flush s).eng.olen = (bits.length + 7) / 8 ∧
      ∀ a, (Machine.flush s).mem.read a =
        if inRange s.eng.lDst.toNat (min ((bits.length + 7) / 8) s.eng.lCap.toNat) a = true
        then byteAt bits (a - s.eng.lDst.toNat) else m.read a := by
  have hcount := h.count
  unfold Machine.flush
  split
  case isTrue hp =>
    have hol : s.eng.olen + 1 = (bits.length + 7) / 8 := by omega
    have hbyte : BitVec.ofNat 8 ((s.eng.acc <<< (8 - s.eng.nacc)) &&& 0xFF) = byteAt bits s.eng.olen := by
      have hdl : (bits.drop (8 * s.eng.olen)).length = s.eng.nacc := by simp; omega
      have hlt := bitsValue_lt (bits.drop (8 * s.eng.olen) ++ List.replicate (8 - s.eng.nacc) false)
      rw [byteAt_eq, List.take_append, hdl, List.take_of_length_le (by omega), List.take_replicate,
        Nat.min_eq_left (by omega), h.acc, show (0xFF : Nat) = 2 ^ 8 - 1 from rfl, Nat.and_two_pow_sub_one_eq_mod,
        bitsValue_append]
      have hz : ∀ n, bitsValue (List.replicate n false) = 0 := by
        intro n
        induction n with
        | zero => rfl
        | succ n ih =>
          rw [List.replicate_succ, show false :: List.replicate n false = [false] ++ List.replicate n false from rfl,
            bitsValue_append, ih]
          simp [bitsValue]
      rw [bitsValue_append, hz, List.length_append, hdl, List.length_replicate, Nat.add_zero,
        show s.eng.nacc + (8 - s.eng.nacc) = 8 by omega] at hlt
      rw [hz, List.length_replicate, Nat.add_zero, Nat.shiftLeft_eq, Nat.mod_eq_of_lt hlt]
    refine ⟨hol, fun a => ?_⟩
    rw [← hol]
    exact read_outByte m bits s _ hroom hbyte h.mem a
  case isFalse hp =>
    have hol : s.eng.olen = (bits.length + 7) / 8 := by omega
    exact ⟨hol, fun a => by rw [← hol]; exact h.mem a⟩

end Sys2Proof.Machine
end

