-- ==== Sys2Proof/Laws/CompressRun.lean ====
section
/-! SUPPORT. The encode pass as a run of engine steps (spec/42_compress.md R181): from any point of it, the remaining steps emit the remaining codes of the pure function. -/

namespace Sys2Proof.Machine

theorem Goes.busError {s t : State} (h : Goes s t) : t.busError = s.busError := by
  unfold State.busError Engine.rejected
  rw [h.env, h.lSrc, h.lLen, h.lDst, h.lCap]

/-- An engine read returns memory's byte where the host's writes are visible. -/
theorem engineRead_visible (s : State) (h : s.env.racing ++ s.env.shadow = []) (a : Nat) : s.engineRead a = s.mem.read a := by
  simp [State.engineRead, olderValues, h]

/-- A step of a pass, where the platform answers and reports no error. -/
theorem engineStep_loop (s : State) (hb : s.eng.busy = true) (hs : s.eng.stage = .loop) (he : s.busError = false)
    (ha : s.Answered) : engineStep s = engineLoop s := by simp [engineStep, State.onPort, hb, hs, he, ha.stalled]

theorem engineStep_start (s : State) (hb : s.eng.busy = true) (hs : s.eng.stage = .start) (he : s.busError = false)
    (ha : s.Answered) : engineStep s = engineStart s := by simp [engineStep, State.onPort, hb, hs, he, ha.stalled]

theorem engineStep_checks (s : State) (hb : s.eng.busy = true) (hs : s.eng.stage = .checks) (hc : s.eng.configOk = true) :
    engineStep s = { s with eng := { s.eng with stage := .start } } := by simp [engineStep, engineChecks, hb, hs, hc]

/-- The operand checks in terms of ranges (R63). -/
theorem configOk_windows {e : Engine} (h : e.configOk = true) :
    e.lSrc.toNat + e.lLen.toNat ≤ 2 ^ 32 ∧ e.lDst.toNat + e.lCap.toNat ≤ 2 ^ 32 ∧
      ∀ a, e.inSrc a = true → e.inDst a = false := by
  unfold Engine.configOk operandsLegal at h
  have h := (Bool.and_eq_true _ _ ▸ h).1
  unfold windowsLegal rangesMeet at h
  simp only [Bool.and_eq_true, Bool.not_eq_true', Bool.and_eq_false_iff, decide_eq_true_eq,
    decide_eq_false_iff_not] at h
  refine ⟨h.1.1, h.1.2, fun a ha => ?_⟩
  simp only [Engine.inSrc, Engine.inDst, inRange, Bool.and_eq_true, decide_eq_true_eq, Bool.and_eq_false_iff,
    decide_eq_false_iff_not] at ha ⊢
  omega

/-- The encoder in the loop of R181, having emitted the codes `pre` of the input `inp` on memory `m`. -/
structure Encoding (m : Memory) (inp : List Byte) (pre : List Nat) (s : State) : Prop where
  busy    : s.eng.busy = true
  op      : s.eng.op = .compress
  stage   : s.eng.stage = .loop
  config  : s.eng.configOk = true
  answers : s.Answered
  noError : s.busError = false
  visible : s.env.racing ++ s.env.shadow = []
  len     : inp.length = s.eng.lLen.toNat
  source  : ∀ j, j < inp.length → m.read (s.eng.lSrc.toNat + j) = inp.getD j 0
  kMax    : s.eng.k ≤ inp.length
  table   : tableOk s.eng.table = true
  S       : s.eng.S < freeOf s.eng.table
  i       : s.eng.i = pre.length
  free    : freeOf s.eng.table = min (256 + s.eng.i) s.params.dictSize
  wrote   : Wrote m (streamBits s.params 0 pre) s
  nacc    : s.eng.nacc ≤ 7

theorem Encoding.read {m : Memory} {inp : List Byte} {pre : List Nat} {s : State} (h : Encoding m inp pre s) (j : Nat)
    (hj : j < inp.length) : s.engineRead (s.eng.lSrc.toNat + j) = inp.getD j 0 := by
  obtain ⟨-, -, hdis⟩ := configOk_windows h.config
  rw [engineRead_visible _ h.visible, ← h.source j hj, h.wrote.mem, if_neg]
  have hlen := h.len
  have := hdis (s.eng.lSrc.toNat + j) (by simp [Engine.inSrc, inRange]; omega)
  simp only [Engine.inDst, inRange, Bool.and_eq_false_iff, decide_eq_false_iff_not, Bool.and_eq_true,
    decide_eq_true_eq] at this ⊢
  omega

/-- Only `kMax` speaks of the input index. -/
theorem Encoding.next {m : Memory} {inp : List Byte} {pre : List Nat} {s : State} (h : Encoding m inp pre s)
    (hk : s.eng.k < inp.length) : Encoding m inp pre { s with eng := { s.eng with k := s.eng.k + 1 } } :=
  { h with kMax := hk, wrote := ⟨h.wrote.count, h.wrote.acc, h.wrote.mem⟩ }

theorem Goes.configOk {s t : State} (h : Goes s t) : t.eng.configOk = s.eng.configOk := by
  unfold Engine.configOk; rw [h.op, h.lSrc, h.lLen, h.lDst, h.lCap, h.lRatio]

/-- ENC_STEP emits what the pure function emits on the symbol. -/
theorem Encoding.encStep {m : Memory} {inp : List Byte} {pre : List Nat} {s : State} (h : Encoding m inp pre s)
    (b : Byte) (rest : List Byte) :
    ∃ more, Encoding m inp (pre ++ more) (Machine.encStep b s) ∧ (Machine.encStep b s).eng.k = s.eng.k ∧
      (lzwTrace s.params s.eng.table s.eng.S (b :: rest)).map Prod.fst = more ++
        (lzwTrace s.params (Machine.encStep b s).eng.table (Machine.encStep b s).eng.S rest).map Prod.fst := by
  have hroom := (configOk_windows h.config).2.1
  unfold Machine.encStep
  simp only [lzwTrace]
  cases hf : dictFind s.eng.table s.eng.S b with
  | some c =>
    obtain ⟨-, h2, -, -⟩ := dictFind_spec h.table hf
    refine ⟨[], ?_, rfl, rfl⟩
    rw [List.append_nil]
    exact { h with S := h2, wrote := ⟨h.wrote.count, h.wrote.acc, h.wrote.mem⟩ }
  | none =>
    simp only
    have g := emit_goes s.eng.S s
    obtain ⟨-, -, -, f⟩ := emit_frame s.eng.S s
    have hfit : s.eng.S < 2 ^ codeWidth s.params s.eng.i :=
      lt_two_pow_codeWidth _ _ _ (by have := h.S; have := h.free; omega)
    obtain ⟨w1, w2⟩ := h.wrote.emit s.eng.S hfit hroom
    have htab : (emit s.eng.S s).eng.table = s.eng.table := by rw [f]
    have hi : (emit s.eng.S s).eng.i = s.eng.i + 1 := by rw [f]
    have hk : (emit s.eng.S s).eng.k = s.eng.k := by rw [f]
    have hst : (emit s.eng.S s).eng.stage = s.eng.stage := by rw [f]
    have hbits : streamBits s.params 0 (pre ++ [s.eng.S]) =
        streamBits s.params 0 pre ++ codeBits (codeWidth s.params s.eng.i) s.eng.S := by
      rw [streamBits_append, h.i]; simp [streamBits]
    refine ⟨[s.eng.S], ?_, hk, by simp only [htab, List.map_cons, List.singleton_append]⟩
    refine
      { busy := g.busy.trans h.busy, op := g.op.trans h.op, stage := hst.trans h.stage, config := g.configOk.trans h.config
        answers := g.answered h.answers, noError := g.busError.trans h.noError, visible := by rw [g.env]; exact h.visible
        len := h.len.trans (congrArg BitVec.toNat g.lLen.symm), source := ?_, kMax := Nat.le_trans (Nat.le_of_eq hk) h.kMax
        table := ?_, S := ?_, i := ?_, free := ?_, wrote := ⟨?_, ?_, ?_⟩, nacc := w2 }
    · simp only [g.lSrc]; exact h.source
    · simp only [htab]; exact tableOk_dictInsert _ _ _ _ h.table h.S
    · exact Nat.lt_of_lt_of_le b.isLt (le_freeOf _)
    · simp only [hi, h.i, List.length_append, List.length_singleton]
    · simp only [htab, hi, g.params, freeOf_dictInsert]
      have := h.free
      split <;> omega
    · simp only [g.params, hbits]; exact w1.count
    · simp only [g.params, hbits]; exact w1.acc
    · simp only [g.params, hbits]; exact w1.mem

/-- One pass of the loop over the next symbol. -/
theorem Encoding.step {m : Memory} {inp : List Byte} {pre : List Nat} {s : State} (h : Encoding m inp pre s)
    (hk : s.eng.k < inp.length) :
    ∃ more, Encoding m inp (pre ++ more) (engineStep s) ∧ (engineStep s).eng.k = s.eng.k + 1 ∧ Goes s (engineStep s) ∧
      (lzwTrace s.params s.eng.table s.eng.S (inp.drop s.eng.k)).map Prod.fst = more ++
        (lzwTrace s.params (engineStep s).eng.table (engineStep s).eng.S (inp.drop (s.eng.k + 1))).map Prod.fst := by
  have hdrop : inp.drop s.eng.k = inp.getD s.eng.k 0 :: inp.drop (s.eng.k + 1) := by
    rw [List.drop_eq_getElem_cons hk]; simp [List.getD_eq_getElem?_getD, hk]
  have hstep : engineStep s =
      Machine.encStep (inp.getD s.eng.k 0) { s with eng := { s.eng with k := s.eng.k + 1 } } := by
    rw [engineStep_loop s h.busy h.stage h.noError h.answers, engineLoop, h.op]
    simp only
    rw [compressLoop, if_pos (by rw [← h.len]; exact hk), h.read s.eng.k hk]
  obtain ⟨more, h1, h2, h3⟩ := (h.next hk).encStep (inp.getD s.eng.k 0) (inp.drop (s.eng.k + 1))
  rw [hstep, hdrop]
  refine ⟨more, h1, h2, ?_, h3⟩
  exact Goes.trans (t := { s with eng := { s.eng with k := s.eng.k + 1 } })
    (goes_eng rfl rfl rfl rfl rfl rfl rfl) (encStep_goes _ _)

/-- The rest of the pass, from any point of the loop: it ends in COMPRESS_RESULT, with the stream of all codes written. -/
theorem Encoding.run {m : Memory} {inp : List Byte} {pre : List Nat} {s : State} (h : Encoding m inp pre s) :
    ∃ u, engineRun (inp.length - s.eng.k + 1) s = compressResult u ∧ Goes s u ∧
      let bits := streamBits s.params 0
        (pre ++ (lzwTrace s.params s.eng.table s.eng.S (inp.drop s.eng.k)).map Prod.fst)
      u.eng.olen = (bits.length + 7) / 8 ∧
        ∀ a, u.mem.read a =
          if inRange s.eng.lDst.toNat (min ((bits.length + 7) / 8) s.eng.lCap.toNat) a = true
          then byteAt bits (a - s.eng.lDst.toNat) else m.read a := by
  induction hn : inp.length - s.eng.k generalizing s pre with
  | zero =>
    have hroom := (configOk_windows h.config).2.1
    have hfit : s.eng.S < 2 ^ codeWidth s.params s.eng.i :=
      lt_two_pow_codeWidth _ _ _ (by have := h.S; have := h.free; omega)
    obtain ⟨w1, w2⟩ := h.wrote.emit s.eng.S hfit hroom
    have hg := emit_goes s.eng.S s
    obtain ⟨e1, e2⟩ := w1.flush w2 (by rw [hg.lDst, hg.lCap]; exact hroom)
    rw [hg.lDst, hg.lCap] at e2
    refine ⟨flush (emit s.eng.S s), ?_, hg.trans (flush_goes _), ?_⟩
    · rw [Nat.zero_add, engineRun, engineRun, engineStep_loop s h.busy h.stage h.noError h.answers, engineLoop, h.op]
      simp only
      rw [compressLoop, if_neg (by rw [← h.len]; omega)]
    · have hd : inp.drop s.eng.k = [] := List.drop_eq_nil_of_le (by omega)
      simp only [hd, lzwTrace, List.map_cons, List.map_nil, streamBits_append, streamBits, List.append_nil,
        Nat.zero_add, ← h.i]
      exact ⟨e1, e2⟩
  | succ n ih =>
    obtain ⟨more, h1, h2, h3, h4⟩ := h.step (by omega)
    obtain ⟨u, h5, h6, h7⟩ := ih h1 (by omega)
    refine ⟨u, h5, h3.trans h6, ?_⟩
    rw [h2, h3.params, h3.lDst, h3.lCap] at h7
    rw [h4, ← List.append_assoc]
    exact h7

end Sys2Proof.Machine
end

