-- ==== Sys2Proof/Laws/UncompressRun.lean ====
section
/-! SUPPORT. The decode pass as a run of engine steps (spec/43_uncompress.md R213): from any point of it, the remaining steps end the command as the pure decoding does. -/

namespace Sys2Proof.Machine

/-- The decoder in the loop of R213, having produced the bytes `out` from the input `inp` on memory `m`. -/
structure Decoding (m : Memory) (inp out : List Byte) (s : State) : Prop where
  busy    : s.eng.busy = true
  op      : s.eng.op = .uncompress
  stage   : s.eng.stage = .loop
  config  : s.eng.configOk = true
  answers : s.Answered
  noError : s.busError = false
  visible : s.env.racing ++ s.env.shadow = []
  len     : inp.length = s.eng.lLen.toNat
  source  : ∀ j, j < inp.length → m.read (s.eng.lSrc.toNat + j) = inp.getD j 0
  olen    : s.eng.olen = out.length
  room    : out.length ≤ s.eng.lCap.toNat
  mem     : ∀ a, s.mem.read a =
    if inRange s.eng.lDst.toNat out.length a = true then out.getD (a - s.eng.lDst.toNat) 0 else m.read a

/-- The tests the running command makes on an output's length (R216). -/
def State.guard (s : State) : Nat → Option Result :=
  uncompressGuard s.params s.eng.lLen.toNat s.eng.lRatio.toNat s.eng.lCap.toNat

theorem Goes.guard {s t : State} (h : Goes s t) : t.guard = s.guard := by
  unfold State.guard; rw [h.params, h.lLen, h.lRatio, h.lCap]

theorem Decoding.read {m : Memory} {inp out : List Byte} {s : State} (h : Decoding m inp out s) (j : Nat)
    (hj : j < inp.length) : s.engineRead (s.eng.lSrc.toNat + j) = inp.getD j 0 := by
  obtain ⟨-, -, hdis⟩ := configOk_windows h.config
  rw [engineRead_visible _ h.visible, ← h.source j hj, h.mem, if_neg]
  have hlen := h.len
  have hroom := h.room
  have := hdis (s.eng.lSrc.toNat + j) (by simp [Engine.inSrc, inRange]; omega)
  simp only [Engine.inDst, inRange, Bool.and_eq_false_iff, decide_eq_false_iff_not, Bool.and_eq_true,
    decide_eq_true_eq] at this ⊢
  omega

/-- BR_GET returns the number that the next w(i) bits write. -/
theorem Decoding.code {m : Memory} {inp out : List Byte} {s : State} (h : Decoding m inp out s)
    (hw : codeWidth s.params s.eng.i ≤ brAvail s.eng) :
    brCode s = bitsValue (((bytesBits inp).drop s.eng.bitpos).take (codeWidth s.params s.eng.i)) := by
  have hlen := h.len
  unfold brAvail at hw
  unfold brCode
  rw [readBits_eq _ ((bytesBits inp).drop s.eng.bitpos), Nat.zero_mul, Nat.zero_add]
  intro j hj
  rw [List.getElem?_drop, getElem?_bytesBits _ _ (by omega), h.read _ (by omega)]

/-- UncompressAppend is the guard, then the append. -/
theorem uncompressAppend_eq (c : Nat) (cur : List Byte) (s : State) :
    uncompressAppend c cur s =
      match s.guard (s.eng.olen + cur.length) with
      | some r => finish r s
      | none   => { s with
          mem := s.mem.writeSeq (s.eng.lDst.toNat + s.eng.olen) cur
          eng := { s.eng with olen := s.eng.olen + cur.length, prev := c } } := by
  unfold uncompressAppend State.guard uncompressGuard
  simp only
  split
  · rfl
  · split <;> rfl

/-- A guard's failure is one of two results; a length that passes fits the window. -/
theorem uncompressGuard_cases (p : Params) (n ratio cap x : Nat) :
    (uncompressGuard p n ratio cap x = none ∧ x ≤ cap ∧ (n ≠ 1 → x * 2 ^ p.frac ≤ n * ratio)) ∨
      (uncompressGuard p n ratio cap x = some .errRatio ∧ n ≠ 1 ∧ n * ratio < x * 2 ^ p.frac) ∨
      (uncompressGuard p n ratio cap x = some .errDstOverflow ∧ cap < x ∧ (n ≠ 1 → x * 2 ^ p.frac ≤ n * ratio)) := by
  unfold uncompressGuard withinRatio
  simp only [decide_eq_false_iff_not, Nat.not_le]
  split
  · exact .inr (.inl ⟨rfl, by omega⟩)
  · split
    · exact .inr (.inr ⟨rfl, by omega⟩)
    · exact .inl ⟨rfl, by omega⟩

theorem Ends.of_goes {s t u : State} {r : Result} (h : Goes s t) (k : Ends t r u) : Ends s r u := by
  refine ⟨?_, by rw [k.regs, h.regs], k.result⟩
  have := h.trans k.goes
  rwa [h.regs] at this

/-- Bytes written behind the output so far. -/
theorem read_append (m : Memory) (mem : Memory) (dst : Nat) (out cur : List Byte)
    (h : ∀ a, mem.read a = if inRange dst out.length a = true then out.getD (a - dst) 0 else m.read a)
    (hroom : dst + out.length + cur.length ≤ 2 ^ 32) (a : Nat) :
    (mem.writeSeq (dst + out.length) cur).read a =
      if inRange dst (out ++ cur).length a = true then (out ++ cur).getD (a - dst) 0 else m.read a := by
  rw [Memory.read_writeSeq _ _ _ _ hroom, h]
  simp only [inRange, Bool.and_eq_true, decide_eq_true_eq, List.length_append, List.getD_eq_getElem?_getD]
  by_cases h1 : a < dst + out.length
  · by_cases h2 : dst ≤ a
    · rw [if_neg (by omega), if_pos (by omega), if_pos (by omega), List.getElem?_append_left (by omega)]
    · rw [if_neg (by omega), if_neg (by omega), if_neg (by omega)]
  · rw [if_pos (by omega), if_neg (by omega), List.getElem?_append_right (by omega)]
    by_cases h3 : a < dst + out.length + cur.length
    · rw [if_pos (by omega), show a - dst - out.length = a - (dst + out.length) by omega,
        List.getElem?_eq_getElem (by omega)]
      rfl
    · rw [if_neg (by omega), List.getElem?_eq_none (by omega)]; rfl

/-- How a decode pass ends: by the completion the pure decoding `r` gives, from a state that holds its output. -/
structure DecodeEnds (m : Memory) (s : State) (r : Result × List Byte) (u : State) : Prop where
  ends : Ends s r.1 u
  ok   : r.1 = .ok → u.regs.outLen = BitVec.ofNat 32 r.2.length ∧ r.2.length ≤ s.eng.lCap.toNat ∧
    ∀ a, u.mem.read a =
      if inRange s.eng.lDst.toNat r.2.length a = true then r.2.getD (a - s.eng.lDst.toNat) 0 else m.read a

/-- One pass of the loop: it ends the command, or goes on with one code's bytes more. -/
theorem Decoding.step {m : Memory} {inp out : List Byte} {s : State} (h : Decoding m inp out s) (n : Nat) :
    let dec := fun fuel (t : State) (o : List Byte) => decodeFrom s.params s.guard fuel
      ((bytesBits inp).drop t.eng.bitpos) t.eng.i t.eng.table t.eng.prev o
    (∃ u, engineStep s = finish (dec (n + 1) s out).1 u ∧ DecodeEnds m s (dec (n + 1) s out) u) ∨
      ∃ out', Decoding m inp out' (engineStep s) ∧ Goes s (engineStep s) ∧
        s.eng.bitpos + 8 ≤ (engineStep s).eng.bitpos ∧ (engineStep s).eng.bitpos ≤ 8 * inp.length ∧
        dec (n + 1) s out = dec n (engineStep s) out' := by
  have hlen := h.len
  have hw := (codeWidth_bounds s.params s.eng.i).1
  have hdl : ((bytesBits inp).drop s.eng.bitpos).length = brAvail s.eng := by
    simp [brAvail, h.len]
  have hstep : engineStep s = uncompressLoop s := by
    rw [engineStep_loop s h.busy h.stage h.noError h.answers, engineLoop, h.op]
  simp only
  rw [hstep, decodeFrom, uncompressLoop]
  simp only [hdl]
  by_cases hav : brAvail s.eng < codeWidth s.params s.eng.i
  · left
    simp only [if_pos hav, uncompressEnd]
    by_cases h7 : brAvail s.eng ≤ 7
    · simp only [if_pos h7]
      refine ⟨_, rfl, (Goes.refl s).endsOk _, fun _ => ⟨by simp [h.olen], h.room, h.mem⟩⟩
    · simp only [if_neg h7]
      exact ⟨_, rfl, (Goes.refl s).ends _ (by decide), by simp⟩
  · simp only [if_neg hav, ← h.code (Nat.not_lt.mp hav)]
    cases hr : dictResolve s.params s.eng.table s.eng.i (brCode s) s.eng.prev with
    | none => exact .inl ⟨_, rfl, (brAdvance_goes s).ends .errUndefCode (by decide), by simp⟩
    | some cur =>
      simp only
      have hg : ∀ tb, Goes s { brAdvance s with eng := { (brAdvance s).eng with table := tb } } :=
        fun tb => (brAdvance_goes s).trans (goes_eng rfl rfl rfl rfl rfl rfl rfl)
      rw [uncompressAppend_eq, (hg _).guard]
      rw [← h.olen]
      simp only [brAdvance_eng_olen]
      cases hgd : s.guard (s.eng.olen + cur.length) with
      | some r =>
        simp only
        have hne : r ≠ .ok ∧ r ≠ .none := by
          rcases uncompressGuard_cases s.params s.eng.lLen.toNat s.eng.lRatio.toNat s.eng.lCap.toNat
            (s.eng.olen + cur.length) with ⟨h1, -⟩ | ⟨h1, -⟩ | ⟨h1, -⟩ <;>
            rw [State.guard, h1] at hgd <;> simp at hgd <;> subst hgd <;> decide
        exact .inl ⟨_, rfl, (hg _).ends _ hne.2, fun he => absurd he hne.1⟩
      | none =>
        right
        simp only
        have hcap : s.eng.olen + cur.length ≤ s.eng.lCap.toNat := by
          rcases uncompressGuard_cases s.params s.eng.lLen.toNat s.eng.lRatio.toNat s.eng.lCap.toNat
            (s.eng.olen + cur.length) with ⟨-, h1, -⟩ | ⟨h1, -⟩ | ⟨h1, -⟩
          · exact h1
          · rw [State.guard, h1] at hgd; simp at hgd
          · rw [State.guard, h1] at hgd; simp at hgd
        have hw32 := (configOk_windows h.config).2.1
        have hol := h.olen
        have hmem := read_append m s.mem s.eng.lDst.toNat out cur h.mem (by omega)
        have hgo : Goes s { brAdvance s with
            mem := s.mem.writeSeq (s.eng.lDst.toNat + s.eng.olen) cur
            eng := { (brAdvance s).eng with
              table := decGrow s.params s.eng.table s.eng.i s.eng.prev cur
              olen := s.eng.olen + cur.length, prev := brCode s } } := by
          refine ⟨rfl, rfl, rfl, rfl, rfl, rfl, rfl, rfl, rfl, rfl, fun a ha => ?_⟩
          refine Memory.read_writeSeq_outside _ _ _ _ ?_
          simp only [Engine.inDst, inRange, Bool.and_eq_false_iff, decide_eq_false_iff_not] at ha
          omega
        refine ⟨out ++ cur, ?_, hgo, ?_, ?_, ?_⟩
        · exact
            { busy := h.busy, op := h.op, stage := h.stage, config := h.config, answers := h.answers, noError := h.noError
              visible := h.visible, len := h.len, source := h.source, olen := by simp [h.olen]
              room := by rw [List.length_append, ← hol]; exact hcap, mem := by rw [hol]; exact hmem }
        · simpa using hw
        · simp only [brAdvance_eng_bitpos]
          unfold brAvail at hav
          omega
        · simp only [List.drop_drop, brAdvance_eng_bitpos, brAdvance_eng_i]

/-- The rest of the pass, from any point of the loop. -/
theorem Decoding.run {m : Memory} {inp out : List Byte} {s : State} (h : Decoding m inp out s) (n : Nat)
    (hn : 8 * inp.length ≤ s.eng.bitpos + 8 * n) :
    let r := decodeFrom s.params s.guard (n + 1) ((bytesBits inp).drop s.eng.bitpos) s.eng.i s.eng.table s.eng.prev out
    ∃ u, engineRun (n + 1) s = finish r.1 u ∧ DecodeEnds m s r u := by
  induction n generalizing s out with
  | zero =>
    rcases h.step 0 with ⟨u, h1, h2⟩ | ⟨-, -, -, h3, h4, -⟩
    · exact ⟨u, h1, h2⟩
    · omega
  | succ n ih =>
    rcases h.step (n + 1) with ⟨u, h1, h2⟩ | ⟨out', h1, h2, h3, -, h5⟩
    · exact ⟨u, by rw [engineRun, h1, engineRun_idle _ _ rfl], h2⟩
    · obtain ⟨u, h6, h7, h8⟩ := ih h1 (by omega)
      simp only at h5
      rw [h2.params, h2.guard, ← h5] at h6 h7 h8
      exact ⟨u, h6, Ends.of_goes h2 h7, by rwa [h2.lCap, h2.lDst] at h8⟩

end Sys2Proof.Machine
end

