-- ==== Sys2Proof/Laws/Command.lean ====
section
/-! SUPPORT. A command from its acceptance to its end (spec/44_commands.md R252): the first two engine steps, and the whole run of each pass, where the outcome is determined. -/

namespace Sys2Proof.Machine

theorem exec_of_op {i : Instr} {op : Op} (h : (i = .compress ∧ op = .compress) ∨ (i = .uncompress ∧ op = .uncompress))
    (s : State) : exec i s = issue op s := by
  rcases h with ⟨rfl, rfl⟩ | ⟨rfl, rfl⟩ <;> rfl

/-- A command that is not refused is accepted (R252). -/
theorem issue_accepts (op : Op) (s : State) (hb : s.eng.busy = false)
    (h : windowsOnRegisters s.env.platform s.regs.srcAddr.toNat s.regs.srcLen.toNat s.regs.dstAddr.toNat
      s.regs.dstCap.toNat = false) : issue op s = settle (accept op s) := by simp [issue, hb, h]

theorem accept_configOk (op : Op) (s : State) : (accept op s).eng.configOk =
    operandsLegal op s.regs.srcAddr s.regs.srcLen s.regs.dstAddr s.regs.dstCap s.regs.ratio := rfl

/-- The state in which the pass of an accepted command starts. -/
def started (op : Op) (s : State) : State :=
  { accept op s with eng := { (accept op s).eng with stage := .start } }

theorem started_step (op : Op) (s : State) (h : s.Ready op) : engineStep (accept op s) = started op s :=
  engineStep_checks _ rfl rfl h.legal

theorem started_noError (op : Op) (s : State) (h : s.Ready op) : (started op s).busError = false := by
  rcases h.noError with h | h
  · exact Bool.and_eq_false_iff.mpr (.inl (decide_eq_false h))
  · exact Bool.and_eq_false_iff.mpr (.inr h)

theorem started_visible (op : Op) (s : State) (h : s.Ready op) : (started op s).env.racing ++ (started op s).env.shadow = [] := by
  show (if s.env.platform.coherent then [] else s.env.shadow) = []
  rcases h.visible with h | h <;> simp [h]

theorem started_run (op : Op) (s : State) (h : s.Ready op) (n : Nat) :
    engineRun (n + 2) (accept op s) = engineRun n (engineStart (started op s)) := by
  rw [engineRun, engineRun, started_step op s h, engineStep_start _ rfl rfl (started_noError op s h) h.answers]

@[simp] theorem length_input (s : State) : s.input.length = s.regs.srcLen.toNat := by simp [State.input]

theorem getD_input (s : State) (j : Nat) (h : j < s.regs.srcLen.toNat) :
    s.input.getD j 0 = s.mem.read (s.regs.srcAddr.toNat + j) := by
  simp [State.input, List.getD_eq_getElem?_getD, h]

/-- The whole encode pass on an input that is not empty. -/
theorem compress_run (s : State) (h : s.Ready .compress) :
    ∃ u, engineRun (s.regs.srcLen.toNat + 2) (accept .compress s) = compressResult u ∧ Goes (started .compress s) u ∧
      u.eng.olen = encodedLength s.params s.input ∧
      ∀ a, u.mem.read a =
        if inRange s.regs.dstAddr.toNat (min (encodedLength s.params s.input) s.regs.dstCap.toNat) a = true
        then byteAt (encodedBits s.params s.input) (a - s.regs.dstAddr.toNat) else s.mem.read a := by
  rw [started_run _ _ h]
  have hv := started_visible _ s h
  have hn := started_noError _ s h
  have hl := length_input s
  by_cases h0 : s.regs.srcLen.toNat = 0
  · have hi : s.input = [] := List.eq_nil_of_length_eq_zero (by omega)
    have e : engineStart (started .compress s) = compressResult { started .compress s with
        eng := { (started .compress s).eng with table := [], acc := 0, nacc := 0, olen := 0, i := 0 } } := by
      show compressStart _ = _
      unfold compressStart
      simp only
      rw [if_pos (show (started Op.compress s).eng.lLen.toNat = 0 from h0)]
    refine ⟨{ started .compress s with
        eng := { (started .compress s).eng with table := [], acc := 0, nacc := 0, olen := 0, i := 0 } }, ?_,
      goes_eng rfl rfl rfl rfl rfl rfl rfl, ?_, fun a => ?_⟩
    · rw [h0]; exact e
    · simp [hi, encodedLength, encodedBits, lzwCodes, encoderTrace, streamBits]
    · rw [hi, if_neg (by simp [encodedLength, encodedBits, lzwCodes, encoderTrace, streamBits, inRange])]; rfl
  · have e : engineStart (started .compress s) = { started .compress s with
        eng := { (started .compress s).eng with table := [], acc := 0, nacc := 0, olen := 0, i := 0
                                                S := ((started .compress s).engineRead s.regs.srcAddr.toNat).toNat
                                                k := 1, stage := .loop } } := by
      show compressStart _ = _
      unfold compressStart
      simp only
      rw [if_neg (show ¬ (started Op.compress s).eng.lLen.toNat = 0 from h0)]
      rfl
    have hread : (started .compress s).engineRead s.regs.srcAddr.toNat = s.input.getD 0 0 := by
      rw [engineRead_visible _ hv, getD_input _ _ (by omega)]; rfl
    have henc : Encoding s.mem s.input [] (engineStart (started .compress s)) := by
      rw [e]
      refine
        { busy := rfl, op := rfl, stage := rfl, config := h.legal, answers := h.answers, noError := hn, visible := hv, len := hl
          source := fun j hj => (getD_input s j (by omega)).symm, kMax := by show 1 ≤ _; omega, table := rfl
          S := ?_, i := rfl, free := ?_, wrote := ?_, nacc := Nat.zero_le _ }
      · exact BitVec.isLt _
      · have := s.params.dictSize_ge
        show 256 = min (256 + 0) s.params.dictSize; omega
      · exact Wrote.start _ _ rfl rfl rfl rfl
    have hg : Goes (started .compress s) (engineStart (started .compress s)) := by
      rw [e]; exact goes_eng rfl rfl rfl rfl rfl rfl rfl
    obtain ⟨u, h1, h2, h3, h4⟩ := henc.run
    have hS : (engineStart (started .compress s)).eng.S = (s.input.getD 0 0).toNat := by
      rw [e]; exact congrArg BitVec.toNat hread
    have hk : (engineStart (started .compress s)).eng.k = 1 := by rw [e]
    have ht : (engineStart (started .compress s)).eng.table = [] := by rw [e]
    have hbits : streamBits s.params 0 ([] ++ (lzwTrace s.params [] (s.input.getD 0 0).toNat (s.input.drop 1)).map Prod.fst) =
        encodedBits s.params s.input := by
      unfold encodedBits lzwCodes encoderTrace
      cases hi : s.input with
      | nil => rw [hi] at hl; simp at hl; omega
      | cons b r => rfl
    simp only [hS, hk, ht, hg.params, hg.lDst, hg.lCap] at h1 h3 h4
    simp only [show (started .compress s).params = s.params from rfl, hbits] at h3 h4
    refine ⟨u, ?_, hg.trans h2, h3, h4⟩
    rw [← h1]
    congr 1; omega

/-- The whole decode pass. -/
theorem uncompress_run (s : State) (h : s.Ready .uncompress) :
    let r := decodeStream s.params
      (uncompressGuard s.params s.regs.srcLen.toNat s.regs.ratio.toNat s.regs.dstCap.toNat) s.input
    ∃ u, engineRun (s.regs.srcLen.toNat + 3) (accept .uncompress s) = finish r.1 u ∧
      DecodeEnds s.mem (started .uncompress s) r u := by
  have hl := length_input s
  have hdec : Decoding s.mem s.input [] (engineStart (started .uncompress s)) :=
    { busy := rfl, op := rfl, stage := rfl, config := h.legal, answers := h.answers, noError := started_noError _ s h
      visible := started_visible _ s h, len := hl, source := fun j hj => (getD_input s j (by omega)).symm
      olen := rfl, room := Nat.zero_le _
      mem := fun a => by rw [if_neg (by simp [inRange])]; rfl }
  have hg : Goes (started .uncompress s) (engineStart (started .uncompress s)) := goes_eng rfl rfl rfl rfl rfl rfl rfl
  obtain ⟨u, h1, h2, h3⟩ := hdec.run s.input.length (by simp)
  refine ⟨u, ?_, ?_, ?_⟩
  · rw [show s.regs.srcLen.toNat + 3 = s.regs.srcLen.toNat + 1 + 2 from rfl, started_run _ _ h,
      ← show s.input.length + 1 = s.regs.srcLen.toNat + 1 by rw [hl]]
    exact h1
  · exact Ends.of_goes hg h2
  · exact h3

/-- A command whose outcome is determined, once enough engine steps have passed in its turn. -/
theorem exec_ready {i : Instr} {op : Op} (hi : (i = .compress ∧ op = .compress) ∨ (i = .uncompress ∧ op = .uncompress))
    (s : State) (h : s.Ready op) {n : Nat} (hp : n ≤ s.env.pace) (hn : (engineRun n (accept op s)).eng.busy = false) :
    exec i s = .next (engineRun n (accept op s)) := by
  rw [exec_of_op hi, issue_accepts _ _ h.idle h.offRegs, settle]
  rw [show (accept op s).env.pace = s.env.pace from rfl, engineRun_of_le hp _ hn]

/-- COMPRESS_RESULT completes with the verdict on the lengths (R185). -/
theorem compressResult_eq (u : State) :
    compressResult u = finish (compressVerdict u.eng.lLen.toNat u.eng.olen u.eng.lCap.toNat)
      (if compressVerdict u.eng.lLen.toNat u.eng.olen u.eng.lCap.toNat = .ok then
        { u with regs := { u.regs with outLen := BitVec.ofNat 32 u.eng.olen } } else u) := by
  unfold compressResult compressVerdict
  simp only
  split
  · simp
  · split
    · simp
    · simp

end Sys2Proof.Machine
end

