-- ==== Sys2Proof/Laws/PerInstr.lean ====
section
/-! SUPPORT. Statements about every command as syntax (spec/30_encoding.md R90, R92, R93). -/

/-- The word of a command has RSV = 0, decodes to the command, and is read so by the host's table. -/
def Sys2Proof.Laws.Encoding.Statement (i : Sys2Proof.Instr) : Prop :=
  i.wf = true ∧ (Sys2Proof.encode i).extractLsb' 4 28 = 0 ∧ Sys2Proof.decode (Sys2Proof.encode i) = .ok i ∧
    Sys2Proof.decodeTableWord 32 (Sys2Proof.encode i).toNat = some i

theorem Sys2Proof.Laws.Encoding.nop : Sys2Proof.Laws.Encoding.Statement .nop := by
  unfold Sys2Proof.Laws.Encoding.Statement; decide

theorem Sys2Proof.Laws.Encoding.compress : Sys2Proof.Laws.Encoding.Statement .compress := by
  unfold Sys2Proof.Laws.Encoding.Statement; decide

theorem Sys2Proof.Laws.Encoding.uncompress : Sys2Proof.Laws.Encoding.Statement .uncompress := by
  unfold Sys2Proof.Laws.Encoding.Statement; decide
end

