-- ==== Sys2Proof/Laws/Step.lean ====
section
/-! SUPPORT. Everything a step can do (spec/10_state.md R20, spec/70_reset_and_hazards.md R332): one move of the host, then the engine steps of the turn. -/

namespace Sys2Proof.Machine

/-- What the host's move of a turn can make of a state, before the turn's engine steps. -/
inductive Moved (t : Turn) (s : State) : State → Prop where
  /-- No access, NOP, or a CMD write that is ignored because a command runs (R253, R255). -/
  | nothing : Moved t s s
  | read (o : Nat) : o % 4 = 0 → o < 0x40 → Moved t s (hostRead o s)
  | poll (o : Nat) (mask value : Word) : o % 4 = 0 → o < 0x40 → Moved t s (hostPoll t o mask value s)
  | write (o : Nat) (v : Word) : o % 4 = 0 → o < 0x40 → o ≠ regOffset .cmd → Moved t s { s with regs := s.regs.write o v }
  | accepted (op : Op) : s.eng.busy = false → Moved t s (accept op s)
  | illegal : s.eng.busy = false → Moved t s (illegalCommand s)
  | memRead (a : Nat) : a < 2 ^ 32 → Moved t s (hostMemRead a s)
  | memWrite (a : Nat) (v : Byte) : a < 2 ^ 32 → Moved t s (hostMemWrite a v s)
  | maintained : Moved t s (hostMaintain s)
  | resetDone : Moved t s (resetCore s)

theorem regAccessOk_iff (o b : Nat) : regAccessOk o b = true ↔ b = 4 ∧ o % 4 = 0 ∧ o < 0x40 := by
  simp [regAccessOk, and_assoc]

theorem Moved.pace {t : Turn} {s u : State} (h : Moved t s u) : u.env.pace = s.env.pace := by
  cases h with
  | poll => unfold hostPoll; simp only; split <;> rfl
  | illegal => unfold illegalCommand; split <;> rfl
  | resetDone => unfold resetCore; simp only; split <;> rfl
  | _ => rfl

theorem issue_cases {op : Op} {s t : State} (tr : Turn) (h : issue op s = .next t) :
    ∃ u, Moved tr s u ∧ settle u = .next t := by
  unfold issue at h
  split at h
  · exact ⟨s, .nothing, h⟩
  · split at h
    · cases h
    · exact ⟨_, .accepted op (by simpa using ‹¬s.eng.busy = true›), h⟩

theorem writeCmd_cases {v : Word} {s t : State} (tr : Turn) (h : writeCmd v s = .next t) :
    ∃ u, Moved tr s u ∧ settle u = .next t := by
  unfold writeCmd at h
  split at h
  case h_1 i _ =>
    cases i with
    | nop => exact ⟨s, .nothing, h⟩
    | compress => exact issue_cases tr h
    | uncompress => exact issue_cases tr h
  case h_2 =>
    cases hb : s.eng.busy with
    | true => exact ⟨s, .nothing, by rwa [illegalCommand, if_pos hb] at h⟩
    | false => exact ⟨_, .illegal hb, h⟩

/-- A step that goes on is a move of the host followed by the engine steps of the turn. -/
theorem step_cases {s t : State} (h : step s = .next t) :
    ∃ u, Moved s.turn s.beginTurn u ∧ t = engineRun s.turn.pace u := by
  suffices hs : ∃ u, Moved s.turn s.beginTurn u ∧ settle u = .next t by
    obtain ⟨u, h1, h2⟩ := hs
    refine ⟨u, h1, ?_⟩
    have hp : u.env.pace = s.turn.pace := h1.pace
    unfold settle at h2
    rw [hp] at h2
    injection h2 with h2
    exact h2.symm
  unfold step applyMove at h
  split at h
  · exact ⟨_, .nothing, h⟩
  · split at h
    case isTrue ho => exact ⟨_, .read _ ((regAccessOk_iff _ _).mp ho).2.1 ((regAccessOk_iff _ _).mp ho).2.2, h⟩
    · cases h
  · split at h
    case isTrue ho =>
      unfold hostWrite at h
      split at h
      · exact writeCmd_cases _ h
      case isFalse hc =>
        exact ⟨_, .write _ _ ((regAccessOk_iff _ _).mp ho).2.1 ((regAccessOk_iff _ _).mp ho).2.2 hc, h⟩
    · cases h
  · split at h
    case isTrue ho => exact ⟨_, .poll _ _ _ ((regAccessOk_iff _ _).mp ho).2.1 ((regAccessOk_iff _ _).mp ho).2.2, h⟩
    · cases h
  · split at h
    case isTrue ha => exact ⟨_, .memRead _ (by simpa [addressOk] using ha), h⟩
    · cases h
  · split at h
    case isTrue ha => exact ⟨_, .memWrite _ _ (by simpa [addressOk] using ha), h⟩
    · cases h
  · exact ⟨_, .maintained, h⟩
  · exact ⟨_, .resetDone, h⟩

/-- A run takes its first step, then the rest. -/
theorem run_succ {s t : State} (h : step s = .next t) (k : Nat) :
    Host.Core.run Sys2Proof.core (k + 1) s = Host.Core.run Sys2Proof.core k t := by
  have key : ∀ (M : Host.Core) (x y : M.State), M.step x = .next y → M.run (k + 1) x = M.run k y := fun M x y hx => by
    rw [Host.Core.run, hx]
  exact key Sys2Proof.core s t h

end Sys2Proof.Machine
end

