-- ==== Sys2Proof/Laws/Progress.lean ====
section
/-! SUPPORT. Progress (spec/44_commands.md R258, spec/70_reset_and_hazards.md R337): every engine step whose accesses complete brings a command nearer to its end. -/

namespace Sys2Proof.Machine

/-- The engine steps a running command may still take. -/
def Engine.work (e : Engine) : Nat :=
  match e.stage, e.op with
  | .checks, _          => e.lLen.toNat + 3
  | .start, _           => e.lLen.toNat + 2
  | .loop, .compress    => e.lLen.toNat - e.k + 1
  | .loop, .uncompress  => brAvail e / 8 + 1

theorem Engine.work_compress {e : Engine} (hs : e.stage = .loop) (ho : e.op = .compress) :
    e.work = e.lLen.toNat - e.k + 1 := by simp [Engine.work, hs, ho]

theorem Engine.work_le (e : Engine) : e.work ≤ stepBound e.lLen := by
  unfold Engine.work stepBound brAvail
  split <;> omega

/-- Nothing keeps the engine from its next step: its accesses complete, or the command makes none. -/
def State.Progresses (s : State) : Prop := s.Answered ∨ (s.eng.stage = .checks ∧ s.eng.configOk = false)

theorem encStep_stage (b : Byte) (s : State) : (encStep b s).eng.stage = s.eng.stage ∧ (encStep b s).eng.k = s.eng.k := by
  unfold encStep
  split
  · exact ⟨rfl, rfl⟩
  · obtain ⟨-, -, -, h⟩ := emit_frame s.eng.S s
    have h1 : (emit s.eng.S s).eng.stage = s.eng.stage := by rw [h]
    have h2 : (emit s.eng.S s).eng.k = s.eng.k := by rw [h]
    exact ⟨h1, h2⟩

theorem engineChecks_progress (s : State) (hs : s.eng.stage = .checks) (hp : s.Progresses) :
    (engineChecks s).eng.busy = false ∨ (engineChecks s).eng.work < s.eng.work ∧ (engineChecks s).Answered := by
  unfold engineChecks
  cases hc : s.eng.configOk with
  | false => exact .inl rfl
  | true =>
    refine .inr ⟨?_, ?_⟩
    · simp [Engine.work, hs]
    · rcases hp with h | ⟨-, h⟩
      · exact h
      · simp [hc] at h

theorem engineStart_progress (s : State) (hs : s.eng.stage = .start) :
    (engineStart s).eng.busy = false ∨ (engineStart s).eng.work < s.eng.work := by
  unfold engineStart
  cases ho : s.eng.op with
  | compress =>
    simp only [compressStart]
    split
    · obtain ⟨r, u, h, -⟩ := compressResult_ends (Goes.refl { s with
        eng := { s.eng with table := [], acc := 0, nacc := 0, olen := 0, i := 0 } })
      exact .inl (by rw [h]; rfl)
    · right; simp only [Engine.work, hs, ho]; omega
  | uncompress => right; simp [uncompressStart, Engine.work, hs, ho, brAvail]

theorem engineLoop_progress (s : State) (hs : s.eng.stage = .loop) :
    (engineLoop s).eng.busy = false ∨ (engineLoop s).eng.work < s.eng.work := by
  unfold engineLoop
  cases ho : s.eng.op with
  | compress =>
    simp only [compressLoop]
    split
    case isTrue hk =>
      obtain ⟨h1, h2⟩ := encStep_stage (s.engineRead (s.eng.lSrc.toNat + s.eng.k))
        { s with eng := { s.eng with k := s.eng.k + 1 } }
      have g := encStep_goes (s.engineRead (s.eng.lSrc.toNat + s.eng.k)) { s with eng := { s.eng with k := s.eng.k + 1 } }
      right
      rw [Engine.work_compress (h1.trans hs) (g.op.trans ho), Engine.work_compress hs ho, h2, g.lLen]
      simp only
      omega
    · obtain ⟨r, u, h, -⟩ := compressResult_ends (Goes.refl (flush (emit s.eng.S s)))
      exact .inl (by rw [h]; rfl)
  | uncompress =>
    have hw := (codeWidth_bounds s.params s.eng.i).1
    simp only [uncompressLoop]
    split
    · unfold uncompressEnd; split <;> exact .inl rfl
    · split
      · exact .inl rfl
      · unfold uncompressAppend
        simp only
        split
        · exact .inl rfl
        · split
          · exact .inl rfl
          · right
            simp only [Engine.work, brAdvance_eng_stage, hs, brAdvance_eng_op, ho, brAvail, brAdvance_eng_lLen,
              brAdvance_eng_bitpos] at *
            omega

/-- A step of a running command that nothing keeps waiting ends it, or leaves it less to do and still not waiting. -/
theorem engineStep_progress (s : State) (hb : s.eng.busy = true) (hp : s.Progresses) :
    (engineStep s).eng.busy = false ∨
      (engineStep s).eng.busy = true ∧ (engineStep s).eng.work < s.eng.work ∧ (engineStep s).Answered := by
  rcases engineStep_cases s hb with hg | ⟨r, u, h, -⟩
  · rw [hg.busy, hb]
    right
    have key : (engineStep s).eng.work < s.eng.work ∧ (engineStep s).Answered := by
      have hbusy : (engineStep s).eng.busy ≠ false := by rw [hg.busy, hb]; simp
      cases hs : s.eng.stage with
      | checks =>
        have e : engineStep s = engineChecks s := by simp [engineStep, hb, hs]
        rw [e] at hbusy ⊢
        exact (engineChecks_progress s hs hp).resolve_left hbusy
      | start =>
        have ha : s.Answered := hp.resolve_right fun h => by simp [hs] at h
        have e : engineStep s = s.onPort (engineStart s) := by simp [engineStep, hb, hs]
        refine ⟨?_, hg.answered ha⟩
        rw [e] at hbusy ⊢
        simp only [State.onPort, ha.stalled] at hbusy ⊢
        split
        case isTrue he => rw [if_pos he] at hbusy; exact absurd rfl hbusy
        case isFalse he => rw [if_neg he] at hbusy; exact (engineStart_progress s hs).resolve_left hbusy
      | loop =>
        have ha : s.Answered := hp.resolve_right fun h => by simp [hs] at h
        have e : engineStep s = s.onPort (engineLoop s) := by simp [engineStep, hb, hs]
        refine ⟨?_, hg.answered ha⟩
        rw [e] at hbusy ⊢
        simp only [State.onPort, ha.stalled] at hbusy ⊢
        split
        case isTrue he => rw [if_pos he] at hbusy; exact absurd rfl hbusy
        case isFalse he => rw [if_neg he] at hbusy; exact (engineLoop_progress s hs).resolve_left hbusy
    exact ⟨rfl, key⟩
  · exact .inl (by rw [h]; rfl)

/-- A step that waits for an access changes nothing (R258). -/
theorem engineStep_stalled (s : State) (hs : s.eng.stage ≠ .checks) (h : s.stalled = true) : engineStep s = s := by
  have he : s.busError = false := by
    simp only [State.stalled, Bool.and_eq_true, decide_eq_true_eq] at h
    simp [State.busError, h.1]
  unfold engineStep
  split
  · rfl
  · split
    case h_1 hc => exact absurd hc hs
    all_goals simp [State.onPort, he, h]

end Sys2Proof.Machine
end

