-- ==== Sys2Proof/Tests/Slice0.lean ====
section
/-! SUPPORT. Tests: the well-formedness checks, words written out from the spec's encoding, the spec's vectors (spec/95_test_vectors.md), and for every obligation with hypotheses a concrete state and operands that meet them, at the boundaries of its clauses. -/

namespace Sys2Proof.Tests

open Sys2Proof.Machine

/-! ## Small machines -/

/-- An idle machine whose source window holds `bytes`, with enough engine steps in its turn for a command. -/
def machine (src : Word) (bytes : List Byte) (dst cap ratio : Word) : State :=
  { State.reset with
    regs := { Regs.reset with
      srcAddr := src, srcLen := BitVec.ofNat 32 bytes.length, dstAddr := dst, dstCap := cap, ratio := ratio }
    mem := Memory.writeSeq [] src.toNat bytes
    env := { Env.quiet with pace := bytes.length + 3 } }

/-- The same machine with `F` fraction bits. -/
def fractional (f : Fin 17) (s : State) : State := { s with params := { s.params with fracBits := f } }

/-- One move of the host is scheduled, with no engine step. -/
def scheduled (m : HostMove) (s : State) : State :=
  { s with env := { s.env with agenda := [{ move := m, pace := 0, port := .completes }] } }

/-- The state of an outcome that goes on. -/
def after (o : Host.Outcome State Fault Refusal) : State :=
  match o with
  | .next t    => t
  | .fault _   => State.reset
  | .refused _ => State.reset

/-- RESULT, OUT_LEN and the bytes of the output. -/
def outcome (dst : Nat) (t : State) : Result × Nat × List Byte :=
  (t.regs.result, t.regs.outLen.toNat, t.mem.bytes dst t.regs.outLen.toNat)

/-- "ababab" (V-E9). -/
def ababab : List Byte := [0x61, 0x62, 0x61, 0x62, 0x61, 0x62]

/-- COMPRESS of "ababab" into five bytes (V-E9). -/
def encoding : State := machine 0x1000 ababab 0x2000 5 0

/-- UNCOMPRESS of 61 80 00 into three bytes (V-U18). -/
def decoding : State := machine 0x1000 [0x61, 0x80, 0x00] 0x2000 3 1

/-- The encoder in the middle of its loop. -/
def running : State := engineRun 4 (accept .compress encoding)

/-- The decoder in the middle of its loop. -/
def reading : State := engineRun 3 (accept .uncompress decoding)

/-- A machine whose platform rejects reads of the source window's last byte and reports it. -/
def rejecting : State :=
  { encoding with env := { encoding.env with
      port := .error
      platform := { Platform.default with
        regions := [{ base := 0x1005, size := 1, rejectsRead := true, rejectsWrite := false }] } } }

/-! ## Well-formedness -/

theorem test_wf_width : (HostMove.read 0x00 2).wf = false ∧ (HostMove.write 0x04 1 0).wf = false := by decide

theorem test_wf_alignment : (HostMove.read 0x02 4).wf = false ∧ (HostMove.poll 0x0D 1 0).wf = false := by decide

theorem test_wf_offset : (HostMove.write 0x40 4 0).wf = false ∧ (HostMove.read 0x3C 4).wf = true := by decide

theorem test_wf_address : (HostMove.memRead (2 ^ 32)).wf = false ∧ (HostMove.memWrite (2 ^ 32) 0).wf = false ∧
    (HostMove.memRead (2 ^ 32 - 1)).wf = true := by decide

/-! ## Decoding: words written out bit by bit (R90: RSV = 0 in bits 31:4, OP in bits 3:0) -/

theorem test_decode_nop : decode 0b00000000000000000000000000000000#32 = .ok .nop := by decide

theorem test_decode_compress : decode 0b00000000000000000000000000000001#32 = .ok .compress := by decide

theorem test_decode_uncompress : decode 0b00000000000000000000000000000010#32 = .ok .uncompress := by decide

/-- V-K4, V-K5, V-K6, and OP at its greatest value. -/
theorem test_decode_illegal :
    decode 0b00000000000000000000000000000011#32 = .error (.illegalCommand 3) ∧
      decode 0b10000000000000000000000000000001#32 = .error (.illegalCommand 0x80000001) ∧
      decode 0b00000000000000000000000000010001#32 = .error (.illegalCommand 0x11) ∧
      decode 0b00000000000000000000000000001111#32 = .error (.illegalCommand 0xF) := by decide

theorem test_table_word : decodeTableWord 32 1 = some .compress ∧ decodeTableWord 32 0x80000001 = none := by decide

/-! ## The spec's vectors, two for each command -/

/-- V-K3: NOP leaves STATUS 0x00000102. -/
theorem test_nop_keeps_status :
    (after (exec .nop { State.reset with regs := { Regs.reset with done := true, result := .ok } })).status = 0x00000102 := by
  decide

/-- V-E9: 61 31 40 20 00. -/
theorem test_compress_ok : outcome 0x2000 (after (exec .compress encoding)) = (.ok, 5, [0x61, 0x31, 0x40, 0x20, 0x00]) := by
  decide +kernel

/-- V-S3: [61 d7 b1] gives NO_BENEFIT, STATUS 0x00000202. -/
theorem test_compress_no_benefit :
    (after (exec .compress (machine 0x1000 [0x61, 0xD7, 0xB1] 0x2000 3 0))).status = 0x00000202 := by decide +kernel

/-- V-U8: the code equal to the next free code, and pad bits that are not 0. -/
theorem test_uncompress_next_free_code :
    outcome 0x2000 (after (exec .uncompress (machine 0x1000 [0x61, 0x80, 0x7F] 0x2000 8 1))) =
      (.ok, 3, [0x61, 0x61, 0x61]) := by decide +kernel

/-- V-U20: truncation is tested before any code is resolved, STATUS 0x00000502. -/
theorem test_uncompress_truncated :
    (after (exec .uncompress (machine 0x1000 [0x61, 0xFF] 0x2000 8 9))).status = 0x00000502 := by decide +kernel

/-- V-K4: an illegal value, STATUS 0x00000802. -/
theorem test_illegal_status : (after (step (scheduled (wr32 .cmd 0x3) encoding))).status = 0x00000802 := by decide

/-- The table of section 2.1 of the vectors, at both sides of every boundary. -/
theorem test_width_table :
    [0, 1, 256, 257, 768, 769, 1792, 1793, 3840, 3841, 7936, 7937, 16128, 16129, 32512, 32513, 65280, 65281].map
        (codeWidth Params.hardware) = [8, 9, 9, 10, 10, 11, 11, 12, 12, 13, 13, 14, 14, 15, 15, 16, 16, 16] ∧
      [0, 1, 256, 257, 65281].map (codeWidth { widthOverNine := 0, fracBits := 0 }) = [8, 9, 9, 9, 9] := by decide +kernel

/-- V-K12 to V-K18: the operand checks at their boundaries. -/
theorem test_operand_checks :
    operandsLegal .compress 0x1000 3 0x1002 8 0 = false ∧ operandsLegal .compress 0x1000 3 0x1003 5 0 = true ∧
      operandsLegal .compress 0x1000 0 0x1000 8 0 = true ∧ operandsLegal .compress 0xFFFFFFFF 2 0x1000 8 0 = false ∧
      operandsLegal .compress 0xFFFFFFFE 2 0x1000 8 0 = true ∧ operandsLegal .compress 0x1000 3 0xFFFFFFF0 0x11 0 = false ∧
      operandsLegal .uncompress 0x1000 3 0x2000 8 0 = false ∧ operandsLegal .uncompress 0x1000 3 0x2000 8 1 = true := by
  decide

/-! ## Hypotheses are met: encoding, step, reset -/

theorem encoding_ready : encoding.Ready .compress where
  idle    := by decide
  legal   := by decide
  offRegs := by decide
  answers := by decide
  noError := by decide
  visible := by decide

theorem decoding_ready : decoding.Ready .uncompress where
  idle    := by decide
  legal   := by decide
  offRegs := by decide
  answers := by decide
  noError := by decide
  visible := by decide

theorem test_meets_DecodeIsTotal : (3 : Word) ≠ 0 ∧ (3 : Word) ≠ 1 ∧ (3 : Word) ≠ 2 ∧ (0xFFFFFFFF : Word) ≠ 0 ∧
    (0xFFFFFFFF : Word) ≠ 1 ∧ (0xFFFFFFFF : Word) ≠ 2 := by decide

theorem test_meets_DecodeAndEncodeAgree : Instr.uncompress.wf = true ∧ decode 0x00000002 = .ok .uncompress := by decide

theorem test_meets_StepRunsTheDecodedCommand :
    (scheduled (wr32 .cmd 1) encoding).env.agenda = { move := wr32 .cmd 1, pace := 0, port := .completes } :: [] ∧
      decode 1 = .ok .compress ∧ Instr.compress.wf = true ∧
      (scheduled (wr32 .cmd 3) encoding).env.agenda = { move := wr32 .cmd 3, pace := 0, port := .completes } :: [] ∧
      decode 3 = .error (.illegalCommand 3) := by decide

theorem test_meets_FetchedWordRunsNext : decodeTableWord 32 2 = some .uncompress := by decide

/-- An accepted command whose windows overlap in 0x1004 and 0x1005, before its checks. -/
def overlapping : State := accept .compress (machine 0x1000 ababab 0x1004 5 0)

/-- A reset while a command runs: the window's last byte and the one after it, a byte in the source window, none touched; and
with illegal operands the last byte that is in both windows and the first that is in the destination window only. -/
theorem test_meets_ResetEventAtAnyTime :
    (scheduled .reset running).env.agenda = { move := .reset, pace := 0, port := .completes } :: [] ∧
      running.eng.busy = true ∧ running.eng.inDst 0x2004 = true ∧ running.eng.inSrc 0x2004 = false ∧
      running.eng.inDst 0x2005 = false ∧ running.eng.inSrc 0x1005 = true ∧ 0x2005 ∉ running.env.touched ∧
      (scheduled .reset encoding).eng.busy = false ∧ overlapping.eng.busy = true ∧ overlapping.eng.configOk = false ∧
      overlapping.eng.inDst 0x1005 = true ∧ overlapping.eng.inSrc 0x1005 = true ∧ overlapping.eng.inDst 0x1006 = true ∧
      overlapping.eng.inSrc 0x1006 = false := by decide +kernel

/-! ## Hypotheses are met: registers -/

/-- Every clause of a read, at its offset. -/
theorem test_meets_RegisterReadWritesNothing :
    (∀ o ∈ [0x00, 0x04, 0x08, 0x0C, 0x10, 0x14, 0x18, 0x1C, 0x20, 0x24, 0x28, 0x3C], o % 4 = 0 ∧ o < 0x40) ∧
      ∀ o, (scheduled (.read o 4) encoding).env.agenda = { move := .read o 4, pace := 0, port := .completes } :: [] :=
  ⟨by decide, fun _ => rfl⟩

/-- Every clause of a write, at its offset, with the bit of CTRL and STATUS set and clear. -/
theorem test_meets_RegisterWriteEffects :
    (∀ o ∈ [0x00, 0x04, 0x0C, 0x10, 0x14, 0x18, 0x1C, 0x20, 0x24, 0x28, 0x3C], o % 4 = 0 ∧ o < 0x40 ∧ o ≠ 0x08) ∧
      (3 : Word).getLsbD 0 = true ∧ (3 : Word).getLsbD 1 = true ∧ (0 : Word).getLsbD 0 = false ∧ (0 : Word).getLsbD 1 = false ∧
      ∀ o v, (scheduled (.write o 4 v) encoding).env.agenda =
        { move := .write o 4 v, pace := 0, port := .completes } :: [] :=
  ⟨by decide, by decide, by decide, by decide, by decide, fun _ _ => rfl⟩

/-- V-K9, V-K11 in one step each: a write of each register, read back. -/
theorem test_register_writes :
    ([0x00, 0x04, 0x0C, 0x10, 0x14, 0x18, 0x1C, 0x20, 0x24, 0x28].map fun o =>
      (after (step (scheduled (.write o 4 0x00000007) State.reset))).readReg o) =
      [0x10, 1, 0, 7, 7, 7, 7, 7, 0, 0] := by decide

theorem test_meets_UnsupportedRegisterAccessRefused :
    ∀ a ∈ [(0x00, 2), (0x02, 4), (0x40, 4)], (a.2 ≠ 4 ∨ a.1 % 4 ≠ 0 ∨ 0x40 ≤ a.1) ∧
      (scheduled (.read a.1 a.2) encoding).env.agenda = [{ move := .read a.1 a.2, pace := 0, port := .completes }] ∧
      (scheduled (.write a.1 a.2 5) encoding).env.agenda = [{ move := .write a.1 a.2 5, pace := 0, port := .completes }] := by
  decide

/-- A POLL that is not aligned, and the least offset past the registers. -/
theorem test_meets_UnsupportedRegisterAccessRefused_of_poll :
    ∀ o ∈ [0x0D, 0x40], (o % 4 ≠ 0 ∨ 0x40 ≤ o) ∧
      (scheduled (.poll o 1 0) encoding).env.agenda = [{ move := .poll o 1 0, pace := 0, port := .completes }] := by decide

/-- V-K19, V-K20: both values of the bit of a STATUS write. -/
theorem test_meets_InterruptIsALevel : (2 : Word).getLsbD 1 = true ∧ (0xFFFFFFFD : Word).getLsbD 1 = false := by decide

/-- With no engine step the command is still running after the write; with many it has completed. -/
theorem test_meets_CompletionWinsOverAcknowledge :
    running.eng.busy = true ∧ (0x2 : Word).getLsbD 1 = true ∧
      (scheduled (wr32 .status 2) running).env.agenda = { move := wr32 .status 2, pace := 0, port := .completes } :: [] ∧
      (engineRun 0 running).eng.busy = true ∧ (engineRun 10 running).eng.busy = false := by decide +kernel

/-! ## Hypotheses are met: commands -/

theorem test_meets_NopChangesNothing : encoding.eng.busy = false ∧ running.eng.busy = true := by decide +kernel

/-- The least illegal value and the greatest. -/
theorem test_meets_IllegalCommandCompletesAtOnce :
    encoding.eng.busy = false ∧ (3 : Word) ≠ 0x00000000 ∧ (3 : Word) ≠ 0x00000001 ∧ (3 : Word) ≠ 0x00000002 ∧
      (0xFFFFFFFF : Word) ≠ 0x00000000 ∧ (0xFFFFFFFF : Word) ≠ 0x00000001 ∧ (0xFFFFFFFF : Word) ≠ 0x00000002 := by decide

theorem test_meets_CmdWriteWhileBusyIgnored : running.eng.busy = true := by decide +kernel

/-- Acceptance, before any engine step. -/
def accepting : State := { encoding with env := { encoding.env with pace := 0 } }

theorem test_meets_AcceptanceLatchesOperands :
    accepting.eng.busy = false ∧ accepting.env.pace = 0 ∧
      windowsOnRegisters accepting.env.platform accepting.regs.srcAddr.toNat accepting.regs.srcLen.toNat
        accepting.regs.dstAddr.toNat accepting.regs.dstCap.toNat = false := by decide

/-- The platform maps the core's registers where the destination window's last byte lies. -/
def mapped : State :=
  { encoding with env := { encoding.env with
      platform := { Platform.default with regBase := 0x2004, mapsRegisters := true } } }

theorem test_meets_WindowOnOwnRegistersRefused :
    mapped.eng.busy = false ∧
      operandsLegal .compress mapped.regs.srcAddr mapped.regs.srcLen mapped.regs.dstAddr mapped.regs.dstCap
        mapped.regs.ratio = true ∧
      windowsOnRegisters mapped.env.platform mapped.regs.srcAddr.toNat mapped.regs.srcLen.toNat
        mapped.regs.dstAddr.toNat mapped.regs.dstCap.toNat = true := by decide

/-- The registers one byte above the destination window, their last byte on the source window's first and one below it, and
an empty input. -/
theorem test_windows_on_registers :
    let pl := fun base => { Platform.default with regBase := base, mapsRegisters := true }
    windowsOnRegisters (pl 0x2005) 0x1000 6 0x2000 5 = false ∧ windowsOnRegisters (pl 0x0FC1) 0x1000 6 0x2000 5 = true ∧
      windowsOnRegisters (pl 0x0FC0) 0x1000 6 0x2000 5 = false ∧ windowsOnRegisters (pl 0x2004) 0x1000 0 0x2000 5 = false := by
  decide

/-- SETUP and START of COMPRESS from reset. -/
theorem test_meets_SetupThenStartLatchesTheValues :
    State.reset.eng.busy = false ∧ State.reset.env.platform.mapsRegisters = false ∧
      ({ Env.quiet with agenda := program 0 (setupMoves 0x1000 3 0x2000 8 0 ++ startMoves .compress) } : Env).agenda =
        program 0 (setupMoves 0x1000 3 0x2000 8 0 ++ startMoves .compress) ++ [] := by decide

/-- V-K18: RATIO = 0, and V-K12: windows that overlap. -/
theorem test_meets_ConfigErrorWritesNothing :
    (machine 0x1000 [0, 0, 0] 0x2000 8 0).eng.busy = false ∧ 1 ≤ (machine 0x1000 [0, 0, 0] 0x2000 8 0).env.pace ∧
      operandsLegal .uncompress 0x1000 3 0x2000 8 0 = false ∧
      (after (exec .uncompress (machine 0x1000 [0, 0, 0] 0x2000 8 0))).status = 0x00000702 ∧
      (after (exec .compress (machine 0x1000 [0, 0, 0] 0x1002 8 0))).status = 0x00000702 := by decide

theorem test_meets_CompressMeetsItsFunction :
    encoding.Ready .compress ∧ stepBound encoding.regs.srcLen ≤ encoding.env.pace := ⟨encoding_ready, by decide⟩

/-- Each verdict at its boundary: E = L, E = cap + 1, E = cap; L = 1 and L = 0 (V-E7, V-E10, V-E9, V-E2, V-E16). -/
theorem test_compress_verdicts :
    compressVerdict 4 4 4 = .noBenefit ∧ compressVerdict 6 5 4 = .errDstOverflow ∧ compressVerdict 6 5 5 = .ok ∧
      compressVerdict 1 1 0 = .errDstOverflow ∧ compressVerdict 0 0 0 = .ok := by decide

/-- A ready machine for the sources of fixed length: none, one byte, two bytes. -/
theorem ready_of_length (bytes : List Byte) (cap : Word) (h : bytes.length ≤ 0x1000) (hc : cap.toNat ≤ 0x1000) :
    (machine 0x1000 bytes 0x2000 cap 1).Ready .compress ∧ (machine 0x1000 bytes 0x2000 cap 1).Ready .uncompress ∧
      stepBound (machine 0x1000 bytes 0x2000 cap 1).regs.srcLen ≤ (machine 0x1000 bytes 0x2000 cap 1).env.pace := by
  have hl : (BitVec.ofNat 32 bytes.length).toNat = bytes.length := by
    rw [BitVec.toNat_ofNat, Nat.mod_eq_of_lt (by omega)]
  have hw : windowsLegal 0x1000 bytes.length 0x2000 cap.toNat = true := by
    simp [windowsLegal, rangesMeet]; omega
  refine ⟨⟨rfl, ?_, rfl, .inl nofun, .inl nofun, .inl rfl⟩, ⟨rfl, ?_, rfl, .inl nofun, .inl nofun, .inl rfl⟩, ?_⟩
  · show (windowsLegal 0x1000 (BitVec.ofNat 32 bytes.length).toNat 0x2000 cap.toNat && true) = true
    rw [hl, hw]; rfl
  · show (windowsLegal 0x1000 (BitVec.ofNat 32 bytes.length).toNat 0x2000 cap.toNat && decide ((1 : Word) ≠ 0)) = true
    rw [hl, hw]; decide
  · show (BitVec.ofNat 32 bytes.length).toNat + 3 ≤ bytes.length + 3
    omega

theorem test_meets_CompressOfNothing :
    (machine 0x1000 [] 0x2000 0 1).Ready .compress ∧ (machine 0x1000 [] 0x2000 0 1).regs.srcLen = 0 ∧
      stepBound (machine 0x1000 [] 0x2000 0 1).regs.srcLen ≤ (machine 0x1000 [] 0x2000 0 1).env.pace :=
  ⟨(ready_of_length [] 0 (by decide) (by decide)).1, by decide, by decide⟩

/-- Room for the byte, and none. -/
theorem test_meets_CompressOfOneByte :
    (machine 0x1000 [0x1F] 0x2000 1 1).Ready .compress ∧ (machine 0x1000 [0x1F] 0x2000 0 1).Ready .compress ∧
      (machine 0x1000 [0x1F] 0x2000 1 1).regs.srcLen = 1 ∧ (machine 0x1000 [0x1F] 0x2000 0 1).regs.srcLen = 1 ∧
      stepBound 1 ≤ (machine 0x1000 [0x1F] 0x2000 1 1).env.pace ∧ stepBound 1 ≤ (machine 0x1000 [0x1F] 0x2000 0 1).env.pace :=
  ⟨(ready_of_length _ 1 (by decide) (by decide)).1, (ready_of_length _ 0 (by decide) (by decide)).1, by decide, by decide,
    by decide, by decide⟩

theorem test_meets_TwoBytesGiveNoBenefit :
    (machine 0x1000 [0x66, 0x67] 0x2000 2 1).Ready .compress ∧ (machine 0x1000 [0x66, 0x67] 0x2000 2 1).regs.srcLen = 2 ∧
      stepBound 2 ≤ (machine 0x1000 [0x66, 0x67] 0x2000 2 1).env.pace :=
  ⟨(ready_of_length _ 2 (by decide) (by decide)).1, by decide, by decide⟩

/-- The capacity is L - 1; both results occur (V-E9, V-S3). -/
theorem test_meets_CompressCapacityThatSuffices :
    encoding.Ready .compress ∧ stepBound encoding.regs.srcLen ≤ encoding.env.pace ∧ 2 ≤ encoding.regs.srcLen.toNat ∧
      encoding.regs.srcLen.toNat - 1 ≤ encoding.regs.dstCap.toNat ∧ exec .compress encoding = .next (after (exec .compress encoding)) ∧
      (after (exec .compress encoding)).regs.result = .ok ∧
      (after (exec .compress (machine 0x1000 [0x61, 0xD7, 0xB1] 0x2000 2 0))).regs.result = .noBenefit :=
  ⟨encoding_ready, by decide, by decide, by decide, rfl, by decide +kernel, by decide +kernel⟩

/-- Both commands, one of them with a bus error reported. -/
theorem test_meets_EachCommandHasItsOwnResults :
    rejecting.eng.busy = false ∧ stepBound rejecting.regs.srcLen ≤ rejecting.env.pace ∧
      windowsOnRegisters rejecting.env.platform rejecting.regs.srcAddr.toNat rejecting.regs.srcLen.toNat
        rejecting.regs.dstAddr.toNat rejecting.regs.dstCap.toNat = false ∧
      (after (exec .compress rejecting)).regs.result = .errBus ∧ decoding.eng.busy = false ∧
      stepBound decoding.regs.srcLen ≤ decoding.env.pace ∧ rejecting.env.port ≠ .pending ∧
      decoding.env.port ≠ .pending := by decide +kernel

/-- The third and the last of the four codes of "ababab" (V-E9): `post` not empty, and empty. -/
theorem test_meets_EncoderParsesGreedily :
    encoderTrace Params.hardware ababab =
      [(0x61, [⟨0x61, 0x62⟩]), (0x62, [⟨0x62, 0x61⟩, ⟨0x61, 0x62⟩])] ++
        (256, [⟨256, 0x61⟩, ⟨0x62, 0x61⟩, ⟨0x61, 0x62⟩]) :: [(256, [⟨256, 0x61⟩, ⟨0x62, 0x61⟩, ⟨0x61, 0x62⟩])] ∧
    encoderTrace Params.hardware ababab =
      [(0x61, [⟨0x61, 0x62⟩]), (0x62, [⟨0x62, 0x61⟩, ⟨0x61, 0x62⟩]), (256, [⟨256, 0x61⟩, ⟨0x62, 0x61⟩, ⟨0x61, 0x62⟩])] ++
        (256, [⟨256, 0x61⟩, ⟨0x62, 0x61⟩, ⟨0x61, 0x62⟩]) :: [] := by decide

/-- The same decomposition meets the hypothesis here. -/
theorem test_meets_EmittedCodesFitTheirWidth :
    encoderTrace Params.hardware [0x66, 0x67] = [(0x66, [⟨0x66, 0x67⟩])] ++ (0x67, [⟨0x66, 0x67⟩]) :: [] := by decide

/-! ## Hypotheses are met: dictionary and bits -/

theorem test_meets_FindReturnsTheSequence :
    tableOk [⟨256, 0x61⟩, ⟨0x61, 0x61⟩] = true ∧ tableDistinct [⟨256, 0x61⟩, ⟨0x61, 0x61⟩] = true ∧
      257 < freeOf [⟨256, 0x61⟩, ⟨0x61, 0x61⟩] ∧ dictFind [⟨256, 0x61⟩, ⟨0x61, 0x61⟩] 0x61 0x61 = some 256 ∧
      dictFind [⟨256, 0x61⟩, ⟨0x61, 0x61⟩] 0x61 0x62 = none := by decide

/-- A table with room, and a full one at M = 9. -/
theorem test_meets_InsertAddsOneSequence :
    freeOf [⟨0x61, 0x61⟩] < Params.hardware.dictSize ∧ 0x61 < freeOf [⟨0x61, 0x61⟩] ∧
      ({ widthOverNine := 0, fracBits := 0 } : Params).dictSize ≤ freeOf (List.replicate 256 ⟨0x61, 0x61⟩) := by
  decide +kernel

/-- Every clause at its boundary: index 0, and the codes free - 1, free and free + 1 (V-D3, V-D4). -/
theorem test_meets_DefinedCodesAtAPosition :
    dictResolve Params.hardware [] 0 0xFF 0 = some [0xFF] ∧ dictResolve Params.hardware [] 1 255 0x61 = some [0xFF] ∧
      dictResolve Params.hardware [] 1 256 0x61 = some [0x61, 0x61] ∧ dictResolve Params.hardware [] 1 257 0x61 = none ∧
      freeOf [] = 256 ∧ freeOf [] < Params.hardware.dictSize := by decide

/-- The lowest index of the second clause, and two indices of one width. -/
theorem test_meets_WidthsGrowWithinBounds :
    1 ≤ (1 : Nat) ∧ (256 : Nat) ≤ 257 ∧ codeWidth Params.hardware 1 = 9 ∧ codeWidth Params.hardware 257 = 10 := by decide

/-- V-B2: the bytes 66 33 80 hold the codes 0x66 and 0x67. -/
theorem test_meets_ReaderReturnsTheWrittenCodes :
    (∀ j c, ([0x66, 0x67] : List Nat)[j]? = some c → c < 2 ^ codeWidth Params.hardware j) ∧
      ∀ t b, (streamBits Params.hardware 0 [0x66, 0x67])[t]? = some b →
        (([0x66, 0x33, 0x80] : List Byte).getD (t / 8) 0).getLsbD (7 - t % 8) = b := by
  constructor
  · intro j c h
    have : ∀ k, k < 2 → ∀ d, ([0x66, 0x67] : List Nat)[k]? = some d → d < 2 ^ codeWidth Params.hardware k := by
      intro k hk d hd
      obtain rfl | rfl : k = 0 ∨ k = 1 := by omega
      · simp at hd; subst hd; decide
      · simp at hd; subst hd; decide
    obtain ⟨hj, -⟩ := List.getElem?_eq_some_iff.mp h
    exact this j hj c h
  · intro t b h
    obtain ⟨ht, -⟩ := List.getElem?_eq_some_iff.mp h
    have hl : (streamBits Params.hardware 0 [0x66, 0x67]).length = 17 := by decide
    have : ∀ k : Fin 17, (streamBits Params.hardware 0 [0x66, 0x67])[k.val]? =
        some ((([0x66, 0x33, 0x80] : List Byte).getD (k.val / 8) 0).getLsbD (7 - k.val % 8)) := by decide
    have hk := this ⟨t, by omega⟩
    rw [h] at hk
    exact (Option.some.inj hk).symm

/-! ## Hypotheses are met: UNCOMPRESS -/

theorem test_meets_UncompressMeetsItsFunction :
    decoding.Ready .uncompress ∧ stepBound decoding.regs.srcLen ≤ decoding.env.pace := ⟨decoding_ready, by decide⟩

/-- Each guard at its boundary: the ratio met and exceeded by one, the capacity met and exceeded by one, n = 1. -/
theorem test_uncompress_guards :
    uncompressGuard Params.hardware 3 1 3 3 = none ∧ uncompressGuard Params.hardware 3 1 8 4 = some .errRatio ∧
      uncompressGuard Params.hardware 3 1 2 3 = some .errDstOverflow ∧
      uncompressGuard { widthOverNine := 7, fracBits := 8 } 1 0x80 1 1 = none ∧
      uncompressGuard { widthOverNine := 7, fracBits := 8 } 3 0x80 8 2 = some .errRatio := by decide

theorem test_meets_UncompressOfNothing :
    (machine 0x1000 [] 0x2000 0 1).Ready .uncompress ∧ (machine 0x1000 [] 0x2000 0 1).regs.srcLen = 0 ∧
      stepBound (machine 0x1000 [] 0x2000 0 1).regs.srcLen ≤ (machine 0x1000 [] 0x2000 0 1).env.pace :=
  ⟨(ready_of_length [] 0 (by decide) (by decide)).2.1, by decide, by decide⟩

/-- Room for the byte, and none. -/
theorem test_meets_UncompressOfOneByte :
    (machine 0x1000 [0x1F] 0x2000 1 1).Ready .uncompress ∧ (machine 0x1000 [0x1F] 0x2000 0 1).Ready .uncompress ∧
      (machine 0x1000 [0x1F] 0x2000 1 1).regs.srcLen = 1 ∧ (machine 0x1000 [0x1F] 0x2000 0 1).regs.srcLen = 1 ∧
      stepBound 1 ≤ (machine 0x1000 [0x1F] 0x2000 1 1).env.pace ∧ stepBound 1 ≤ (machine 0x1000 [0x1F] 0x2000 0 1).env.pace :=
  ⟨(ready_of_length _ 1 (by decide) (by decide)).2.1, (ready_of_length _ 0 (by decide) (by decide)).2.1, by decide, by decide,
    by decide, by decide⟩

theorem test_meets_TwoByteStreamsAreTruncated :
    (machine 0x1000 [0x61, 0x62] 0x2000 1 1).Ready .uncompress ∧ (machine 0x1000 [0x61, 0x62] 0x2000 1 1).regs.srcLen = 2 ∧
      stepBound 2 ≤ (machine 0x1000 [0x61, 0x62] 0x2000 1 1).env.pace ∧
      (machine 0x1000 [0x61, 0x62] 0x2000 1 1).params.frac = 0 ∧
      1 ≤ (machine 0x1000 [0x61, 0x62] 0x2000 1 1).regs.dstCap.toNat :=
  ⟨(ready_of_length _ 1 (by decide) (by decide)).2.1, by decide, by decide, by decide, by decide⟩

/-- UNCOMPRESS of 61 80 00 at F = 8 with the ratio one unit too small. -/
def overRatio : State := fractional 8 (machine 0x1000 [0x61, 0x80, 0x00] 0x2000 3 0xFF)

theorem overRatio_ready : overRatio.Ready .uncompress where
  idle    := by decide
  legal   := by decide
  offRegs := by decide
  answers := by decide
  noError := by decide
  visible := by decide

/-- The bound met exactly (3 <= 3 * 1), and missed by 3 / 256. -/
theorem test_meets_RatioGuardIsExact :
    decoding.Ready .uncompress ∧ stepBound decoding.regs.srcLen ≤ decoding.env.pace ∧ 2 ≤ decoding.regs.srcLen.toNat ∧
      fullDecode decoding.params decoding.input = (.ok, [0x61, 0x61, 0x61]) ∧ 3 ≤ decoding.regs.dstCap.toNat ∧
      3 * 2 ^ decoding.params.frac ≤ decoding.regs.srcLen.toNat * decoding.regs.ratio.toNat ∧
      overRatio.Ready .uncompress ∧ fullDecode overRatio.params overRatio.input = (.ok, [0x61, 0x61, 0x61]) ∧
      overRatio.regs.srcLen.toNat * overRatio.regs.ratio.toNat < 3 * 2 ^ overRatio.params.frac :=
  ⟨decoding_ready, by decide, by decide, by decide +kernel, by decide, by decide, overRatio_ready, by decide +kernel,
    by decide +kernel⟩

/-- From the first step of the pass on, with the output at the bound at the end. -/
theorem test_meets_OutputStaysWithinTheRatio :
    decoding.Ready .uncompress ∧ decoding.regs.srcLen ≠ 1 ∧ (engineRun 2 (accept .uncompress decoding)).eng.olen = 0 ∧
      (engineRun 6 (accept .uncompress decoding)).eng.olen = 3 :=
  ⟨decoding_ready, by decide, by decide +kernel, by decide +kernel⟩

/-- The capacity is floor(n * R / 2^F) = 3. -/
theorem test_meets_UncompressCapacityThatSuffices :
    decoding.Ready .uncompress ∧ stepBound decoding.regs.srcLen ≤ decoding.env.pace ∧ 2 ≤ decoding.regs.srcLen.toNat ∧
      decoding.regs.srcLen.toNat * decoding.regs.ratio.toNat / 2 ^ decoding.params.frac ≤ decoding.regs.dstCap.toNat ∧
      exec .uncompress decoding = .next (after (exec .uncompress decoding)) :=
  ⟨decoding_ready, by decide, by decide, by decide, rfl⟩

/-- Four codes: j = 0 and the greatest j. -/
theorem test_meets_DecoderRebuildsTheEncodersTable :
    0 + 1 < (encoderTrace Params.hardware ababab).length ∧ 2 + 1 < (encoderTrace Params.hardware ababab).length := by decide

/-- Seven pad bits, zero (V-S2's stream) and not (V-U8's). -/
theorem test_meets_EveryStreamDecodesToItsInput :
    bytesBits [0x66, 0x33, 0x80] = encodedBits Params.hardware [0x66, 0x67] ++ List.replicate 7 false ∧
      bytesBits [0x61, 0x80, 0x7F] = encodedBits Params.hardware [0x61, 0x61, 0x61] ++ List.replicate 7 true ∧
      (List.replicate 7 true).length ≤ 7 := by decide

/-- UNCOMPRESS of what COMPRESS of "ababab" wrote, at another address, with ratio 2. -/
def back : State :=
  { machine 0x2000 [0x61, 0x31, 0x40, 0x20, 0x00] 0x3000 6 2 with mem := (after (exec .compress encoding)).mem }

theorem test_meets_RoundTrip :
    encoding.Ready .compress ∧ stepBound encoding.regs.srcLen ≤ encoding.env.pace ∧
      exec .compress encoding = .next (after (exec .compress encoding)) ∧
      (after (exec .compress encoding)).regs.result = .ok ∧ back.Ready .uncompress ∧
      stepBound back.regs.srcLen ≤ back.env.pace ∧ back.params = encoding.params ∧
      back.regs.srcLen = (after (exec .compress encoding)).regs.outLen ∧
      back.input = (after (exec .compress encoding)).mem.bytes encoding.regs.dstAddr.toNat
        (after (exec .compress encoding)).regs.outLen.toNat ∧
      encoding.regs.srcLen.toNat ≤ back.regs.dstCap.toNat ∧
      encoding.regs.srcLen.toNat * 2 ^ encoding.params.frac ≤
        (after (exec .compress encoding)).regs.outLen.toNat * back.regs.ratio.toNat :=
  ⟨encoding_ready, by decide, rfl, by decide +kernel,
    ⟨by decide, by decide, by decide, by decide, by decide, by decide⟩, by decide, by decide, by decide +kernel, by decide +kernel,
    by decide, by decide +kernel⟩

/-- V-G8: one byte at F = 8 with the ratio 0.5, which the guard would refuse. -/
def single : State := fractional 8 (machine 0x1000 [0x1F] 0x2000 1 0x80)

theorem test_meets_RoundTrip_of_one_byte :
    single.Ready .compress ∧ single.Ready .uncompress ∧ stepBound single.regs.srcLen ≤ single.env.pace ∧
      outcome 0x2000 (after (exec .compress single)) = (.ok, 1, [0x1F]) ∧
      outcome 0x2000 (after (exec .uncompress single)) = (.ok, 1, [0x1F]) :=
  ⟨⟨by decide, by decide, by decide, by decide, by decide, by decide⟩, ⟨by decide, by decide, by decide, by decide, by decide, by decide⟩,
    by decide, by decide +kernel, by decide +kernel⟩

/-! ## Hypotheses are met: the whole machine -/

theorem running_inv : running.Inv where
  mem   := by decide +kernel
  fits  := by constructor <;> decide +kernel
  clear := fun _ => by decide +kernel
  run   := fun _ => by
    have h : running.eng.stage = .loop ∧ running.eng.op = .compress := by decide +kernel
    unfold Engine.RunOk
    rw [h.1, h.2]
    exact ⟨by decide +kernel, by constructor <;> decide +kernel⟩

theorem reading_inv : reading.Inv where
  mem   := by decide +kernel
  fits  := by constructor <;> decide +kernel
  clear := fun _ => by decide +kernel
  run   := fun _ => by
    have h : reading.eng.stage = .loop ∧ reading.eng.op = .uncompress := by decide +kernel
    unfold Engine.RunOk
    rw [h.1, h.2]
    exact ⟨by decide +kernel, by constructor <;> decide +kernel⟩

/-- A turn in which the command completes, and one in which it only goes on. -/
theorem test_meets_StepKeepsInvariant :
    running.Inv ∧ reading.Inv ∧ step running = .next (after (step running)) ∧ (after (step running)).eng.busy = true ∧
      (engineRun 10 running).eng.busy = false :=
  ⟨running_inv, reading_inv, rfl, by decide +kernel, by decide +kernel⟩

theorem test_meets_BusyShowsNoResult : running.Inv ∧ running.eng.busy = true := ⟨running_inv, by decide +kernel⟩

/-- The platform completes no access. -/
def waiting (s : State) : State := { s with env := { s.env with port := .pending } }

/-- Each reason to complete (accesses that complete, an empty input, operands that fail the checks), a WAIT whose turn has no
engine step, and a command whose accesses do not complete. -/
theorem test_meets_EveryCommandCompletes :
    running.eng.busy = true ∧ running.env.port ≠ .pending ∧ reading.eng.busy = true ∧ reading.env.port ≠ .pending ∧
      (accept .compress (waiting (machine 0x1000 [] 0x2000 0 1))).eng.busy = true ∧
      (accept .compress (waiting (machine 0x1000 [] 0x2000 0 1))).eng.lLen = 0 ∧
      (waiting overlapping).eng.busy = true ∧ (waiting overlapping).eng.stage = .checks ∧
      (waiting overlapping).eng.configOk = false ∧
      (scheduled (.poll 0x0C 0x00000001 0x00000000) running).env.agenda =
        { move := .poll 0x0C 0x00000001 0x00000000, pace := 0, port := .completes } :: [] ∧
      (waiting encoding).eng.busy = false ∧ (waiting encoding).env.port = .pending ∧ (waiting encoding).regs.srcLen ≠ 0 ∧
      operandsLegal .compress 0x1000 6 0x2000 5 0 = true ∧
      windowsOnRegisters (waiting encoding).env.platform 0x1000 6 0x2000 5 = false := by decide +kernel

/-- R337: a POLL that repeats gives the engine a step, so a WAIT on a turn without steps ends. -/
theorem test_wait_on_pace_zero :
    let s := after (step (scheduled (.poll 0x0C 1 0) running))
    s.eng.busy = true ∧ s.env.agenda = [{ move := .poll 0x0C 1 0, pace := 1, port := .completes }] ∧
      (after (Host.Core.run Sys2Proof.core 10 s)).status = 0x00000102 := by decide +kernel

/-- R258: an access that does not complete keeps BUSY = 1; a command that makes none completes. -/
theorem test_pending_access :
    (engineRun 20 (accept .compress (waiting encoding))).eng.busy = true ∧
      (engineRun 20 (accept .uncompress (waiting decoding))).eng.busy = true ∧
      (engineRun 3 (accept .uncompress (waiting (machine 0x1000 [] 0x2000 0 1)))).status = 0x00000102 ∧
      (engineRun 1 (waiting overlapping)).status = 0x00000702 := by decide +kernel

/-- The byte after the window, and the one before it. -/
theorem test_meets_EngineWritesOnlyItsWindow :
    running.eng.inDst 0x2005 = false ∧ running.eng.inDst 0x1FFF = false ∧ running.eng.inDst 0x2004 = true ∧
      0x2005 ∉ running.env.touched ∧ 0x1FFF ∉ running.env.touched := by decide +kernel

theorem test_meets_RunningCommandIgnoresRegisterWrites :
    running.eng.busy = true ∧ ∀ o ∈ [0x04, 0x10, 0x14, 0x18, 0x1C, 0x20], o ∈ [0x04, 0x10, 0x14, 0x18, 0x1C, 0x20] ∧
      running.regs.write o 1 ≠ running.regs := by decide +kernel

/-- Both alternatives: the error that is reported, and the same machine with no report. -/
theorem test_meets_BusErrorOrTheErrorFreeOutcome :
    State.Ready .compress { rejecting with env := { rejecting.env with port := .completes } } ∧
      stepBound rejecting.regs.srcLen ≤ rejecting.env.pace ∧ rejecting.env.port = .error ∧ rejecting.env.port ≠ .pending ∧
      windowsRejected rejecting.env.platform 0x1000 6 0x2000 5 = true ∧
      (after (exec .compress rejecting)).regs.result = .errBus ∧
      (after (exec .compress { rejecting with env := { rejecting.env with port := .completes } })).regs.result = .ok :=
  ⟨⟨by decide, by decide, by decide, by decide, by decide, by decide⟩, by decide, by decide, by decide, by decide, by decide +kernel,
    by decide +kernel⟩

/-- The last byte of the source window rejects reads, the byte after it, and writes only; an empty input. -/
theorem test_rejected_windows :
    let pl := fun base r w =>
      { Platform.default with regions := [{ base := base, size := 1, rejectsRead := r, rejectsWrite := w }] }
    windowsRejected (pl 0x1005 true false) 0x1000 6 0x2000 5 = true ∧
      windowsRejected (pl 0x1006 true false) 0x1000 6 0x2000 5 = false ∧
      windowsRejected (pl 0x1005 false true) 0x1000 6 0x2000 5 = false ∧
      windowsRejected (pl 0x2000 false true) 0x1000 6 0x2000 5 = true ∧
      windowsRejected (pl 0x2000 false true) 0x1000 0 0x2000 5 = false := by decide

/-- A region that rejects both reads and writes just above the destination window, and an empty input. -/
theorem test_meets_NoBusErrorOnAcceptedWindows :
    (∀ r ∈ [({ base := 0x2005, size := 1, rejectsRead := true, rejectsWrite := true } : Region)], ∀ a,
      inRange r.base r.size a = true → (running.eng.inSrc a = true → r.rejectsRead = false) ∧
        (running.eng.inDst a = true → r.rejectsWrite = false)) ∧
      running.regs.result ≠ .errBus ∧ (machine 0x1000 [] 0x2000 0 1).eng.lLen = 0 := by
  have h : running.eng.inSrc 0x2005 = false ∧ running.eng.inDst 0x2005 = false := by decide +kernel
  refine ⟨fun r hr a ha => ?_, by decide +kernel, by decide⟩
  obtain rfl := List.mem_singleton.mp hr
  obtain rfl : a = 0x2005 := by simp only [inRange, Bool.and_eq_true, decide_eq_true_eq] at ha; omega
  simp [h.1, h.2]

/-- After a completed command, and before it: the engine's registers and the results differ. -/
def used : State := { encoding with eng := (engineRun 10 running).eng, regs := { encoding.regs with result := .errRatio } }

theorem test_meets_CommandsDependOnNoEarlierCommand :
    encoding.eng.busy = false ∧ used.eng.busy = false ∧ encoding.params = used.params ∧ encoding.mem = used.mem ∧
      encoding.env = used.env ∧
      encoding.regs = { used.regs with done := encoding.regs.done, result := encoding.regs.result, outLen := encoding.regs.outLen } ∧
      windowsOnRegisters encoding.env.platform encoding.regs.srcAddr.toNat encoding.regs.srcLen.toNat
        encoding.regs.dstAddr.toNat encoding.regs.dstCap.toNat = false ∧ encoding.eng ≠ used.eng := by decide +kernel

/-- The same input and capacity at other addresses. -/
def elsewhere : State := machine 0x8000 ababab 0xFFFFFFFB 5 0

theorem test_meets_OutcomeIsAFunctionOfTheInput :
    encoding.Ready .compress ∧ elsewhere.Ready .compress ∧ stepBound encoding.regs.srcLen ≤ encoding.env.pace ∧
      stepBound elsewhere.regs.srcLen ≤ elsewhere.env.pace ∧ encoding.params = elsewhere.params ∧
      encoding.input = elsewhere.input ∧ encoding.regs.dstCap = elsewhere.regs.dstCap ∧
      encoding.regs.ratio = elsewhere.regs.ratio :=
  ⟨encoding_ready, ⟨by decide, by decide, by decide, by decide, by decide, by decide⟩, by decide, by decide, by decide,
    by decide +kernel, by decide, by decide⟩

theorem test_meets_IdleCoreKeepsItsState :
    encoding.eng.busy = false ∧ running.eng.busy = true ∧ encoding.env.agenda = [] ∧ running.env.agenda = [] ∧
      (scheduled .idle encoding).env.agenda = { move := .idle, pace := 0, port := .completes } :: [] := by decide +kernel

theorem test_meets_ParametersNeverChange : step encoding = .next (after (step encoding)) := by rfl

/-- The top address of the space. -/
theorem test_meets_HostMemoryAccesses :
    encoding.eng.busy = false ∧ 0xFFFFFFFF < 2 ^ 32 ∧
      ({ Env.quiet with agenda := program 0 [.memWrite 0xFFFFFFFF 7, .memRead 0xFFFFFFFF] } : Env).agenda =
        { move := .memWrite 0xFFFFFFFF 7, pace := 0, port := .completes } ::
          { move := .memRead 0xFFFFFFFF, pace := 0, port := .completes } :: [] := by decide

/-- WAIT on an idle engine goes on, on a running one it repeats. -/
theorem test_meets_PollRepeatsUntilTheValue :
    (regOffset .status) % 4 = 0 ∧ regOffset .status < 0x40 ∧
      (scheduled (.poll 0x0C 1 0) encoding).env.agenda = { move := .poll 0x0C 1 0, pace := 0, port := .completes } :: [] ∧
      encoding.readReg 0x0C &&& 1 = 0 ∧ running.readReg 0x0C &&& 1 ≠ 0 := by decide +kernel

/-- The machine on a platform that is not coherent. -/
def caching (s : State) : State :=
  { s with env := { s.env with platform := { s.env.platform with coherent := false } } }

/-- A finished COMPRESS, whose output no STATUS read has ordered yet. -/
def finished : State := after (exec .compress encoding)

/-- Every clause: an acceptance on each platform, the STATUS read on each and while BUSY, another read, maintenance. -/
theorem test_meets_RegistersOrderMemoryAccesses :
    accepting.eng.busy = false ∧ accepting.env.pace = 0 ∧ accepting.env.platform.coherent = true ∧
      (caching accepting).env.shadow = [] ∧
      windowsOnRegisters accepting.env.platform accepting.regs.srcAddr.toNat accepting.regs.srcLen.toNat
        accepting.regs.dstAddr.toNat accepting.regs.dstCap.toNat = false ∧
      finished.eng.busy = false ∧ finished.regs.done = true ∧ running.eng.busy = true ∧ running.regs.done = false ∧
      (∀ o ∈ [0x0C, 0x24], (scheduled (.read o 4) finished).env.agenda =
        { move := .read o 4, pace := 0, port := .completes } :: []) ∧
      (scheduled .maintain (caching finished)).env.agenda =
        { move := .maintain, pace := 0, port := .completes } :: [] ∧
      finished.lagging 0x2005 = false ∧ finished.lagging 0x2004 = true := by decide +kernel

/-- A write into the output of the last command, before any STATUS read, and then the next command. -/
theorem test_meets_RegistersOrderMemoryAccesses_of_write :
    finished.eng.busy = false ∧ inWindows finished.env.unseen 0x2004 = true ∧ finished.env.platform.coherent = true ∧
      windowsOnRegisters finished.env.platform finished.regs.srcAddr.toNat finished.regs.srcLen.toNat
        finished.regs.dstAddr.toNat finished.regs.dstCap.toNat = false ∧
      ({ Env.quiet with agenda := program 0 [.memWrite 0x2004 7, wr32 .cmd (encode .compress)] } : Env).agenda =
        { move := .memWrite 0x2004 7, pace := 0, port := .completes } ::
          { move := wr32 .cmd (encode .compress), pace := 0, port := .completes } :: [] := by decide +kernel

/-- R71, R256: the host's write after completion is the later one, STATUS read or not. -/
theorem test_write_after_completion_lands :
    let t := after (step (scheduled (.memWrite 0x2004 7) finished))
    t.mem.read 0x2004 = 7 ∧ t.lagging 0x2004 = false ∧ t.lagging 0x2003 = true := by decide +kernel

/-- R71, R69: the output lags until the STATUS read, on a platform that is not coherent until maintenance after it; a
command that ends with ERR_CONFIG leaves no byte lagging. -/
theorem test_status_read_orders :
    let seen := fun s => after (step (scheduled (rd32 .status) s))
    finished.env.unseen = [(0x2000, 5)] ∧ (seen finished).lagging 0x2000 = false ∧
      (after (step (scheduled (rd32 .outLen) finished))).lagging 0x2000 = true ∧
      (seen (caching finished)).lagging 0x2000 = true ∧ (seen (caching finished)).lagging 0x2005 = false ∧
      (after (step (scheduled .maintain (seen (caching finished))))).lagging 0x2000 = false ∧
      (after (step (scheduled .maintain (caching finished)))).lagging 0x2000 = true ∧
      (engineRun 9 overlapping).env.unseen = [] := by decide +kernel

/-- R71, R72: maintenance while a command runs makes a host write outside the windows visible, and not one that races. -/
theorem test_maintenance_while_busy :
    let t := hostMaintain (hostMemWrite 0x1005 7 (hostMemWrite 0x3000 7 (caching running)))
    olderValues (t.env.racing ++ t.env.shadow) 0x3000 = [] ∧ olderValues (t.env.racing ++ t.env.shadow) 0x1005 = [0x62] := by
  decide +kernel

end Sys2Proof.Tests
end

/-! Parameters and platform (log entry 9): no move of the host and no engine step changes them. -/

namespace Sys2Proof.Machine

@[simp] theorem hostPoll_params (t : Turn) (o : Nat) (mask value : Word) (s : State) :
    (hostPoll t o mask value s).params = s.params := by
  unfold hostPoll; dsimp only; split <;> rfl

@[simp] theorem hostPoll_env_platform (t : Turn) (o : Nat) (mask value : Word) (s : State) :
    (hostPoll t o mask value s).env.platform = s.env.platform := by
  unfold hostPoll; dsimp only; split <;> rfl

@[simp] theorem illegalCommand_params (s : State) : (illegalCommand s).params = s.params := by
  unfold illegalCommand; split <;> rfl

@[simp] theorem illegalCommand_env (s : State) : (illegalCommand s).env = s.env := by
  unfold illegalCommand; split <;> rfl

theorem Moved.params {tr : Turn} {s u : State} (h : Moved tr s u) : u.params = s.params := by
  cases h with
  | poll o mask value => exact hostPoll_params tr o mask value s
  | illegal => exact illegalCommand_params s
  | resetDone => exact (resetCore_kept s).1
  | _ => rfl

theorem Moved.platform {tr : Turn} {s u : State} (h : Moved tr s u) : u.env.platform = s.env.platform := by
  cases h with
  | poll o mask value => exact hostPoll_env_platform tr o mask value s
  | illegal => rw [illegalCommand_env]
  | resetDone =>
    obtain ⟨-, -, -, hplatform⟩ := resetCore_kept s
    exact hplatform
  | _ => rfl

theorem step_params {s t : State} (h : step s = .next t) : t.params = s.params := by
  obtain ⟨u, hmove, rfl⟩ := step_cases h
  calc (engineRun s.turn.pace u).params
      = u.params := (engineRun_kept _ u).params
    _ = s.beginTurn.params := hmove.params
    _ = s.params := beginTurn_params s

theorem step_env_platform {s t : State} (h : step s = .next t) : t.env.platform = s.env.platform := by
  obtain ⟨u, hmove, rfl⟩ := step_cases h
  calc (engineRun s.turn.pace u).env.platform
      = u.env.platform := (engineRun_kept _ u).platform
    _ = s.beginTurn.env.platform := hmove.platform
    _ = s.env.platform := beginTurn_env_platform s

/-- Settles O57: the host's move of a turn keeps both, and so does every engine step after it. -/
theorem parametersNeverChange : Obligations.ParametersNeverChange := by
  unfold Obligations.ParametersNeverChange
  intro s t h
  exact ⟨step_params h, step_env_platform h⟩

end Sys2Proof.Machine

/-! The invariant of the machine (spec/10_state.md R38, R44): the host's moves and the engine's steps keep it. -/

namespace Sys2Proof.Machine

/-! ## Memory's canonical form -/

theorem outByte_mem_wf (v : Byte) {s : State} (h : s.mem.wf = true) : (outByte v s).mem.wf = true := by
  rw [outByte_mem]
  split
  · exact Memory.wf_write _ _ _ h
  · exact h

theorem drain_mem_wf (n : Nat) {s : State} (h : s.mem.wf = true) : (drain n s).mem.wf = true := by
  induction n generalizing s with
  | zero => exact h
  | succ n ih => exact ih (outByte_mem_wf _ h)

theorem emit_mem_wf (c : Nat) {s : State} (h : s.mem.wf = true) : (emit c s).mem.wf = true := drain_mem_wf _ h

theorem flush_mem_wf {s : State} (h : s.mem.wf = true) : (flush s).mem.wf = true := by
  unfold flush
  split
  · exact outByte_mem_wf _ h
  · exact h

theorem encStep_mem_wf (b : Byte) {s : State} (h : s.mem.wf = true) : (encStep b s).mem.wf = true := by
  unfold encStep
  split
  · exact h
  · exact emit_mem_wf _ h

theorem releaseWindow_mem_wf (opened : Bool) (ws : List (Nat × Nat)) {s : State} (h : s.mem.wf = true) :
    (s.releaseWindow opened ws).mem.wf = true := by
  rw [releaseWindow_mem]
  apply Memory.wf_openList
  cases opened with
  | true => exact Memory.wf_openWindows _ _ _ h
  | false => exact h

theorem resetCore_mem_wf {s : State} (h : s.mem.wf = true) : (resetCore s).mem.wf = true := by
  cases hb : s.eng.busy with
  | true => rw [resetCore_busy hb]; exact releaseWindow_mem_wf _ _ h
  | false => rw [resetCore_idle hb]; exact h

/-! ## The bit writer's counters (R152, R153) -/

/-- Between two of the writer's operations fewer than eight bits are pending, and the codes emitted so far had at most 16
bits each. -/
structure Engine.WriterOk (e : Engine) : Prop where
  nacc : e.nacc ≤ 7
  acc  : e.acc < 2 ^ e.nacc
  olen : 8 * e.olen + e.nacc ≤ 16 * e.i

theorem Engine.EncoderOk.writerOk {e : Engine} (h : e.EncoderOk) : e.WriterOk := ⟨h.nacc, h.acc, h.olen⟩

theorem drain_counters (n : Nat) (s : State) :
    (drain n s).eng.nacc = s.eng.nacc - 8 * n ∧ (drain n s).eng.olen = s.eng.olen + n := by
  induction n generalizing s with
  | zero => exact ⟨rfl, rfl⟩
  | succ n ih =>
    obtain ⟨hnacc, holen⟩ := ih (drainByte s)
    rw [drain, hnacc, holen, drainByte_eng_nacc, drainByte_eng_olen]
    omega

/-- Draining a byte drops the bits that went into it. -/
theorem drain_acc_lt (n : Nat) (s : State) : (drain (n + 1) s).eng.acc < 2 ^ (drain (n + 1) s).eng.nacc := by
  induction n generalizing s with
  | zero =>
    simp only [drain, drainByte_eng_acc, drainByte_eng_nacc, Nat.and_two_pow_sub_one_eq_mod]
    exact Nat.mod_lt _ (Nat.two_pow_pos _)
  | succ n ih => exact ih (drainByte s)

/-- EMIT's code appended to the pending bits (R152), before any byte is drained. -/
def pend (c : Nat) (s : State) : State :=
  { s with eng := { s.eng with
      acc := (s.eng.acc <<< codeWidth s.params s.eng.i) ||| c
      nacc := s.eng.nacc + codeWidth s.params s.eng.i } }

theorem emit_eq (c : Nat) (s : State) : emit c s =
    { drain ((pend c s).eng.nacc / 8) (pend c s) with
      eng := { (drain ((pend c s).eng.nacc / 8) (pend c s)).eng with
        i := (drain ((pend c s).eng.nacc / 8) (pend c s)).eng.i + 1 } } := rfl

@[simp] theorem pend_eng_nacc (c : Nat) (s : State) :
    (pend c s).eng.nacc = s.eng.nacc + codeWidth s.params s.eng.i := rfl

/-- A code has at least eight bits, so EMIT drains at least one byte; what is left has fewer than eight bits. -/
theorem emit_writerOk (c : Nat) {s : State} (h : s.eng.WriterOk) : (emit c s).eng.WriterOk := by
  obtain ⟨hnacc, -, holen⟩ := h
  obtain ⟨hlow, hhigh⟩ := codeWidth_bounds s.params s.eng.i
  obtain ⟨n, hn⟩ : ∃ n, (pend c s).eng.nacc / 8 = n + 1 :=
    ⟨(pend c s).eng.nacc / 8 - 1, by rw [pend_eng_nacc]; omega⟩
  obtain ⟨hnacc', holen'⟩ := drain_counters (n + 1) (pend c s)
  obtain ⟨-, -, -, heng⟩ := drain_frame (n + 1) (pend c s)
  have hi : (drain (n + 1) (pend c s)).eng.i = s.eng.i := by rw [heng]; rfl
  have ho : (pend c s).eng.olen = s.eng.olen := rfl
  rw [pend_eng_nacc] at hn hnacc'
  rw [emit_eq, pend_eng_nacc, hn]
  refine ⟨?_, drain_acc_lt n (pend c s), ?_⟩
  · show (drain (n + 1) (pend c s)).eng.nacc ≤ 7
    omega
  · show 8 * (drain (n + 1) (pend c s)).eng.olen + (drain (n + 1) (pend c s)).eng.nacc ≤
      16 * ((drain (n + 1) (pend c s)).eng.i + 1)
    omega

theorem flush_writerOk {s : State} (h : s.eng.WriterOk) : (flush s).eng.WriterOk := by
  unfold flush
  split
  case isTrue hpending =>
    obtain ⟨hnacc, hacc, holen⟩ := h
    refine ⟨Nat.zero_le _, Nat.one_pos, ?_⟩
    show 8 * (s.eng.olen + 1) + 0 ≤ 16 * s.eng.i
    omega
  · exact h

/-- Where fewer than 2^32 codes were emitted the writer's registers fit their widths (R38). -/
theorem Engine.WriterOk.fits {p : Params} {e : Engine} (h : e.WriterOk) (hi : e.i < 2 ^ 32)
    (htable : freeOf e.table ≤ p.dictSize) (hS : e.S < p.dictSize) (hk : e.k < 2 ^ 33) (hprev : e.prev < p.dictSize)
    (hbitpos : e.bitpos < 2 ^ 35) : e.Fits p := by
  obtain ⟨hnacc, hacc, holen⟩ := h
  have hpow : 2 ^ e.nacc ≤ 2 ^ 7 := Nat.pow_le_pow_right (by decide) hnacc
  exact { table := htable, S := hS, k := hk, prev := hprev, i := by omega, bitpos := hbitpos
          acc := by omega, nacc := by omega, olen := by omega }

/-! ## The invariant of a state that goes on, and of one that ends its command -/

theorem Engine.runOk_start {e : Engine} (hs : e.stage = .start) : e.RunOk ↔ e.configOk = true := by
  simp [Engine.RunOk, hs]

theorem Engine.runOk_compress {e : Engine} (hs : e.stage = .loop) (ho : e.op = .compress) :
    e.RunOk ↔ e.configOk = true ∧ e.EncoderOk := by simp [Engine.RunOk, hs, ho]

theorem Engine.runOk_uncompress {e : Engine} (hs : e.stage = .loop) (ho : e.op = .uncompress) :
    e.RunOk ↔ e.configOk = true ∧ e.DecoderOk := by simp [Engine.RunOk, hs, ho]

theorem Engine.EncoderOk.runOk {e : Engine} (h : e.EncoderOk) (hc : e.configOk = true) (hs : e.stage = .loop)
    (ho : e.op = .compress) : e.RunOk := (Engine.runOk_compress hs ho).mpr ⟨hc, h⟩

theorem Engine.DecoderOk.runOk {e : Engine} (h : e.DecoderOk) (hc : e.configOk = true) (hs : e.stage = .loop)
    (ho : e.op = .uncompress) : e.RunOk := (Engine.runOk_uncompress hs ho).mpr ⟨hc, h⟩

/-- The invariant speaks of parameters, registers, engine and memory alone. -/
theorem State.Inv.of_eq {s t : State} (h : s.Inv) (hp : t.params = s.params) (hr : t.regs = s.regs) (he : t.eng = s.eng)
    (hm : t.mem = s.mem) : t.Inv where
  mem := by rw [hm]; exact h.mem
  fits := by rw [he, hp]; exact h.fits
  clear := by rw [he, hr]; exact h.clear
  run := by rw [he]; exact h.run

/-- After a completion only the memory's form and the widths are left to hold. -/
theorem finish_inv (r : Result) {s : State} (hm : s.mem.wf = true) (hf : s.eng.Fits s.params) : (finish r s).Inv where
  mem := releaseWindow_mem_wf _ _ hm
  fits := ⟨hf.table, hf.S, hf.k, hf.prev, hf.i, hf.bitpos, hf.acc, hf.nacc, hf.olen⟩
  clear h := by cases h
  run h := by cases h

theorem Goes.inv {s t : State} (g : Goes s t) (h : s.Inv) (hm : t.mem.wf = true) (hf : t.eng.Fits t.params)
    (hr : t.eng.RunOk) : t.Inv where
  mem := hm
  fits := hf
  clear hb := by rw [g.regs]; exact h.clear (g.busy.symm.trans hb)
  run _ := hr

/-! ## The engine's steps -/

theorem engineChecks_inv {s : State} (h : s.Inv) : (engineChecks s).Inv := by
  unfold engineChecks
  split
  case isTrue hc =>
    have g : Goes s { s with eng := { s.eng with stage := .start } } := goes_eng rfl rfl rfl rfl rfl rfl rfl
    obtain ⟨htable, hS, hk, hprev, hi, hbitpos, hacc, hnacc, holen⟩ := h.fits
    exact g.inv h h.mem ⟨htable, hS, hk, hprev, hi, hbitpos, hacc, hnacc, holen⟩ ((Engine.runOk_start rfl).mpr hc)
  · exact finish_inv _ h.mem h.fits

theorem compressResult_inv {s : State} (hm : s.mem.wf = true) (hf : s.eng.Fits s.params) : (compressResult s).Inv := by
  rw [compressResult_eq]
  split
  · exact finish_inv _ hm hf
  · exact finish_inv _ hm hf

theorem compressStart_inv {s : State} (h : s.Inv) (ho : s.eng.op = .compress) (hc : s.eng.configOk = true) :
    (compressStart s).Inv := by
  have hsize := s.params.dictSize_ge
  have hf := h.fits
  have hfree : freeOf [] ≤ s.params.dictSize := by rw [freeOf_nil]; omega
  unfold compressStart
  simp only
  split
  · refine compressResult_inv h.mem (Engine.WriterOk.fits ?_ ?_ hfree hf.S hf.k hf.prev hf.bitpos)
    · exact ⟨Nat.zero_le 7, Nat.one_pos, Nat.le_refl 0⟩
    · exact Nat.two_pow_pos 32
  case isFalse hlen =>
    have hbyte := (s.engineRead s.eng.lSrc.toNat).isLt
    have henc : Engine.EncoderOk { s.eng with
        table := [], acc := 0, nacc := 0, olen := 0, i := 0
        S := (s.engineRead s.eng.lSrc.toNat).toNat, k := 1, stage := .loop } :=
      { table := rfl, distinct := rfl, S := hbyte, kPos := Nat.le_refl 1, kMax := Nat.one_le_iff_ne_zero.mpr hlen
        i := Nat.one_pos, nacc := Nat.zero_le 7, acc := Nat.one_pos, olen := Nat.le_refl 0 }
    have g : Goes s { s with eng := { s.eng with
        table := [], acc := 0, nacc := 0, olen := 0, i := 0
        S := (s.engineRead s.eng.lSrc.toNat).toNat, k := 1, stage := .loop } } :=
      goes_eng rfl rfl rfl rfl rfl rfl rfl
    refine g.inv h h.mem (henc.writerOk.fits ?_ hfree ?_ ?_ hf.prev hf.bitpos) (henc.runOk hc rfl ho)
    · exact Nat.two_pow_pos 32
    · exact Nat.lt_of_lt_of_le hbyte hfree
    · exact Nat.one_lt_two_pow (by decide)

theorem uncompressStart_inv {s : State} (h : s.Inv) (ho : s.eng.op = .uncompress) (hc : s.eng.configOk = true) :
    (uncompressStart s).Inv := by
  have hsize := s.params.dictSize_ge
  have hf := h.fits
  have g : Goes s (uncompressStart s) := goes_eng rfl rfl rfl rfl rfl rfl rfl
  have hfits : (uncompressStart s).eng.Fits s.params :=
    { table := show 256 ≤ s.params.dictSize by omega, S := hf.S, k := hf.k, prev := hf.prev, i := Nat.two_pow_pos 33
      bitpos := Nat.two_pow_pos 35, acc := hf.acc, nacc := hf.nacc, olen := Nat.two_pow_pos 33 }
  have hdec : (uncompressStart s).eng.DecoderOk :=
    { table := rfl, bitpos := Nat.zero_le _, codes := Nat.le_refl 0, olen := Nat.zero_le _, prev := nofun }
  exact g.inv h h.mem hfits (hdec.runOk hc rfl ho)

theorem engineStart_inv {s : State} (h : s.Inv) (hc : s.eng.configOk = true) : (engineStart s).Inv := by
  unfold engineStart
  split
  case h_1 ho => exact compressStart_inv h ho hc
  case h_2 ho => exact uncompressStart_inv h ho hc

/-! ## The encoder's loop -/

theorem emit_eng (c : Nat) (s : State) : (emit c s).eng =
    { s.eng with acc := (emit c s).eng.acc, nacc := (emit c s).eng.nacc, olen := (emit c s).eng.olen, i := s.eng.i + 1 } := by
  obtain ⟨-, -, -, heng⟩ := emit_frame c s
  exact heng

@[simp] theorem emit_eng_table (c : Nat) (s : State) : (emit c s).eng.table = s.eng.table := by rw [emit_eng]
@[simp] theorem emit_eng_S (c : Nat) (s : State) : (emit c s).eng.S = s.eng.S := by rw [emit_eng]
@[simp] theorem emit_eng_k (c : Nat) (s : State) : (emit c s).eng.k = s.eng.k := by rw [emit_eng]
@[simp] theorem emit_eng_prev (c : Nat) (s : State) : (emit c s).eng.prev = s.eng.prev := by rw [emit_eng]
@[simp] theorem emit_eng_i (c : Nat) (s : State) : (emit c s).eng.i = s.eng.i + 1 := by rw [emit_eng]
@[simp] theorem emit_eng_bitpos (c : Nat) (s : State) : (emit c s).eng.bitpos = s.eng.bitpos := by rw [emit_eng]

/-- What the encoder's order bounds, with fewer than 2^32 input bytes. -/
theorem Engine.EncoderOk.counts_lt {e : Engine} (h : e.EncoderOk) : e.i + 1 < 2 ^ 32 ∧ e.k < 2 ^ 33 := by
  have hlen := e.lLen.isLt
  obtain ⟨-, -, -, -, hkMax, hi, -, -, -⟩ := h
  omega

theorem freeOf_dictInsert_le (p : Params) (t : List Entry) (c : Nat) (b : Byte) (h : freeOf t ≤ p.dictSize) :
    freeOf (dictInsert p t c b) ≤ p.dictSize := by
  rw [freeOf_dictInsert]
  split <;> omega

/-- The state in which ENC_STEP takes the next symbol: it counts as read (R181). -/
def consumed (s : State) : State := { s with eng := { s.eng with k := s.eng.k + 1 } }

theorem consumed_goes (s : State) : Goes s (consumed s) := goes_eng rfl rfl rfl rfl rfl rfl rfl

/-- ENC_STEP (R126) keeps the encoder in order: a match is a code of the table, and a pair that is inserted was not in
it. -/
theorem encStep_encoderOk (b : Byte) {s : State} (h : s.eng.EncoderOk) (hk : s.eng.k < s.eng.lLen.toNat) :
    (encStep b (consumed s)).eng.EncoderOk := by
  obtain ⟨htable, hdistinct, hS, hkPos, hkMax, hi, hnacc, hacc, holen⟩ := h
  unfold encStep
  split
  case h_1 c hf =>
    obtain ⟨-, hc, -, -⟩ := dictFind_spec htable hf
    exact { table := htable, distinct := hdistinct, S := hc, kPos := Nat.le_add_left 1 _, kMax := hk
            i := Nat.lt_succ_of_lt hi, nacc := hnacc, acc := hacc, olen := holen }
  case h_2 hf =>
    obtain ⟨hnacc', hacc', holen'⟩ : (emit (consumed s).eng.S (consumed s)).eng.WriterOk :=
      emit_writerOk _ ⟨hnacc, hacc, holen⟩
    have hlen : (emit (consumed s).eng.S (consumed s)).eng.lLen = s.eng.lLen :=
      ((consumed_goes s).trans (emit_goes _ _)).lLen
    refine { table := ?_, distinct := ?_, S := ?_, kPos := ?_, kMax := ?_, i := ?_
             nacc := hnacc', acc := hacc', olen := holen' }
    · simp only [emit_eng_table]
      exact tableOk_dictInsert _ _ _ b htable hS
    · simp only [emit_eng_table]
      exact tableDistinct_dictInsert _ _ _ b hdistinct hf
    · exact Nat.lt_of_lt_of_le b.isLt (le_freeOf _)
    · simp [consumed]
    · simp only [emit_eng_k, hlen]
      exact hk
    · simpa [consumed] using hi

theorem freeOf_encStep_le (b : Byte) (s : State) (h : freeOf s.eng.table ≤ s.params.dictSize) :
    freeOf (encStep b s).eng.table ≤ s.params.dictSize := by
  unfold encStep
  split
  · exact h
  · simpa using freeOf_dictInsert_le _ _ _ b h

/-- ENC_STEP leaves the decoder's registers alone. -/
theorem encStep_decoder (b : Byte) (s : State) :
    (encStep b s).eng.prev = s.eng.prev ∧ (encStep b s).eng.bitpos = s.eng.bitpos := by
  unfold encStep
  split
  · exact ⟨rfl, rfl⟩
  · exact ⟨emit_eng_prev _ _, emit_eng_bitpos _ _⟩

theorem encStep_inv (b : Byte) {s : State} (h : s.Inv) (ho : s.eng.op = .compress) (hs : s.eng.stage = .loop)
    (hc : s.eng.configOk = true) (he : s.eng.EncoderOk) (hk : s.eng.k < s.eng.lLen.toNat) :
    (encStep b (consumed s)).Inv := by
  have g : Goes s (encStep b (consumed s)) := (consumed_goes s).trans (encStep_goes b _)
  have he' := encStep_encoderOk b he hk
  have htable := freeOf_encStep_le b (consumed s) h.fits.table
  obtain ⟨hprev, hbitpos⟩ := encStep_decoder b (consumed s)
  obtain ⟨hstage, -⟩ := encStep_stage b (consumed s)
  obtain ⟨hi, hk'⟩ := he'.counts_lt
  refine g.inv h (encStep_mem_wf b h.mem) ?_ (he'.runOk (g.configOk.trans hc) (hstage.trans hs) (g.op.trans ho))
  rw [g.params]
  exact he'.writerOk.fits (by omega) htable (Nat.lt_of_lt_of_le he'.S htable) hk' (hprev ▸ h.fits.prev)
    (hbitpos ▸ h.fits.bitpos)

/-- The end of the pass (R181): the last code's emission and the flush leave the registers in their widths. -/
theorem flush_emit_fits {s : State} (hf : s.eng.Fits s.params) (he : s.eng.EncoderOk) :
    (flush (emit s.eng.S s)).eng.Fits s.params := by
  have hw := flush_writerOk (emit_writerOk s.eng.S he.writerOk)
  obtain ⟨-, -, -, heng⟩ := flush_frame (emit s.eng.S s)
  obtain ⟨hi, -⟩ := he.counts_lt
  apply hw.fits <;> rw [heng]
  · simpa using hi
  · simpa using hf.table
  · simpa using hf.S
  · simpa using hf.k
  · simpa using hf.prev
  · simpa using hf.bitpos

theorem compressLoop_inv {s : State} (h : s.Inv) (ho : s.eng.op = .compress) (hs : s.eng.stage = .loop)
    (hc : s.eng.configOk = true) (he : s.eng.EncoderOk) : (compressLoop s).Inv := by
  unfold compressLoop
  split
  case isTrue hk => exact encStep_inv _ h ho hs hc he hk
  · refine compressResult_inv (flush_mem_wf (emit_mem_wf _ h.mem)) ?_
    rw [(flush_goes _).params, (emit_goes _ _).params]
    exact flush_emit_fits h.fits he

/-! ## The decoder's loop -/

/-- The number that `n` bits write has `n` bits. -/
theorem readBits_lt (byte : Nat → Byte) (t n : Nat) : readBits byte t n 0 < 2 ^ n := by
  have hbits : ∀ j, j < n → ((List.range n).map fun j => (byte ((t + j) / 8)).getLsbD (7 - (t + j) % 8))[j]? =
      some ((byte ((t + j) / 8)).getLsbD (7 - (t + j) % 8)) := fun j hj => by simp [hj]
  rw [readBits_eq byte _ t n 0 hbits, Nat.zero_mul, Nat.zero_add]
  exact Nat.lt_of_lt_of_eq (bitsValue_lt _) (by simp)

theorem brCode_lt (s : State) : brCode s < 2 ^ codeWidth s.params s.eng.i := readBits_lt _ _ _

theorem tableOk_decGrow (p : Params) {t : List Entry} {i prev : Nat} (cur : List Byte) (ht : tableOk t = true)
    (hprev : 1 ≤ i → prev < freeOf t) : tableOk (decGrow p t i prev cur) = true := by
  unfold decGrow
  split
  case isTrue hi => exact tableOk_dictInsert _ _ _ _ ht (hprev hi)
  · exact ht

theorem freeOf_decGrow_le (p : Params) (t : List Entry) (i prev : Nat) (cur : List Byte) (h : freeOf t ≤ p.dictSize) :
    freeOf (decGrow p t i prev cur) ≤ p.dictSize := by
  unfold decGrow
  split
  · exact freeOf_dictInsert_le _ _ _ _ h
  · exact h

/-- A code that DICT_RESOLVE accepts is defined once the decoder has grown its table (R130, R131). -/
theorem dictResolve_lt_decGrow {p : Params} {t : List Entry} {i c prev : Nat} {cur : List Byte}
    (h : dictResolve p t i c prev = some cur) (h0 : i = 0 → c < 256) : c < freeOf (decGrow p t i prev cur) := by
  unfold dictResolve at h
  unfold decGrow
  split at h
  case isTrue hi => exact Nat.lt_of_lt_of_le (h0 hi) (le_freeOf _)
  case isFalse hi =>
    rw [if_pos (Nat.one_le_iff_ne_zero.mpr hi), freeOf_dictInsert]
    split at h
    · split <;> omega
    · split at h
      case isTrue hfree => rw [if_pos hfree.2]; omega
      · cases h

/-- The state in which UNCOMPRESS appends a code's sequence: the code is read and the table has grown (R213). -/
def resolved (cur : List Byte) (s : State) : State :=
  { brAdvance s with eng := { (brAdvance s).eng with
      table := decGrow s.params s.eng.table s.eng.i s.eng.prev cur } }

theorem resolved_goes (cur : List Byte) (s : State) : Goes s (resolved cur s) :=
  (brAdvance_goes s).trans (goes_eng rfl rfl rfl rfl rfl rfl rfl)

/-- The reader stays within the stream, and every code has at least eight bits (R157, R158). -/
theorem brAdvance_counts {s : State} (hd : s.eng.DecoderOk) (hw : codeWidth s.params s.eng.i ≤ brAvail s.eng) :
    (brAdvance s).eng.bitpos ≤ 8 * s.eng.lLen.toNat ∧ 8 * (brAdvance s).eng.i ≤ (brAdvance s).eng.bitpos := by
  obtain ⟨hwidth, -⟩ := codeWidth_bounds s.params s.eng.i
  have hbitpos := hd.bitpos
  have hcodes := hd.codes
  unfold brAvail at hw
  rw [brAdvance_eng_bitpos, brAdvance_eng_i]
  omega

theorem brAdvance_fits {s : State} (hf : s.eng.Fits s.params) (hd : s.eng.DecoderOk)
    (hw : codeWidth s.params s.eng.i ≤ brAvail s.eng) : (brAdvance s).eng.Fits s.params := by
  obtain ⟨hbitpos, hcodes⟩ := brAdvance_counts hd hw
  have hlen := s.eng.lLen.isLt
  exact { table := hf.table, S := hf.S, k := hf.k, prev := hf.prev, i := by omega, bitpos := by omega
          acc := hf.acc, nacc := hf.nacc, olen := hf.olen }

theorem resolved_fits (cur : List Byte) {s : State} (hf : s.eng.Fits s.params) (hd : s.eng.DecoderOk)
    (hw : codeWidth s.params s.eng.i ≤ brAvail s.eng) : (resolved cur s).eng.Fits s.params := by
  obtain ⟨htable, hS, hk, hprev, hi, hbitpos, hacc, hnacc, holen⟩ := brAdvance_fits hf hd hw
  exact ⟨freeOf_decGrow_le _ _ _ _ _ htable, hS, hk, hprev, hi, hbitpos, hacc, hnacc, holen⟩

/-- Bytes appended within the capacity stay in the destination window (R219). -/
theorem append_goes (c : Nat) (cur : List Byte) (s : State) (hcap : s.eng.olen + cur.length ≤ s.eng.lCap.toNat) :
    Goes s { s with
      mem := s.mem.writeSeq (s.eng.lDst.toNat + s.eng.olen) cur
      eng := { s.eng with olen := s.eng.olen + cur.length, prev := c } } := by
  refine ⟨rfl, rfl, rfl, rfl, rfl, rfl, rfl, rfl, rfl, rfl, fun a ha => ?_⟩
  refine Memory.read_writeSeq_outside _ _ _ _ ?_
  simp only [Engine.inDst, inRange, Bool.and_eq_false_iff, decide_eq_false_iff_not] at ha
  omega

/-- A resolved code is appended, or fails on a guard (R216); either way the invariant holds. -/
theorem uncompressAppend_inv {s : State} (h : s.Inv) (ho : s.eng.op = .uncompress) (hs : s.eng.stage = .loop)
    (hc : s.eng.configOk = true) (hd : s.eng.DecoderOk) (hw : codeWidth s.params s.eng.i ≤ brAvail s.eng)
    {cur : List Byte} (hr : dictResolve s.params s.eng.table s.eng.i (brCode s) s.eng.prev = some cur) :
    (uncompressAppend (brCode s) cur (resolved cur s)).Inv := by
  have hf := resolved_fits cur h.fits hd hw
  obtain ⟨hbitpos, hcodes⟩ := brAdvance_counts hd hw
  unfold uncompressAppend
  simp only
  split
  · exact finish_inv _ h.mem hf
  · split
    · exact finish_inv _ h.mem hf
    case isFalse hcap =>
      have hprev : brCode s < freeOf (resolved cur s).eng.table :=
        dictResolve_lt_decGrow hr fun h0 => by simpa [h0, codeWidth_zero] using brCode_lt s
      have hlt := (resolved cur s).eng.lCap.isLt
      have g := (resolved_goes cur s).trans (append_goes (brCode s) cur _ (Nat.not_lt.mp hcap))
      refine g.inv h (Memory.wf_writeSeq _ _ _ h.mem) ?_ (Engine.DecoderOk.runOk ?_ ?_ hs ho)
      · exact { table := hf.table, S := hf.S, k := hf.k, prev := Nat.lt_of_lt_of_le hprev hf.table, i := hf.i
                bitpos := hf.bitpos, acc := hf.acc, nacc := hf.nacc, olen := by show _ + _ < _; omega }
      · exact { table := tableOk_decGrow _ _ hd.table hd.prev, bitpos := hbitpos, codes := hcodes
                olen := Nat.not_lt.mp hcap, prev := fun _ => hprev }
      · exact hc

theorem uncompressLoop_inv {s : State} (h : s.Inv) (ho : s.eng.op = .uncompress) (hs : s.eng.stage = .loop)
    (hc : s.eng.configOk = true) (hd : s.eng.DecoderOk) : (uncompressLoop s).Inv := by
  unfold uncompressLoop
  split
  · unfold uncompressEnd
    split
    · exact finish_inv _ h.mem h.fits
    · exact finish_inv _ h.mem h.fits
  case isFalse hw =>
    have hw := Nat.not_lt.mp hw
    simp only
    split
    · exact finish_inv _ h.mem (brAdvance_fits h.fits hd hw)
    case h_2 cur hr => exact uncompressAppend_inv h ho hs hc hd hw hr

/-! ## Every step -/

theorem engineLoop_inv {s : State} (h : s.Inv) (hb : s.eng.busy = true) (hs : s.eng.stage = .loop) :
    (engineLoop s).Inv := by
  have hrun := h.run hb
  unfold engineLoop
  split
  case h_1 ho =>
    obtain ⟨hc, he⟩ := (Engine.runOk_compress hs ho).mp hrun
    exact compressLoop_inv h ho hs hc he
  case h_2 ho =>
    obtain ⟨hc, hd⟩ := (Engine.runOk_uncompress hs ho).mp hrun
    exact uncompressLoop_inv h ho hs hc hd

theorem State.onPort_inv {s next : State} (h : s.Inv) (hn : next.Inv) : (s.onPort next).Inv := by
  rcases s.onPort_cases next with e | e | e <;> rw [e]
  · exact finish_inv _ h.mem h.fits
  · exact h
  · exact hn

theorem engineStep_inv {s : State} (h : s.Inv) : (engineStep s).Inv := by
  cases hb : s.eng.busy with
  | false => rwa [engineStep_idle s hb]
  | true =>
    unfold engineStep
    rw [if_neg (by simp [hb])]
    split
    · exact engineChecks_inv h
    case h_2 hs => exact State.onPort_inv h (engineStart_inv h ((Engine.runOk_start hs).mp (h.run hb)))
    case h_3 hs => exact State.onPort_inv h (engineLoop_inv h hb hs)

theorem engineRun_inv (n : Nat) {s : State} (h : s.Inv) : (engineRun n s).Inv := by
  induction n generalizing s with
  | zero => exact h
  | succ n ih => exact ih (engineStep_inv h)

/-- No register write sets a result or OUT_LEN, or DONE (R260, R261). -/
theorem Regs.write_results (r : Regs) (o : Nat) (v : Word) :
    (r.write o v).result = r.result ∧ (r.write o v).outLen = r.outLen ∧ (r.done = false → (r.write o v).done = false) := by
  unfold Regs.write
  split <;> simp +contextual

theorem accept_inv (op : Op) {s : State} (h : s.Inv) : (accept op s).Inv := by
  obtain ⟨htable, hS, hk, hprev, hi, hbitpos, hacc, hnacc, holen⟩ := h.fits
  exact
    { mem := h.mem, fits := ⟨htable, hS, hk, hprev, hi, hbitpos, hacc, hnacc, holen⟩
      clear := fun _ => ⟨rfl, rfl, rfl⟩, run := fun _ => trivial }

theorem resetCore_inv {s : State} (h : s.Inv) : (resetCore s).Inv := by
  have hsize := s.params.dictSize_ge
  obtain ⟨hparams, -, -, -⟩ := resetCore_kept s
  refine { mem := resetCore_mem_wf h.mem, fits := ?_, clear := nofun, run := nofun }
  rw [hparams]
  exact { table := show 256 ≤ s.params.dictSize by omega, S := show 0 < s.params.dictSize by omega
          k := Nat.two_pow_pos 33, prev := show 0 < s.params.dictSize by omega, i := Nat.two_pow_pos 33
          bitpos := Nat.two_pow_pos 35, acc := Nat.two_pow_pos 23, nacc := Nat.two_pow_pos 5, olen := Nat.two_pow_pos 33 }

/-- The host's move of a turn keeps the invariant. -/
theorem Moved.inv {tr : Turn} {s u : State} (hmove : Moved tr s u) (h : s.Inv) : u.Inv := by
  cases hmove with
  | nothing => exact h
  | read | memRead | maintained => exact h.of_eq rfl rfl rfl rfl
  | poll o mask value => unfold hostPoll; simp only; split <;> exact h.of_eq rfl rfl rfl rfl
  | write o v =>
    obtain ⟨hresult, houtLen, hdone⟩ := s.regs.write_results o v
    refine { mem := h.mem, fits := h.fits, clear := fun hb => ?_, run := h.run }
    obtain ⟨hd, hr, hl⟩ := h.clear hb
    exact ⟨hdone hd, hresult.trans hr, houtLen.trans hl⟩
  | accepted op => exact accept_inv op h
  | illegal hb =>
    rw [illegalCommand, if_neg (by simp [hb])]
    exact { mem := h.mem, fits := h.fits, clear := fun hbusy => absurd hbusy (by simp [hb]), run := h.run }
  | memWrite a v => exact { mem := Memory.wf_write _ _ _ h.mem, fits := h.fits, clear := h.clear, run := h.run }
  | resetDone => exact resetCore_inv h

/-- Settles O46: the host's move of a turn keeps the invariant, and so does every engine step after it. -/
theorem stepKeepsInvariant : Obligations.StepKeepsInvariant := by
  unfold Obligations.StepKeepsInvariant
  intro s t h hstep
  obtain ⟨u, hmove, rfl⟩ := step_cases hstep
  exact engineRun_inv _ (hmove.inv (h.of_eq rfl rfl rfl rfl))

end Sys2Proof.Machine

/-! The outcome of a command as a function of its operands and its input bytes alone (spec/10_state.md R45). -/

namespace Sys2Proof.Machine

/-- RESULT, and the output bytes on OK, as R45 has them: a function of the operands and the input alone. -/
def commandOutcome (op : Op) (p : Params) (input : List Byte) (cap ratio : Nat) : Result × List Byte :=
  match op with
  | .compress =>
    (compressVerdict input.length (encodedLength p input) cap,
      (List.range (encodedLength p input)).map (byteAt (encodedBits p input)))
  | .uncompress => decodeStream p (uncompressGuard p input.length ratio cap) input

/-- The host finds the outcome `o` in the registers and, on OK, in memory from `dst` on. -/
structure State.Shows (t : State) (dst : Nat) (o : Result × List Byte) : Prop where
  result : t.regs.result = o.1
  outLen : t.regs.outLen = if o.1 = .ok then BitVec.ofNat 32 o.2.length else 0
  output : o.1 = .ok → t.mem.bytes dst t.regs.outLen.toNat = o.2

theorem compressVerdict_ok {L E cap : Nat} (h : compressVerdict L E cap = .ok) : E ≤ cap := by
  unfold compressVerdict at h
  split at h
  · cases h
  · split at h
    · cases h
    · omega

/-- A command that ends OK leaves memory as its pass wrote it, but for bytes the host wrote meanwhile (R69, R72). -/
theorem finish_ok_mem {s : State} (h : s.env.touched = []) : (finish .ok s).mem = s.mem := by
  rw [finish_mem, releaseWindow_mem, h]
  rfl

/-- A length that fits a window is a register's value. -/
theorem toNat_ofNat_of_le {n : Nat} {cap : Word} (h : n ≤ cap.toNat) : (BitVec.ofNat 32 n).toNat = n := by
  have hcap := cap.isLt
  rw [BitVec.toNat_ofNat, Nat.mod_eq_of_lt (by omega)]

/-- Memory that holds the bytes `out` from `dst` on gives them back. -/
theorem bytes_eq {m : Memory} {dst : Nat} {out : List Byte} (h : ∀ k, k < out.length → m.read (dst + k) = out.getD k 0) :
    m.bytes dst out.length = out := by
  refine List.ext_getElem (by simp [Memory.bytes]) fun k _ hk => ?_
  simp [Memory.bytes, h k hk, hk]

/-- A completion shows its result, and the output that is in memory (R256). -/
theorem finish_shows {s : State} {dst : Nat} {cap : Word} {o : Result × List Byte} (ht : s.env.touched = [])
    (hlen : o.1 = .ok → s.regs.outLen = BitVec.ofNat 32 o.2.length ∧ o.2.length ≤ cap.toNat)
    (hmem : o.1 = .ok → ∀ k, k < o.2.length → s.mem.read (dst + k) = o.2.getD k 0) : (finish o.1 s).Shows dst o := by
  obtain ⟨r, out⟩ := o
  refine ⟨rfl, ?_, fun hr => ?_⟩
  · rw [finish_regs, complete_outLen]
    split
    case isTrue hr => exact (hlen hr).1
    · rfl
  · obtain rfl : r = .ok := hr
    obtain ⟨houtLen, hcap⟩ := hlen rfl
    rw [finish_ok_mem ht, finish_regs, complete_outLen, if_pos rfl, houtLen, toNat_ofNat_of_le hcap]
    exact bytes_eq (hmem rfl)

/-- A byte of a window that is known to hold `f 0`, `f 1` and so on. -/
theorem read_window {m : Memory} {dst n : Nat} {f g : Nat → Byte}
    (h : ∀ a, m.read a = if inRange dst n a = true then f (a - dst) else g a) {k : Nat} (hk : k < n) :
    m.read (dst + k) = f k := by
  rw [h, if_pos (by simp [inRange, hk]), Nat.add_sub_cancel_left]

/-- Acceptance clears the list of destination bytes the host wrote, and no step of the pass adds to it. -/
theorem Goes.touched {op : Op} {s u : State} (h : Goes (started op s) u) : u.env.touched = [] := congrArg Env.touched h.env

theorem compress_shows (s : State) (h : s.Ready .compress) :
    (engineRun (stepBound s.regs.srcLen) (accept .compress s)).eng.busy = false ∧
      (engineRun (stepBound s.regs.srcLen) (accept .compress s)).Shows s.regs.dstAddr.toNat
        (commandOutcome .compress s.params s.input s.regs.dstCap.toNat s.regs.ratio.toNat) := by
  obtain ⟨u, hrun, hgoes, holen, hread⟩ := compress_run s h
  have hlen : u.eng.lLen.toNat = s.input.length := by rw [hgoes.lLen, length_input]; rfl
  have hcap : u.eng.lCap = s.regs.dstCap := hgoes.lCap
  have hend := hrun.trans (compressResult_eq u)
  rw [hlen, holen, hcap] at hend
  have hidle : (engineRun (s.regs.srcLen.toNat + 2) (accept .compress s)).eng.busy = false := by rw [hend]; rfl
  rw [engineRun_of_le (show _ ≤ stepBound s.regs.srcLen from Nat.le_succ _) _ hidle]
  refine ⟨hidle, ?_⟩
  rw [hend]
  split
  case isTrue hr =>
    have hfit := compressVerdict_ok hr
    refine finish_shows (cap := s.regs.dstCap)
      (o := commandOutcome .compress s.params s.input s.regs.dstCap.toNat s.regs.ratio.toNat)
      hgoes.touched (fun _ => ?_) (fun _ k hk => ?_)
    · simpa [commandOutcome] using hfit
    · rw [Nat.min_eq_left hfit] at hread
      simp only [commandOutcome, List.length_map, List.length_range] at hk
      exact (read_window hread hk).trans (by simp [commandOutcome, hk])
  case isFalse hr =>
    exact finish_shows (cap := s.regs.dstCap)
      (o := commandOutcome .compress s.params s.input s.regs.dstCap.toNat s.regs.ratio.toNat)
      hgoes.touched (fun hok => absurd hok hr) (fun hok => absurd hok hr)

theorem uncompress_shows (s : State) (h : s.Ready .uncompress) :
    (engineRun (stepBound s.regs.srcLen) (accept .uncompress s)).eng.busy = false ∧
      (engineRun (stepBound s.regs.srcLen) (accept .uncompress s)).Shows s.regs.dstAddr.toNat
        (commandOutcome .uncompress s.params s.input s.regs.dstCap.toNat s.regs.ratio.toNat) := by
  obtain ⟨u, hrun, ⟨hgoes, -, -⟩, hok⟩ := uncompress_run s h
  have hreads : decodeStream s.params
      (uncompressGuard s.params s.regs.srcLen.toNat s.regs.ratio.toNat s.regs.dstCap.toNat) s.input =
      commandOutcome .uncompress s.params s.input s.regs.dstCap.toNat s.regs.ratio.toNat := by
    rw [commandOutcome, length_input]
  rw [hreads] at hrun hok
  rw [stepBound, hrun]
  refine ⟨rfl, finish_shows (cap := s.regs.dstCap) (show u.env.touched = [] from hgoes.touched) (fun hr => ?_)
    (fun hr k hk => ?_)⟩
  · obtain ⟨houtLen, hcap, -⟩ := hok hr
    exact ⟨houtLen, hcap⟩
  · obtain ⟨-, -, hread⟩ := hok hr
    exact read_window (f := (List.getD _ · 0)) hread hk

/-- A command whose outcome is determined completes in its turn and shows the outcome of the pure functions. -/
theorem exec_shows {i : Instr} {op : Op} (hi : (i = .compress ∧ op = .compress) ∨ (i = .uncompress ∧ op = .uncompress))
    (s : State) (h : s.Ready op) (hp : stepBound s.regs.srcLen ≤ s.env.pace) :
    ∃ t, exec i s = .next t ∧ t.Shows s.regs.dstAddr.toNat
      (commandOutcome op s.params s.input s.regs.dstCap.toNat s.regs.ratio.toNat) := by
  obtain ⟨hidle, hshows⟩ : (engineRun (stepBound s.regs.srcLen) (accept op s)).eng.busy = false ∧
      (engineRun (stepBound s.regs.srcLen) (accept op s)).Shows s.regs.dstAddr.toNat
        (commandOutcome op s.params s.input s.regs.dstCap.toNat s.regs.ratio.toNat) := by
    cases op with
    | compress => exact compress_shows s h
    | uncompress => exact uncompress_shows s h
  exact ⟨_, exec_ready hi s h hp hidle, hshows⟩

/-- Settles O55: each machine shows the outcome of the same pure function, at the same arguments. -/
theorem outcomeIsAFunctionOfTheInput : Obligations.OutcomeIsAFunctionOfTheInput := by
  unfold Obligations.OutcomeIsAFunctionOfTheInput
  intro s s' i op hi h h' hp hp' hparams hinput hcap hratio
  obtain ⟨t, ht, hresult, houtLen, houtput⟩ := exec_shows hi s h hp
  obtain ⟨t', ht', hresult', houtLen', houtput'⟩ := exec_shows hi s' h' hp'
  rw [← hparams, ← hinput, ← hcap, ← hratio] at hresult' houtLen' houtput'
  refine ⟨t, t', ht, ht', hresult.trans hresult'.symm, houtLen.trans houtLen'.symm, fun hok => ?_⟩
  rw [hresult] at hok
  exact (houtput hok).trans (houtput' hok).symm

end Sys2Proof.Machine

/-! The registers the host sees (spec/10_state.md R24 to R44): what they show, and what writes of them do while a command
runs. -/

namespace Sys2Proof.Machine

/-! ## Turns of the schedule -/

/-- A scheduled turn is the host's move on the state in which the turn has begun. -/
theorem step_of_agenda {s : State} {t : Turn} {rest : List Turn} (h : s.env.agenda = t :: rest) :
    step s = applyMove t s.beginTurn := by
  have hturn : s.turn = t := by rw [State.turn, h]; rfl
  rw [step, hturn]

theorem regAccessOk_eq_false {o b : Nat} (h : b ≠ 4 ∨ o % 4 ≠ 0 ∨ 0x40 ≤ o) : regAccessOk o b = false := by
  rw [← Bool.not_eq_true, regAccessOk_iff]
  omega

/-- Settles O11: every register access of the host passes the test of R23 first. -/
theorem unsupportedRegisterAccessRefused : Obligations.UnsupportedRegisterAccessRefused := by
  unfold Obligations.UnsupportedRegisterAccessRefused
  intro s o bytes v mask value t rest h
  rw [step_of_agenda h]
  refine ⟨fun hbad hmove => ?_, fun hbad hmove => ?_⟩
  · have hok := regAccessOk_eq_false hbad
    rcases hmove with hmove | hmove <;> simp [applyMove, hmove, hok]
  · have hok := regAccessOk_eq_false (b := 4) (.inr hbad)
    simp [applyMove, hmove, hok]

/-! ## Writes of CTRL and STATUS -/

theorem write_ctrl (r : Regs) (v : Word) : r.write (regOffset .ctrl) v = { r with irqEn := v.getLsbD 0 } := rfl

theorem write_status (r : Regs) (v : Word) :
    r.write (regOffset .status) v = { r with done := r.done && !v.getLsbD 1 } := rfl

/-- The acknowledge (R261). -/
theorem write_status_set (r : Regs) {v : Word} (h : v.getLsbD 1 = true) :
    r.write (regOffset .status) v = { r with done := false } := by simp [write_status, h]

theorem write_status_clear (r : Regs) {v : Word} (h : v.getLsbD 1 = false) : r.write (regOffset .status) v = r := by
  rw [write_status, h, Bool.not_false, Bool.and_true]

/-- Settles O12: CTRL holds the level's mask and STATUS.DONE its source. -/
theorem interruptIsALevel : Obligations.InterruptIsALevel := by
  unfold Obligations.InterruptIsALevel
  intro s
  refine ⟨fun v => ⟨rfl, rfl⟩, fun v hv => ?_, fun v hv => write_status_clear s.regs hv⟩
  rw [show s.regs.write 0x0C v = { s.regs with done := false } from write_status_set s.regs hv]
  exact ⟨Bool.and_false _, rfl, rfl, rfl⟩

/-- Settles O13: the acknowledge clears DONE before the turn's engine steps, so a completion among them sets it. -/
theorem completionWinsOverAcknowledge : Obligations.CompletionWinsOverAcknowledge := by
  unfold Obligations.CompletionWinsOverAcknowledge
  intro s v pace port rest hb hv h
  have hstep : step s = settle { s.beginTurn with regs := { s.regs with done := false } } := by
    rw [step_of_agenda h, ← write_status_set s.regs hv]
    rfl
  refine ⟨_, hstep, ?_⟩
  rcases engineRun_cases s.beginTurn.env.pace { s.beginTurn with regs := { s.regs with done := false } } hb with
    ⟨hregs, hbusy⟩ | ⟨hidle, hdone, -, -⟩
  · exact ⟨fun hi => absurd (hbusy.symm.trans hi) (by decide), fun _ => congrArg Regs.done hregs⟩
  · exact ⟨fun _ => hdone, fun hi => absurd (hidle.symm.trans hi) (by decide)⟩

/-! ## The words the host reads -/

section
open BitVec (extractLsb'_append_eq_of_le extractLsb'_append_eq_right extractLsb'_eq_self)

/-- The fields of PARAM, each a part of the word that R24 writes out. -/
theorem paramWord_fields (p : Params) :
    (paramWord p).extractLsb' 0 5 = BitVec.ofNat 5 p.maxWidth ∧ (paramWord p).extractLsb' 5 3 = 0 ∧
      (paramWord p).extractLsb' 8 5 = BitVec.ofNat 5 p.frac ∧ (paramWord p).extractLsb' 13 19 = 0 := by
  refine ⟨extractLsb'_append_eq_right, ?_, ?_, ?_⟩
  · exact (extractLsb'_append_eq_of_le (by decide)).trans extractLsb'_append_eq_right
  · exact (extractLsb'_append_eq_of_le (by decide)).trans <|
      (extractLsb'_append_eq_of_le (by decide)).trans extractLsb'_append_eq_right
  · exact (extractLsb'_append_eq_of_le (by decide)).trans <|
      (extractLsb'_append_eq_of_le (by decide)).trans <|
        (extractLsb'_append_eq_of_le (by decide)).trans extractLsb'_eq_self

end

theorem frac_le (p : Params) : p.frac ≤ 16 := by unfold Params.frac; omega

/-- A value of at most 16 fits in five bits. -/
theorem toNat_ofNat_five {n : Nat} (h : n ≤ 16) : (BitVec.ofNat 5 n).toNat = n := by
  rw [BitVec.toNat_ofNat, Nat.mod_eq_of_lt (by omega)]

/-- Settles O7: M and F are at most 16, so their five-bit fields hold them. -/
theorem paramReadsTheParameters : Obligations.ParamReadsTheParameters := by
  unfold Obligations.ParamReadsTheParameters
  intro s v
  obtain ⟨hm, hlow, hf, hhigh⟩ := paramWord_fields s.params
  refine ⟨?_, hlow, ?_, hhigh, fun h => ?_, rfl⟩
  · exact (congrArg BitVec.toNat hm).trans (toNat_ofNat_five s.params.maxWidth_le)
  · exact (congrArg BitVec.toNat hf).trans (toNat_ofNat_five (frac_le s.params))
  · show paramWord s.params = 0x00000010
    rw [h]
    decide

/-- The fields of STATUS (R27), at every value of each. -/
theorem statusWord_fields (busy done : Bool) (r : Result) :
    (statusWord busy done r).getLsbD 0 = busy ∧ (statusWord busy done r).getLsbD 1 = done ∧
      (statusWord busy done r).extractLsb' 2 6 = 0 ∧ (statusWord busy done r).extractLsb' 12 20 = 0 ∧
      (statusWord busy done r).extractLsb' 8 4 = r.code := by
  cases busy <;> cases done <;> cases r <;> decide

/-- Settles O8: STATUS's fields, and RESULT's code as a number. -/
theorem statusShowsBusyDoneResult : Obligations.StatusShowsBusyDoneResult := by
  unfold Obligations.StatusShowsBusyDoneResult
  intro s
  obtain ⟨hbusy, hdone, hlow, hhigh, hresult⟩ := statusWord_fields s.eng.busy s.regs.done s.regs.result
  refine ⟨hbusy, hdone, hlow, hhigh, (congrArg BitVec.toNat hresult).trans ?_⟩
  cases s.regs.result <;> rfl

/-- Settles O48: the invariant holds the results clear while BUSY. -/
theorem busyShowsNoResult : Obligations.BusyShowsNoResult := by
  unfold Obligations.BusyShowsNoResult
  intro s h hb
  obtain ⟨hdone, hresult, houtLen⟩ := h.clear hb
  refine ⟨?_, houtLen, ?_⟩
  · show statusWord s.eng.busy s.regs.done s.regs.result = 1
    rw [hb, hdone, hresult]
    decide
  · rw [State.irq, hdone, Bool.and_false]

/-! ## Registers that no engine step uses (R39) -/

/-- A change of the registers that neither reads nor changes what a command sets: DONE, RESULT and OUT_LEN. -/
def Regs.Apart (f : Regs → Regs) : Prop :=
  ∀ (r : Regs) (done : Bool) (result : Result) (outLen : Word),
    f { r with done := done, result := result, outLen := outLen } =
      { f r with done := done, result := result, outLen := outLen }

theorem Regs.Apart.results {f : Regs → Regs} (hf : Regs.Apart f) (r : Regs) :
    (f r).done = r.done ∧ (f r).result = r.result ∧ (f r).outLen = r.outLen := by
  have h : f r = { f r with done := r.done, result := r.result, outLen := r.outLen } := hf r r.done r.result r.outLen
  rw [h]
  exact ⟨rfl, rfl, rfl⟩

theorem Regs.Apart.outLen {f : Regs → Regs} (hf : Regs.Apart f) (r : Regs) (x : Word) :
    { f r with outLen := x } = f { r with outLen := x } := by
  obtain ⟨hdone, hresult, -⟩ := hf.results r
  have h : f { r with outLen := x } = { f r with done := r.done, result := r.result, outLen := x } :=
    hf r r.done r.result x
  rw [h, ← hdone, ← hresult]

theorem Regs.Apart.complete {f : Regs → Regs} (hf : Regs.Apart f) (r : Result) (g : Regs) :
    Regs.complete r (f g) = f (Regs.complete r g) := by
  obtain ⟨-, -, houtLen⟩ := hf.results g
  rw [Regs.complete, houtLen]
  exact (hf g true r _).symm

/-- CTRL and the operand registers are apart from what a command sets. -/
theorem write_apart {o : Nat} (ho : o ∈ [0x04, 0x10, 0x14, 0x18, 0x1C, 0x20]) (v : Word) :
    Regs.Apart fun r => r.write o v := by
  intro r done result outLen
  simp only [List.mem_cons, List.not_mem_nil, or_false] at ho
  rcases ho with rfl | rfl | rfl | rfl | rfl | rfl <;> rfl

/-- The machine with its registers changed. -/
def State.mapRegs (f : Regs → Regs) (s : State) : State := { s with regs := f s.regs }

section
variable {f : Regs → Regs} (hf : Regs.Apart f) (s : State)

@[simp] theorem mapRegs_params : (s.mapRegs f).params = s.params := rfl
@[simp] theorem mapRegs_regs : (s.mapRegs f).regs = f s.regs := rfl
@[simp] theorem mapRegs_eng : (s.mapRegs f).eng = s.eng := rfl
@[simp] theorem mapRegs_mem : (s.mapRegs f).mem = s.mem := rfl
@[simp] theorem mapRegs_env : (s.mapRegs f).env = s.env := rfl
@[simp] theorem mapRegs_engineRead (a : Nat) : (s.mapRegs f).engineRead a = s.engineRead a := rfl
@[simp] theorem mapRegs_brCode : brCode (s.mapRegs f) = brCode s := rfl

theorem drain_mapRegs (n : Nat) : drain n (s.mapRegs f) = (drain n s).mapRegs f := by
  induction n generalizing s with
  | zero => rfl
  | succ n ih => exact ih (drainByte s)

theorem emit_mapRegs (c : Nat) : emit c (s.mapRegs f) = (emit c s).mapRegs f := by
  have hpend : pend c (s.mapRegs f) = (pend c s).mapRegs f := rfl
  rw [emit_eq, emit_eq, hpend, drain_mapRegs]
  rfl

theorem flush_mapRegs : flush (s.mapRegs f) = (flush s).mapRegs f := by
  unfold flush
  rw [mapRegs_eng]
  split <;> rfl

theorem encStep_mapRegs (b : Byte) : encStep b (s.mapRegs f) = (encStep b s).mapRegs f := by
  unfold encStep
  simp only [mapRegs_eng, emit_mapRegs]
  split <;> rfl

include hf

theorem written_mapRegs (r : Result) : (s.mapRegs f).written r = s.written r := by
  obtain ⟨-, -, houtLen⟩ := hf.results s.regs
  unfold State.written
  rw [mapRegs_regs, houtLen, mapRegs_eng]

theorem finish_mapRegs (r : Result) : finish r (s.mapRegs f) = (finish r s).mapRegs f := by
  unfold finish
  rw [written_mapRegs hf]
  exact congrArg (fun g => { finish r s with regs := g }) (hf.complete r s.regs)

theorem finish_ok_mapRegs (x : Word) : finish .ok { s.mapRegs f with regs := { (s.mapRegs f).regs with outLen := x } } =
    (finish .ok { s with regs := { s.regs with outLen := x } }).mapRegs f := by
  rw [← finish_mapRegs hf]
  exact congrArg (fun g => finish .ok { s with regs := g }) (hf.outLen s.regs x)

theorem compressResult_mapRegs : compressResult (s.mapRegs f) = (compressResult s).mapRegs f := by
  rw [compressResult_eq, compressResult_eq, mapRegs_eng]
  split
  case isTrue hr => rw [hr]; exact finish_ok_mapRegs hf s _
  · exact finish_mapRegs hf s _

theorem engineChecks_mapRegs : engineChecks (s.mapRegs f) = (engineChecks s).mapRegs f := by
  unfold engineChecks
  rw [mapRegs_eng]
  split
  · rfl
  · exact finish_mapRegs hf s _

theorem compressStart_mapRegs : compressStart (s.mapRegs f) = (compressStart s).mapRegs f := by
  unfold compressStart
  rw [mapRegs_eng]
  dsimp only
  split
  · exact compressResult_mapRegs hf { s with eng := { s.eng with table := [], acc := 0, nacc := 0, olen := 0, i := 0 } }
  · rfl

theorem compressLoop_mapRegs : compressLoop (s.mapRegs f) = (compressLoop s).mapRegs f := by
  unfold compressLoop
  rw [mapRegs_eng]
  split
  · exact encStep_mapRegs (consumed s) _
  · rw [emit_mapRegs, flush_mapRegs, compressResult_mapRegs hf]

theorem uncompressEnd_mapRegs : uncompressEnd (s.mapRegs f) = (uncompressEnd s).mapRegs f := by
  unfold uncompressEnd
  rw [mapRegs_eng]
  split
  · exact finish_ok_mapRegs hf s _
  · exact finish_mapRegs hf s _

theorem uncompressAppend_mapRegs (c : Nat) (cur : List Byte) :
    uncompressAppend c cur (s.mapRegs f) = (uncompressAppend c cur s).mapRegs f := by
  have hguard : (s.mapRegs f).guard = s.guard := rfl
  rw [uncompressAppend_eq, uncompressAppend_eq, hguard, mapRegs_eng]
  split
  · exact finish_mapRegs hf s _
  · rfl

theorem uncompressLoop_mapRegs : uncompressLoop (s.mapRegs f) = (uncompressLoop s).mapRegs f := by
  unfold uncompressLoop
  rw [mapRegs_eng, mapRegs_params, mapRegs_brCode]
  split
  · exact uncompressEnd_mapRegs hf s
  · dsimp only
    split
    · exact finish_mapRegs hf (brAdvance s) _
    case h_2 cur _ => exact uncompressAppend_mapRegs hf (resolved cur s) _ cur

theorem engineStart_mapRegs : engineStart (s.mapRegs f) = (engineStart s).mapRegs f := by
  unfold engineStart
  rw [mapRegs_eng]
  split
  · exact compressStart_mapRegs hf s
  · rfl

theorem engineLoop_mapRegs : engineLoop (s.mapRegs f) = (engineLoop s).mapRegs f := by
  unfold engineLoop
  rw [mapRegs_eng]
  split
  · exact compressLoop_mapRegs hf s
  · exact uncompressLoop_mapRegs hf s

theorem onPort_mapRegs (next : State) : (s.mapRegs f).onPort (next.mapRegs f) = (s.onPort next).mapRegs f := by
  have herror : (s.mapRegs f).busError = s.busError := rfl
  have hstalled : (s.mapRegs f).stalled = s.stalled := rfl
  unfold State.onPort
  rw [herror, hstalled]
  split
  · exact finish_mapRegs hf s _
  · split <;> rfl

theorem engineStep_mapRegs : engineStep (s.mapRegs f) = (engineStep s).mapRegs f := by
  unfold engineStep
  rw [mapRegs_eng]
  split
  · rfl
  · split
    · exact engineChecks_mapRegs hf s
    · rw [engineStart_mapRegs hf, onPort_mapRegs hf]
    · rw [engineLoop_mapRegs hf, onPort_mapRegs hf]

/-- Changing such registers before a run or after it is the same. -/
theorem engineRun_mapRegs (n : Nat) : engineRun n (s.mapRegs f) = (engineRun n s).mapRegs f := by
  induction n generalizing s with
  | zero => rfl
  | succ n ih => rw [engineRun, engineStep_mapRegs hf, ih, engineRun]

end

/-- Settles O51: a write of CTRL or of an operand register passes through the engine's steps unchanged. -/
theorem runningCommandIgnoresRegisterWrites : Obligations.RunningCommandIgnoresRegisterWrites := by
  unfold Obligations.RunningCommandIgnoresRegisterWrites
  intro s n o v _ ho
  have hf := write_apart ho v
  have hrun : engineRun n { s with regs := s.regs.write o v } = (engineRun n s).mapRegs fun r => r.write o v :=
    engineRun_mapRegs hf s n
  obtain ⟨hdone, hresult, -⟩ := hf.results (engineRun n s).regs
  simp only
  rw [hrun]
  refine ⟨rfl, rfl, rfl, rfl, ?_, rfl⟩
  exact congrArg₂ (statusWord (engineRun n s).eng.busy) hdone hresult

end Sys2Proof.Machine

/-! The memory behind the memory port (spec/20_memory.md R60 to R76): the operand checks in terms of addresses, what the
engine leaves of memory, and how the registers order the accesses of host and engine. -/

namespace Sys2Proof.Machine

/-! ## Windows in terms of addresses -/

theorem inRange_iff (base size a : Nat) : inRange base size a = true ↔ base ≤ a ∧ a < base + size := by
  simp [inRange]

/-- Two ranges that meet share the greater of their bases. -/
theorem rangesMeet_iff (a n b m : Nat) :
    rangesMeet a n b m = true ↔ ∃ x, inRange a n x = true ∧ inRange b m x = true := by
  simp only [rangesMeet, inRange_iff, Bool.and_eq_true, decide_eq_true_eq]
  constructor
  · intro h
    exact ⟨max a b, by omega, by omega⟩
  · rintro ⟨x, hx, hx'⟩
    omega

theorem windowsLegal_iff (src len dst cap : Nat) : windowsLegal src len dst cap = true ↔
    src + len ≤ 2 ^ 32 ∧ dst + cap ≤ 2 ^ 32 ∧ ¬ ∃ a, inRange src len a = true ∧ inRange dst cap a = true := by
  rw [← rangesMeet_iff]
  simp [windowsLegal, and_assoc]

/-- Settles O20: the window checks of R63, and the ratio's for UNCOMPRESS. -/
theorem operandChecksInTermsOfAddresses : Obligations.OperandChecksInTermsOfAddresses := by
  unfold Obligations.OperandChecksInTermsOfAddresses
  intro op src len dst cap ratio
  cases op with
  | compress => simp [operandsLegal, windowsLegal_iff]
  | uncompress => simp [operandsLegal, windowsLegal_iff, and_assoc]

theorem windowsOnRegisters_iff (pl : Platform) (src len dst cap : Nat) : windowsOnRegisters pl src len dst cap = true ↔
    pl.mapsRegisters = true ∧ len ≠ 0 ∧
      ∃ a, inRange pl.regBase.toNat 0x40 a = true ∧ (inRange src len a = true ∨ inRange dst cap a = true) := by
  simp only [windowsOnRegisters, Bool.and_eq_true, Bool.or_eq_true, decide_eq_true_eq, rangesMeet_iff, and_assoc,
    ← exists_or, and_comm (b := inRange pl.regBase.toNat 0x40 _ = true), and_or_left]

theorem issue_refused {op : Op} {s : State} (hb : s.eng.busy = false)
    (hl : operandsLegal op s.regs.srcAddr s.regs.srcLen s.regs.dstAddr s.regs.dstCap s.regs.ratio = true)
    (hw : windowsOnRegisters s.env.platform s.regs.srcAddr.toNat s.regs.srcLen.toNat s.regs.dstAddr.toNat
      s.regs.dstCap.toNat = true) : issue op s = .refused .windowOnRegisters := by
  simp [issue, hb, hl, hw]

/-- Settles O18: the engine is idle and both tests of `issue` hold. -/
theorem windowOnOwnRegistersRefused : Obligations.WindowOnOwnRegistersRefused := by
  unfold Obligations.WindowOnOwnRegistersRefused
  refine ⟨windowsOnRegisters_iff, fun s i op hi hb hl hw => ?_⟩
  rw [exec_of_op hi, issue_refused hb hl hw]

/-! ## What the engine leaves of memory -/

/-- Settles O50: part of what every run keeps (`Kept`). -/
theorem engineWritesOnlyItsWindow : Obligations.EngineWritesOnlyItsWindow := by
  unfold Obligations.EngineWritesOnlyItsWindow
  intro s n a hdst htouched
  exact (engineRun_kept n s).outside a hdst htouched

/-- Operands that fail the checks are no ground for a refusal: the command is accepted, and its checks answer. -/
theorem issue_accepts_illegal {op : Op} {s : State} (hb : s.eng.busy = false)
    (hl : operandsLegal op s.regs.srcAddr s.regs.srcLen s.regs.dstAddr s.regs.dstCap s.regs.ratio = false) :
    issue op s = settle (accept op s) := by
  simp [issue, hb, hl]

theorem engineStep_checks_fail (s : State) (hb : s.eng.busy = true) (hs : s.eng.stage = .checks)
    (hc : s.eng.configOk = false) : engineStep s = finish .errConfig s := by
  simp [engineStep, engineChecks, hb, hs, hc]

/-- With illegal operands the first engine step ends the command, and it is the only one that does anything. -/
theorem exec_illegal {i : Instr} {op : Op}
    (hi : (i = .compress ∧ op = .compress) ∨ (i = .uncompress ∧ op = .uncompress))
    {s : State} (hb : s.eng.busy = false) (hp : 1 ≤ s.env.pace)
    (hl : operandsLegal op s.regs.srcAddr s.regs.srcLen s.regs.dstAddr s.regs.dstCap s.regs.ratio = false) :
    exec i s = .next (finish .errConfig (accept op s)) := by
  have hstep : engineRun 1 (accept op s) = finish .errConfig (accept op s) :=
    engineStep_checks_fail (accept op s) rfl rfl hl
  have hrun : engineRun s.env.pace (accept op s) = engineRun 1 (accept op s) :=
    engineRun_of_le hp _ (by rw [hstep]; rfl)
  rw [exec_of_op hi, issue_accepts_illegal hb hl, settle, accept_env_pace, hrun, hstep]

theorem accept_lagging (op : Op) (s : State) (a : Nat) : (accept op s).lagging a = s.lagging a := rfl

/-- Settles O21: ERR_CONFIG leaves no byte unspecified, and the command has written none that the host may not see. -/
theorem configErrorWritesNothing : Obligations.ConfigErrorWritesNothing := by
  unfold Obligations.ConfigErrorWritesNothing
  intro s i op hi hb hp hl
  refine ⟨_, exec_illegal hi hb hp hl, rfl, rfl, rfl, rfl, fun a => ?_⟩
  have hwritten : (accept op s).written .errConfig = [] := rfl
  rw [finish_lagging, hwritten, inWindows_nil, Bool.false_or, accept_lagging]

/-! ## The host's moves as turns -/

theorem settle_pace_zero {s : State} (h : s.env.pace = 0) : settle s = .next s := by
  rw [settle, h, engineRun]

section Turns

variable {s : State} {t : Turn} {rest : List Turn} (h : s.env.agenda = t :: rest)
include h

theorem beginTurn_pace_of_agenda : s.beginTurn.env.pace = t.pace := by
  rw [beginTurn_env_pace, State.turn, h]
  rfl

theorem beginTurn_agenda_of_agenda : s.beginTurn.env.agenda = rest := by
  rw [beginTurn_env_agenda, h]
  rfl

theorem step_read {o : Nat} (hp : t.pace = 0) (hm : t.move = .read o 4) (ho : o % 4 = 0) (ho' : o < 0x40) :
    step s = .next (hostRead o s.beginTurn) := by
  have hok : regAccessOk o 4 = true := (regAccessOk_iff o 4).mpr ⟨rfl, ho, ho'⟩
  rw [step_of_agenda h, applyMove, hm]
  simp only
  rw [if_pos hok]
  exact settle_pace_zero ((beginTurn_pace_of_agenda h).trans hp)

theorem step_memRead {a : Nat} (hp : t.pace = 0) (hm : t.move = .memRead a) (ha : a < 2 ^ 32) :
    step s = .next (hostMemRead a s.beginTurn) := by
  rw [step_of_agenda h, applyMove, hm]
  simp only
  rw [if_pos (show addressOk a = true from decide_eq_true ha)]
  exact settle_pace_zero ((beginTurn_pace_of_agenda h).trans hp)

theorem step_memWrite {a : Nat} {v : Byte} (hp : t.pace = 0) (hm : t.move = .memWrite a v) (ha : a < 2 ^ 32) :
    step s = .next (hostMemWrite a v s.beginTurn) := by
  rw [step_of_agenda h, applyMove, hm]
  simp only
  rw [if_pos (show addressOk a = true from decide_eq_true ha)]
  exact settle_pace_zero ((beginTurn_pace_of_agenda h).trans hp)

theorem step_maintain (hp : t.pace = 0) (hm : t.move = .maintain) : step s = .next (hostMaintain s.beginTurn) := by
  rw [step_of_agenda h, applyMove, hm]
  exact settle_pace_zero ((beginTurn_pace_of_agenda h).trans hp)

/-- A CMD write of a command's word is the command (R250, R93). -/
theorem step_cmd {i : Instr} (hm : t.move = wr32 .cmd (encode i)) : step s = exec i s.beginTurn := by
  rw [step_of_agenda h, applyMove, hm]
  cases i <;> rfl

end Turns

/-! ## The order of accesses (R71, R73) -/

/-- A byte the host wrote with the engine idle is what it sees there (R256, R71). -/
theorem hostByte_hostMemWrite {s : State} {a : Nat} {v : Byte} (hb : s.eng.busy = false) (ha : a < 2 ^ 32) :
    (hostMemWrite a v s).hostByte a = v := by
  have hseen : (hostMemWrite a v s).lagging a = false := by
    rw [hostMemWrite_lagging, decide_eq_false (by simp), Bool.and_false]
  rw [State.hostByte_seen (s := hostMemWrite a v s) hb hseen, hostMemWrite_mem, Memory.read_write_self _ _ _ ha]

/-- Settles O58: with the engine idle the two turns are the two accesses and nothing else. -/
theorem hostMemoryAccesses : Obligations.HostMemoryAccesses := by
  unfold Obligations.HostMemoryAccesses
  intro s a v port rest hb ha h
  have hread : (hostMemWrite a v s.beginTurn).env.agenda = { move := .memRead a, pace := 0, port := port } :: rest :=
    beginTurn_agenda_of_agenda h
  refine ⟨_, _, step_memWrite h rfl rfl ha, step_memRead hread rfl rfl ha, ?_, fun b hab => ?_, ?_, rfl, rfl, rfl⟩
  · exact Memory.read_write_self _ _ _ ha
  · exact Memory.read_write_ne _ _ _ _ hab
  · exact congrArg (BitVec.setWidth 32) (hostByte_hostMemWrite hb ha)

/-- A command accepted with every host write visible reads memory's byte everywhere (R71). -/
theorem engineRead_accept (op : Op) {s : State} (h : s.env.platform.coherent = true ∨ s.env.shadow = []) (a : Nat) :
    (accept op s).engineRead a = s.mem.read a := by
  refine engineRead_visible (accept op s) ?_ a
  rw [accept_env_racing, accept_env_shadow, List.nil_append]
  rcases h with h | h <;> simp [h]

/-- A command that is not refused, in a turn without engine steps: the acceptance alone. -/
theorem exec_accepts {i : Instr} {op : Op}
    (hi : (i = .compress ∧ op = .compress) ∨ (i = .uncompress ∧ op = .uncompress))
    {s : State} (hb : s.eng.busy = false) (hp : s.env.pace = 0)
    (hw : windowsOnRegisters s.env.platform s.regs.srcAddr.toNat s.regs.srcLen.toNat s.regs.dstAddr.toNat
      s.regs.dstCap.toNat = false) : exec i s = .next (accept op s) := by
  rw [exec_of_op hi, issue_accepts op s hb hw, settle_pace_zero (s := accept op s) hp]

theorem observes_iff (s : State) (o : Nat) :
    s.observes o = true ↔ o = 0x0C ∧ (s.eng.busy = false ∨ s.regs.done = true) := by
  simp only [State.observes, Bool.and_eq_true, Bool.or_eq_true, Bool.not_eq_true', decide_eq_true_eq]
  rfl

/-- A STATUS read that shows the end of a command orders all that was unseen; without coherence that waits for
maintenance (R71, R73). -/
theorem hostRead_lagging_of_observes {o : Nat} {s : State} (h : s.observes o = true) (a : Nat) :
    (hostRead o s).lagging a = if s.env.platform.coherent = true then inWindows s.env.stale a else s.lagging a := by
  cases hc : s.env.platform.coherent <;> simp [State.lagging, h, hc]

theorem hostRead_lagging_of_not_observes {o : Nat} {s : State} (h : ¬ s.observes o = true) (a : Nat) :
    (hostRead o s).lagging a = s.lagging a := by
  simp [State.lagging, h]

theorem hostMaintain_lagging (s : State) (a : Nat) : (hostMaintain s).lagging a = inWindows s.env.unseen a := by
  simp [State.lagging]

/-- Settles O60: a lemma for each of the accesses that order, and `State.hostByte_seen` for what the host then sees. -/
theorem registersOrderMemoryAccesses : Obligations.RegistersOrderMemoryAccesses := by
  unfold Obligations.RegistersOrderMemoryAccesses
  intro s port rest
  refine ⟨?command, ?writeThenCommand, ?read, ?maintain, fun a hb hseen => State.hostByte_seen hb hseen⟩
  case command =>
    intro i op hi hb hp hw hvisible
    exact ⟨_, exec_accepts hi hb hp hw, engineRead_accept op hvisible⟩
  case writeThenCommand =>
    intro i op a v hi hb ha hw hcoherent h
    have hcmd : (hostMemWrite a v s.beginTurn).env.agenda =
        { move := wr32 .cmd (encode i), pace := 0, port := port } :: rest := beginTurn_agenda_of_agenda h
    have haccept := exec_accepts hi (s := (hostMemWrite a v s.beginTurn).beginTurn) hb (beginTurn_pace_of_agenda hcmd) hw
    have hvisible := engineRead_accept op (s := (hostMemWrite a v s.beginTurn).beginTurn) (.inl hcoherent) a
    refine ⟨_, _, step_memWrite h rfl rfl ha, (step_cmd hcmd rfl).trans haccept, rfl, hvisible.trans ?_⟩
    exact Memory.read_write_self _ _ _ ha
  case read =>
    intro o ho ho' h
    refine ⟨_, step_read h rfl rfl ho ho', fun hends a => ?_, fun hends a => ?_⟩
    · exact hostRead_lagging_of_observes ((observes_iff s.beginTurn o).mpr hends) a
    · exact hostRead_lagging_of_not_observes (fun hobs => hends ((observes_iff s.beginTurn o).mp hobs)) a
  case maintain =>
    intro h
    exact ⟨_, step_maintain h rfl rfl, rfl, hostMaintain_lagging s.beginTurn⟩

end Sys2Proof.Machine

/-! The command word, the widths of the codes, streams too short to be well-formed, and POLL (spec/30_encoding.md R90 to
R104). -/

namespace Sys2Proof

/-! ## The command word -/

theorem decode_encode (i : Instr) : decode (encode i) = .ok i := by cases i <;> rfl

/-- Every value but the three of R90 is illegal (R91). -/
theorem decode_illegal {v : Word} (h0 : v ≠ 0x00000000) (h1 : v ≠ 0x00000001) (h2 : v ≠ 0x00000002) :
    decode v = .error (.illegalCommand v) := (if_neg h0).trans ((if_neg h1).trans (if_neg h2))

/-- A value is the word of a command, or illegal. -/
theorem decode_cases (v : Word) : (∃ i, v = encode i) ∨ decode v = .error (.illegalCommand v) := by
  by_cases h0 : v = encode .nop
  · exact .inl ⟨_, h0⟩
  by_cases h1 : v = encode .compress
  · exact .inl ⟨_, h1⟩
  by_cases h2 : v = encode .uncompress
  · exact .inl ⟨_, h2⟩
  exact .inr (decode_illegal h0 h1 h2)

theorem eq_encode_of_decode {v : Word} {i : Instr} (h : decode v = .ok i) : v = encode i := by
  rcases decode_cases v with ⟨j, rfl⟩ | herror
  · rw [decode_encode] at h
    rw [Except.ok.inj h]
  · rw [herror] at h
    cases h

/-- Settles O1: the words of the three commands, and `decode_illegal` for every other value. -/
theorem decodeIsTotal : Obligations.DecodeIsTotal := by
  unfold Obligations.DecodeIsTotal
  exact ⟨decode_encode .nop, decode_encode .compress, decode_encode .uncompress, fun _ => decode_illegal⟩

/-- Settles O2: a value that is no command's word is illegal. -/
theorem decodeAndEncodeAgree : Obligations.DecodeAndEncodeAgree := by
  unfold Obligations.DecodeAndEncodeAgree
  exact ⟨fun i _ => decode_encode i, fun _ _ => eq_encode_of_decode⟩

end Sys2Proof

namespace Sys2Proof.Machine

/-! ## The widths of the codes -/

/-- The width is the number of bits of the greatest code at the index (R96). -/
theorem codeWidth_eq {p : Params} {i w : Nat} (hlo : 2 ^ w ≤ min (255 + i) (p.dictSize - 1))
    (hhi : min (255 + i) (p.dictSize - 1) < 2 ^ (w + 1)) : codeWidth p i = w + 1 := by
  have hne : min (255 + i) (p.dictSize - 1) ≠ 0 := Nat.ne_of_gt (Nat.lt_of_lt_of_le (Nat.two_pow_pos w) hlo)
  rw [codeWidth, bitlen, (Nat.log2_eq_iff hne).mpr ⟨hlo, hhi⟩]

theorem codeWidth_mono (p : Params) {i j : Nat} (h : i ≤ j) : codeWidth p i ≤ codeWidth p j := by
  have hsize := p.dictSize_ge
  exact bitlen_mono (by omega) (by omega)

/-- At M = 16 the width grows by one where `255 + i` reaches the next power of two. -/
theorem codeWidth_hardware {i w : Nat} (hw : w ≤ 15) (hlo : 2 ^ w ≤ 255 + i) (hhi : 255 + i < 2 ^ (w + 1) ∨ w = 15) :
    codeWidth Params.hardware i = w + 1 := by
  have hsize : Params.hardware.dictSize - 1 = 2 ^ 16 - 1 := rfl
  have hpow : 2 ^ w ≤ 2 ^ 15 := Nat.pow_le_pow_right (by decide) hw
  refine codeWidth_eq (by omega) ?_
  rcases hhi with hhi | rfl <;> omega

/-- At M = 9 nine bits are both the least and the greatest width after the first code. -/
theorem codeWidth_nine {p : Params} (hM : p.maxWidth = 9) {i : Nat} (hi : 1 ≤ i) : codeWidth p i = 9 :=
  Nat.le_antisymm (hM ▸ codeWidth_le p i) (codeWidth_ge p i hi)

/-- Settles O33: each row of the table lies between two powers of two. -/
theorem widthTable : Obligations.WidthTable := by
  unfold Obligations.WidthTable
  refine fun i => ⟨?hardware, ?nine⟩
  case hardware =>
    split_ifs with h0 h9 h10 h11 h12 h13 h14 h15
    · rw [h0, codeWidth_zero]
    all_goals exact codeWidth_hardware (by decide) (by omega) (by omega)
  case nine =>
    split_ifs with h0
    · rw [h0, codeWidth_zero]
    · exact codeWidth_nine rfl (Nat.one_le_iff_ne_zero.mpr h0)

/-- Settles O34: the width of the first code, the bounds of the others, and that `bitlen` is monotone. -/
theorem widthsGrowWithinBounds : Obligations.WidthsGrowWithinBounds := by
  unfold Obligations.WidthsGrowWithinBounds
  exact fun p i j => ⟨codeWidth_zero p, fun hi => ⟨codeWidth_ge p i hi, codeWidth_le p i⟩, codeWidth_mono p⟩

/-! ## Streams of two bytes -/

/-- A whole byte or more that is no whole code cuts a code off (R99). -/
theorem decodeFrom_truncated (p : Params) (guard : Nat → Option Result) (fuel : Nat) {bits : List Bool} {i : Nat}
    (t : List Entry) (prev : Nat) (out : List Byte) (hcut : bits.length < codeWidth p i) (hbyte : 8 ≤ bits.length) :
    decodeFrom p guard (fuel + 1) bits i t prev out = (.errTruncated, []) := by
  rw [decodeFrom]
  simp only
  rw [if_pos hcut, if_neg (by omega)]

/-- The first code is a literal (R95, R130). -/
theorem dictResolve_zero (p : Params) (t : List Entry) (c prev : Nat) :
    dictResolve p t 0 c prev = some [BitVec.ofNat 8 c] := if_pos rfl

/-- After the first code of a stream of two bytes 8 bits are left, one too few for another code (R100). -/
theorem decodeStream_two (p : Params) (guard : Nat → Option Result) {stream : List Byte} (h : stream.length = 2) :
    decodeStream p guard stream = ((guard 1).getD .errTruncated, []) := by
  have hbits : (bytesBits stream).length = 16 := by rw [length_bytesBits, h]
  have hrest : ((bytesBits stream).drop 8).length = 8 := by rw [List.length_drop, hbits]
  have hwidth := codeWidth_ge p 1 (Nat.le_refl 1)
  rw [decodeStream, h, decodeFrom]
  simp only [codeWidth_zero, hbits, dictResolve_zero, List.length_nil, List.length_singleton, Nat.zero_add]
  rw [if_neg (by decide)]
  cases guard 1 with
  | some r => rfl
  | none => exact decodeFrom_truncated p guard 1 _ _ _ (by omega) (by omega)

/-- UNCOMPRESS, whose outcome is determined, completes in its turn and shows the decoding of its input. -/
theorem exec_uncompress_shows (s : State) (h : s.Ready .uncompress) (hp : stepBound s.regs.srcLen ≤ s.env.pace) :
    ∃ t, exec .uncompress s = .next t ∧ t.eng.busy = false ∧ t.Shows s.regs.dstAddr.toNat
      (decodeStream s.params (uncompressGuard s.params s.regs.srcLen.toNat s.regs.ratio.toNat s.regs.dstCap.toNat)
        s.input) := by
  obtain ⟨hidle, hshows⟩ := uncompress_shows s h
  rw [commandOutcome, length_input] at hshows
  exact ⟨_, exec_ready (.inr ⟨rfl, rfl⟩) s h hp hidle, hidle, hshows⟩

/-- R211: an UNCOMPRESS that passes its checks has a nonzero RATIO. -/
theorem State.Ready.ratio_pos {s : State} (h : s.Ready .uncompress) : 0 < s.regs.ratio.toNat := by
  obtain ⟨-, hratio⟩ := Bool.and_eq_true_iff.mp h.legal
  exact Nat.pos_of_ne_zero fun hzero => of_decide_eq_true hratio (BitVec.eq_of_toNat_eq hzero)

/-- The first byte of a stream passes the tests of R216 at F = 0 where there is room for it. -/
theorem uncompressGuard_one {p : Params} {n ratio cap : Nat} (hF : p.frac = 0) (hn : 0 < n) (hratio : 0 < ratio)
    (hcap : 1 ≤ cap) : uncompressGuard p n ratio cap 1 = none := by
  have hprod : 0 < n * ratio := Nat.mul_pos hn hratio
  rcases uncompressGuard_cases p n ratio cap 1 with ⟨hg, -⟩ | ⟨-, -, hover⟩ | ⟨-, hover, -⟩
  · exact hg
  · rw [hF] at hover
    omega
  · omega

/-- No test of R216 that fails gives OK. -/
theorem uncompressGuard_ne_ok (p : Params) (n ratio cap x : Nat) : uncompressGuard p n ratio cap x ≠ some .ok := by
  rcases uncompressGuard_cases p n ratio cap x with ⟨hg, -⟩ | ⟨hg, -⟩ | ⟨hg, -⟩ <;> rw [hg] <;> decide

/-- Settles O39: the tests on the first byte decide the outcome, or else the code that is cut off. -/
theorem twoByteStreamsAreTruncated : Obligations.TwoByteStreamsAreTruncated := by
  unfold Obligations.TwoByteStreamsAreTruncated
  intro s h hp hlen
  have hn : s.regs.srcLen.toNat = 2 := by rw [hlen]; rfl
  obtain ⟨t, ht, hidle, hresult, houtLen, -⟩ := exec_uncompress_shows s h hp
  rw [decodeStream_two s.params _ ((length_input s).trans hn), hn] at hresult houtLen
  have hok : t.regs.result ≠ .ok := by
    rw [hresult]
    cases hg : uncompressGuard s.params 2 s.regs.ratio.toNat s.regs.dstCap.toNat 1 with
    | none => decide
    | some r =>
      rintro rfl
      exact uncompressGuard_ne_ok _ _ _ _ _ hg
  refine ⟨t, ht, hidle, hok, houtLen.trans (if_neg (hresult ▸ hok)), fun hF hcap => ?_⟩
  rw [hresult, uncompressGuard_one hF (by decide) h.ratio_pos hcap]
  rfl

/-! ## POLL -/

theorem beginTurn_eq {s : State} {t : Turn} {rest : List Turn} (h : s.env.agenda = t :: rest) :
    s.beginTurn = { s with env := { s.env with agenda := rest, pace := t.pace, port := t.port } } := by
  simp [State.beginTurn, State.turn, h]

/-- POLL is its read, with the turn scheduled again while the value is another (R103). -/
theorem hostPoll_eq (t : Turn) (o : Nat) (mask value : Word) (s : State) : hostPoll t o mask value s =
    { hostRead o s with env := { (hostRead o s).env with
        agenda := if s.readReg o &&& mask = value then s.env.agenda else turnAgain t :: s.env.agenda } } := by
  unfold hostPoll
  dsimp only
  split <;> rfl

theorem step_poll {s : State} {t : Turn} {rest : List Turn} {o : Nat} {mask value : Word} (h : s.env.agenda = t :: rest)
    (hm : t.move = .poll o mask value) (ho : o % 4 = 0) (ho' : o < 0x40) :
    step s = settle (hostPoll t o mask value s.beginTurn) := by
  have hok : regAccessOk o 4 = true := (regAccessOk_iff o 4).mpr ⟨rfl, ho, ho'⟩
  rw [step_of_agenda h, applyMove, hm]
  simp only
  rw [if_pos hok]

/-- Settles O59: the turn is the poll and its engine steps, which keep the schedule and the data read. -/
theorem pollRepeatsUntilTheValue : Obligations.PollRepeatsUntilTheValue := by
  unfold Obligations.PollRepeatsUntilTheValue
  intro s o pace mask value port rest ho ho' h read next
  have hstep : step s = .next (engineRun pace { read with env := { read.env with agenda := next } }) := by
    rw [step_poll h rfl ho ho', hostPoll_eq, beginTurn_eq h]
    rfl
  have hkept := engineRun_kept pace { read with env := { read.env with agenda := next } }
  refine ⟨_, hstep, rfl, hkept.hostData, hkept.agenda, fun hb => ?_⟩
  rw [engineRun_idle pace { read with env := { read.env with agenda := next } } hb]
  exact ⟨rfl, rfl, rfl⟩

end Sys2Proof.Machine

/-! The dictionary (spec/40_dictionary.md R120 to R132): what its operations do, the encoder's table at each emission, and
the decoder's table, which is the encoder's one emission later. -/

namespace Sys2Proof.Machine

/-! ## The operations -/

/-- Settles O31: the laws of an insertion into a table with room, and into a full one. -/
theorem insertAddsOneSequence : Obligations.InsertAddsOneSequence := by
  unfold Obligations.InsertAddsOneSequence
  refine fun p t code b => ⟨fun hroom => ⟨?counter, ?new, fun c => seqOf_dictInsert p t code b c⟩, dictInsert_of_ge p t code b⟩
  case counter => rw [freeOf_dictInsert, if_pos hroom]
  case new => rw [dictInsert_of_lt p t code b hroom, seqOf_cons_self]

/-- In a table the encoder can build, the code of a sequence with one more symbol is found (R125). -/
theorem dictFind_eq_of_seqOf {t : List Entry} {code c : Nat} {b : Byte} (ht : tableOk t = true)
    (hd : tableDistinct t = true) (hcode : code < freeOf t) (hc : 256 ≤ c) (hfree : c < freeOf t)
    (hseq : seqOf t c = seqOf t code ++ [b]) : dictFind t code b = some c := by
  obtain ⟨code', b', hlt, hseq', hfound⟩ := exists_entry ht hc hfree
  obtain ⟨hcodes, hsymbols⟩ := List.append_inj' (hseq'.symm.trans hseq) rfl
  obtain rfl : code' = code := seqOf_injective ht hd (Nat.lt_trans hlt hfree) hcode hcodes
  obtain rfl : b' = b := List.singleton_inj.mp hsymbols
  obtain ⟨c', hfind⟩ := Option.ne_none_iff_exists'.mp hfound
  obtain ⟨-, hfree', -, hspec⟩ := dictFind_spec ht hfind
  rw [hfind, seqOf_injective ht hd hfree' hfree (hspec.trans hseq.symm)]

/-- Settles O30: what is found has the sequence (`dictFind_spec`), and sequences are distinct. -/
theorem findReturnsTheSequence : Obligations.FindReturnsTheSequence := by
  unfold Obligations.FindReturnsTheSequence
  refine fun t code c b ht hd hcode => ⟨fun hfind => ?_, fun ⟨hc, hfree, hseq⟩ => ?_⟩
  · obtain ⟨hc, hfree, -, hseq⟩ := dictFind_spec ht hfind
    exact ⟨hc, hfree, hseq⟩
  · exact dictFind_eq_of_seqOf ht hd hcode hc hfree hseq

/-! ## The codes defined at a position -/

/-- A defined code stands for its sequence (R130). -/
theorem dictResolve_defined {p : Params} {t : List Entry} {i c : Nat} (prev : Nat) (hi : 1 ≤ i) (hc : c < freeOf t) :
    dictResolve p t i c prev = some (seqOf t c) := by
  rw [dictResolve, if_neg (Nat.ne_of_gt hi), if_pos hc]

/-- The code the decoder is about to insert stands for the previous sequence and its first symbol (R131). -/
theorem dictResolve_next {p : Params} {t : List Entry} {i : Nat} (prev : Nat) (hi : 1 ≤ i) (hroom : freeOf t < p.dictSize) :
    dictResolve p t i (freeOf t) prev = some (seqOf t prev ++ [firstOf (seqOf t prev)]) := by
  rw [dictResolve, if_neg (Nat.ne_of_gt hi), if_neg (Nat.lt_irrefl _), if_pos ⟨rfl, hroom⟩]

/-- A code above the decoder's counter is not defined (R130). -/
theorem dictResolve_undefined (p : Params) {t : List Entry} {i c : Nat} (prev : Nat) (hi : 1 ≤ i) (hc : freeOf t < c) :
    dictResolve p t i c prev = none := by
  rw [dictResolve, if_neg (Nat.ne_of_gt hi), if_neg (Nat.not_lt.mpr (Nat.le_of_lt hc)),
    if_neg fun hnext => Nat.ne_of_gt hc hnext.1]

theorem singleton_firstOf {s : List Byte} (h : s ≠ []) : [firstOf s] = s.take 1 := by
  cases s with
  | nil => exact absurd rfl h
  | cons b r => rfl

/-- Settles O32: one law of DICT_RESOLVE for each of its cases. -/
theorem definedCodesAtAPosition : Obligations.DefinedCodesAtAPosition := by
  unfold Obligations.DefinedCodesAtAPosition
  refine fun p t i c prev => ⟨?first, dictResolve_defined prev, ?next, dictResolve_undefined p prev⟩
  case first =>
    rintro rfl
    exact dictResolve_zero p t c prev
  case next =>
    rintro hi rfl hroom
    rw [dictResolve_next prev hi hroom, singleton_firstOf (seqOf_ne_nil t prev)]

/-! ## The encoder's table at each emission -/

theorem dictFind_nil (code : Nat) (b : Byte) : dictFind [] code b = none := rfl

/-- The first symbol is the first match (R181). -/
theorem encoderTrace_cons (p : Params) (b : Byte) (rest : List Byte) :
    encoderTrace p (b :: rest) = lzwTrace p [] b.toNat rest := rfl

/-- ENC_STEP with the match extended (R126). -/
theorem lzwTrace_of_find {p : Params} {t : List Entry} {S c : Nat} {b : Byte} (rest : List Byte)
    (hf : dictFind t S b = some c) : lzwTrace p t S (b :: rest) = lzwTrace p t c rest := by
  rw [lzwTrace, hf]

/-- ENC_STEP with an emission (R126). -/
theorem lzwTrace_of_not_find (p : Params) {t : List Entry} {S : Nat} {b : Byte} (rest : List Byte)
    (hf : dictFind t S b = none) : lzwTrace p t S (b :: rest) =
      (S, dictInsert p t S b) :: lzwTrace p (dictInsert p t S b) b.toNat rest := by
  rw [lzwTrace, hf]

/-- What holds of the encoder's table when `i` codes are emitted (R127), and what DICT_FIND needs of it (R125). -/
structure EncoderTable (p : Params) (i : Nat) (t : List Entry) : Prop where
  ok       : tableOk t = true
  distinct : tableDistinct t = true
  free     : freeOf t = min (256 + i) p.dictSize

theorem encoderTable_nil (p : Params) : EncoderTable p 0 [] := by
  have hsize := p.dictSize_ge
  exact ⟨rfl, rfl, by rw [freeOf_nil]; omega⟩

/-- The insertion after an emission (R126). -/
theorem EncoderTable.insert {p : Params} {i S : Nat} {t : List Entry} {b : Byte} (h : EncoderTable p i t)
    (hS : S < freeOf t) (hf : dictFind t S b = none) : EncoderTable p (i + 1) (dictInsert p t S b) := by
  refine ⟨tableOk_dictInsert p t S b h.ok hS, tableDistinct_dictInsert p t S b h.distinct hf, ?_⟩
  have hfree := h.free
  rw [freeOf_dictInsert]
  split <;> omega

/-- The encoder's table after the emissions `pre` from the table `t` on. -/
def tableAfter (t : List Entry) (pre : List (Nat × List Entry)) : List Entry := (pre.getLast?.map Prod.snd).getD t

@[simp] theorem tableAfter_nil (t : List Entry) : tableAfter t [] = t := rfl

@[simp] theorem tableAfter_cons (t : List Entry) (e : Nat × List Entry) (pre : List (Nat × List Entry)) :
    tableAfter t (e :: pre) = tableAfter e.2 pre := by
  rw [tableAfter, tableAfter, List.getLast?_cons]
  cases pre.getLast? <;> rfl

/-- At every emission from index `i` on, the encoder's table is in order and the emitted code is one of its codes (R127). -/
theorem lzwTrace_emission {p : Params} {input : List Byte} {i S : Nat} {t : List Entry} {pre post : List (Nat × List Entry)}
    {c : Nat} {after : List Entry} (ht : EncoderTable p i t) (hS : S < freeOf t)
    (h : lzwTrace p t S input = pre ++ (c, after) :: post) :
    EncoderTable p (i + pre.length) (tableAfter t pre) ∧ c < freeOf (tableAfter t pre) := by
  induction input generalizing i S t pre with
  | nil =>
    cases pre with
    | nil =>
      cases h
      exact ⟨ht, hS⟩
    | cons e pre => simp [lzwTrace] at h
  | cons b rest ih =>
    cases hf : dictFind t S b with
    | some S' =>
      obtain ⟨-, hS', -, -⟩ := dictFind_spec ht.ok hf
      exact ih ht hS' ((lzwTrace_of_find rest hf).symm.trans h)
    | none =>
      rw [lzwTrace_of_not_find p rest hf] at h
      cases pre with
      | nil =>
        cases h
        exact ⟨ht, hS⟩
      | cons e pre =>
        obtain ⟨rfl, hrest⟩ := List.cons.inj h
        have hb : b.toNat < freeOf (dictInsert p t S b) := Nat.lt_of_lt_of_le b.isLt (le_freeOf _)
        rw [tableAfter_cons, List.length_cons, Nat.add_comm pre.length, ← Nat.add_assoc]
        exact ih (ht.insert hS hf) hb hrest

/-- The same from the start of an input on. -/
theorem encoderTrace_emission {p : Params} {d : List Byte} {pre post : List (Nat × List Entry)} {c : Nat}
    {after : List Entry} (h : encoderTrace p d = pre ++ (c, after) :: post) :
    EncoderTable p pre.length (tableAfter [] pre) ∧ c < freeOf (tableAfter [] pre) := by
  cases d with
  | nil => simp [encoderTrace] at h
  | cons b rest =>
    have hemission := lzwTrace_emission (encoderTable_nil p) b.isLt h
    rwa [Nat.zero_add] at hemission

/-- Each symbol causes one emission at most, and the end of the input one more (R126). -/
theorem length_lzwTrace_le (p : Params) (t : List Entry) (S : Nat) (input : List Byte) :
    (lzwTrace p t S input).length ≤ input.length + 1 := by
  induction input generalizing t S with
  | nil => exact Nat.le_refl 1
  | cons b rest ih =>
    cases hf : dictFind t S b with
    | some c =>
      rw [lzwTrace_of_find rest hf]
      exact Nat.le_succ_of_le (ih t c)
    | none =>
      rw [lzwTrace_of_not_find p rest hf]
      exact Nat.succ_le_succ (ih _ _)

theorem length_encoderTrace_le (p : Params) (d : List Byte) : (encoderTrace p d).length ≤ d.length := by
  cases d with
  | nil => exact Nat.le_refl 0
  | cons b rest => exact length_lzwTrace_le p [] b.toNat rest

/-- Settles O29: the encoder's table is in order at every emission, and w(i) bits hold every code of such a table. -/
theorem emittedCodesFitTheirWidth : Obligations.EmittedCodesFitTheirWidth := by
  unfold Obligations.EmittedCodesFitTheirWidth
  refine fun p d => ⟨length_encoderTrace_le p d, fun pre post c after h => ?_⟩
  obtain ⟨htable, hc⟩ := encoderTrace_emission h
  rw [htable.free] at hc
  exact ⟨htable.free, hc, lt_two_pow_codeWidth p pre.length c hc⟩

/-! ## The decoder's tables -/

/-- The decoder's tables on the codes of a nonempty input: the empty one after the first code, then the encoder's tables
but the last (R132). -/
theorem decoderTables_lzwCodes (p : Params) (b : Byte) (rest : List Byte) :
    decoderTables p 0 [] 0 (lzwCodes p (b :: rest)) = [] :: ((encoderTrace p (b :: rest)).map Prod.snd).dropLast := by
  cases rest with
  | nil => rfl
  | cons x rest =>
    have hx : x.toNat < freeOf (dictInsert p [] b.toNat x) := Nat.lt_of_lt_of_le x.isLt (le_freeOf _)
    have hfirst : firstOf (seqOf (dictInsert p [] b.toNat x) x.toNat) = x := by rw [seqOf_byte, firstOf_singleton]
    have htables := decoderTables_lzwTrace p rest 1 b.toNat x.toNat [] x (Nat.le_refl 1) b.isLt rfl hx hfirst
    have hne := lzwTrace_ne_nil p (dictInsert p [] b.toNat x) x.toNat rest
    have htrace : encoderTrace p (b :: x :: rest) = (b.toNat, dictInsert p [] b.toNat x) ::
        lzwTrace p (dictInsert p [] b.toNat x) x.toNat rest := by
      rw [encoderTrace_cons, lzwTrace_of_not_find p rest (dictFind_nil b.toNat x)]
    rw [lzwCodes, htrace, List.map_cons, List.map_cons, decoderTables, dictResolve_zero]
    rw [List.dropLast_cons_of_ne_nil (mt List.map_eq_nil_iff.mp hne), ← htables]
    rfl

/-- Settles O43: the decoder's tables are the encoder's, moved by one emission (`decoderTables_lzwCodes`). -/
theorem decoderRebuildsTheEncodersTable : Obligations.DecoderRebuildsTheEncodersTable := by
  unfold Obligations.DecoderRebuildsTheEncodersTable
  intro p d j hj
  cases d with
  | nil => exact absurd hj (Nat.not_lt_zero _)
  | cons b rest =>
    have hlast : j < ((encoderTrace p (b :: rest)).map Prod.snd).length - 1 := by rw [List.length_map]; omega
    rw [decoderTables_lzwCodes, List.getElem?_cons_succ, List.getElem?_dropLast, if_pos hlast, List.getElem?_map]

end Sys2Proof.Machine

/-! The bit reader on the bits of codes in the layout of the stream (spec/41_bitstream.md R150, R158, R159). -/

namespace Sys2Proof.Machine

/-- The code at place `j` lies between the codes before it and the codes after it, in its own width (R94). -/
theorem streamBits_eq_of_getElem? (p : Params) (i : Nat) {codes : List Nat} {j c : Nat} (h : codes[j]? = some c) :
    streamBits p i codes = streamBits p i (codes.take j) ++
      (codeBits (codeWidth p (i + j)) c ++ streamBits p (i + j + 1) (codes.drop (j + 1))) := by
  obtain ⟨hj, rfl⟩ := List.getElem?_eq_some_iff.mp h
  have hsplit := streamBits_append p i (codes.take j) (codes.drop j)
  rwa [List.take_append_drop, List.length_take_of_le (Nat.le_of_lt hj), List.drop_eq_getElem_cons hj] at hsplit

/-- Bit `k` of the code at place `j` stands `k` places after the codes before it. -/
theorem getElem?_streamBits {p : Params} {i : Nat} {codes : List Nat} {j c k : Nat} (h : codes[j]? = some c)
    (hk : k < codeWidth p (i + j)) : (streamBits p i codes)[(streamBits p i (codes.take j)).length + k]? =
      (codeBits (codeWidth p (i + j)) c)[k]? := by
  rw [streamBits_eq_of_getElem? p i h, List.getElem?_append_right (Nat.le_add_right _ _), Nat.add_sub_cancel_left,
    List.getElem?_append_left (Nat.lt_of_lt_of_eq hk (length_codeBits _ _).symm)]

/-- BR_GET's loop returns the code whose bits stand at the reader's place (R158). -/
theorem readBits_of_codeBits {byte : Nat → Byte} {t w c : Nat} (hc : c < 2 ^ w)
    (hbits : ∀ k, k < w → (codeBits w c)[k]? = some ((byte ((t + k) / 8)).getLsbD (7 - (t + k) % 8))) :
    readBits byte t w 0 = c := by
  rw [readBits_eq byte (codeBits w c) t w 0 hbits, List.take_of_length_le (Nat.le_of_eq (length_codeBits w c)),
    bitsValue_codeBits w c hc, Nat.zero_mul, Nat.zero_add]

/-- Settles O35: the bits at the place of a code are its `codeBits`, and the reader returns the code they write. -/
theorem readerReturnsTheWrittenCodes : Obligations.ReaderReturnsTheWrittenCodes := by
  unfold Obligations.ReaderReturnsTheWrittenCodes
  intro p codes byte hfits hbytes j c hj
  refine readBits_of_codeBits (hfits j c hj) fun k hk => ?_
  have hcode := getElem?_codeBits (codeWidth p j) c k hk
  have hplace := getElem?_streamBits (i := 0) hj (by rwa [Nat.zero_add])
  rw [Nat.zero_add, hcode] at hplace
  rw [hcode, hbytes _ _ hplace]

end Sys2Proof.Machine

/-! COMPRESS as a whole (spec/42_compress.md R180 to R187): how the command ends, the whole of its function, and its
shortest inputs. -/

namespace Sys2Proof.Machine

/-! ## The end of the command -/

/-- The result COMPRESS decides on in a state (R185). -/
def State.verdict (s : State) : Result :=
  compressVerdict s.regs.srcLen.toNat (encodedLength s.params s.input) s.regs.dstCap.toNat

/-- How an encode pass ends: by a completion with the verdict, from a state that holds the encoded bytes the destination
window has room for. -/
structure EncodeEnds (s u : State) : Prop where
  ends   : Ends (started .compress s) s.verdict u
  outLen : s.verdict = .ok → u.regs.outLen = BitVec.ofNat 32 (encodedLength s.params s.input)
  mem    : ∀ a, u.mem.read a =
    if inRange s.regs.dstAddr.toNat (min (encodedLength s.params s.input) s.regs.dstCap.toNat) a = true
    then byteAt (encodedBits s.params s.input) (a - s.regs.dstAddr.toNat) else s.mem.read a

/-- COMPRESS, whose outcome is determined, completes in its turn (R180). -/
theorem exec_compress_finish (s : State) (h : s.Ready .compress) (hp : stepBound s.regs.srcLen ≤ s.env.pace) :
    ∃ u, exec .compress s = .next (finish s.verdict u) ∧ EncodeEnds s u := by
  obtain ⟨u, hrun, hgoes, holen, hread⟩ := compress_run s h
  have hverdict : compressVerdict u.eng.lLen.toNat u.eng.olen u.eng.lCap.toNat = s.verdict := by
    rw [hgoes.lLen, holen, hgoes.lCap]; rfl
  rw [compressResult_eq, hverdict, holen] at hrun
  have hexec := exec_ready (.inl ⟨rfl, rfl⟩) s h (Nat.le_of_succ_le hp) (by rw [hrun]; rfl)
  rw [hrun] at hexec
  refine ⟨_, hexec, ?_⟩
  by_cases hok : s.verdict = .ok
  · rw [if_pos hok]
    exact ⟨hok ▸ hgoes.endsOk _, fun _ => rfl, hread⟩
  · rw [if_neg hok]
    have hne : s.verdict ≠ .none := by
      unfold State.verdict compressVerdict
      split_ifs <;> decide
    exact ⟨hgoes.ends _ hne, fun h => absurd h hok, hread⟩

section

variable {s u : State} (h : EncodeEnds s u)
include h

theorem EncodeEnds.touched : u.env.touched = [] := h.ends.goes.touched

theorem EncodeEnds.lDst : u.eng.lDst = s.regs.dstAddr := h.ends.goes.lDst

theorem EncodeEnds.inDst (a : Nat) : u.eng.inDst a = inRange s.regs.dstAddr.toNat s.regs.dstCap.toNat a :=
  h.ends.goes.inDst a

theorem EncodeEnds.kept : Kept (started .compress s) (finish s.verdict u) := h.ends.kept

theorem EncodeEnds.regs : (finish s.verdict u).regs =
    { s.regs with
      done := true, result := s.verdict
      outLen := if s.verdict = .ok then BitVec.ofNat 32 (encodedLength s.params s.input) else 0 } := by
  rw [finish_regs, h.ends.regs]
  by_cases hok : s.verdict = .ok
  · rw [if_pos hok, ← h.outLen hok, Regs.complete, if_pos hok]; rfl
  · rw [if_neg hok, Regs.complete, if_neg hok]; rfl

/-- The host's view is that of the state before, but for what the command may have written (R71). -/
theorem EncodeEnds.lagging (a : Nat) : (finish s.verdict u).lagging a =
    (inWindows (u.written s.verdict) a || s.lagging a) := by
  have henv : u.env = (started .compress s).env := h.ends.goes.env
  rw [finish_lagging, State.lagging, henv]
  rfl

theorem EncodeEnds.outLen_toNat (hok : s.verdict = .ok) :
    u.regs.outLen.toNat = encodedLength s.params s.input := by
  rw [h.outLen hok, toNat_ofNat_of_le (compressVerdict_ok hok)]

/-- Memory after an OK: the encoded bytes from DST_ADDR on, and all else as it was (R187, R69). -/
theorem EncodeEnds.read_ok (hok : s.verdict = .ok) (a : Nat) : (finish s.verdict u).mem.read a =
    if inRange s.regs.dstAddr.toNat (encodedLength s.params s.input) a = true
    then byteAt (encodedBits s.params s.input) (a - s.regs.dstAddr.toNat) else s.mem.read a := by
  rw [hok, finish_ok_mem h.touched, h.mem, Nat.min_eq_left (compressVerdict_ok hok)]

theorem EncodeEnds.lagging_ok (hok : s.verdict = .ok) {a : Nat}
    (ha : inRange s.regs.dstAddr.toNat (encodedLength s.params s.input) a = false) :
    (finish s.verdict u).lagging a = s.lagging a := by
  have hwritten : u.written .ok = [(u.eng.lDst.toNat, u.regs.outLen.toNat)] := rfl
  rw [h.lagging, hok, hwritten, h.lDst, h.outLen_toNat hok, inWindows_cons, ha]
  rfl

theorem EncodeEnds.outside {a : Nat} (ha : inRange s.regs.dstAddr.toNat s.regs.dstCap.toNat a = false) :
    (finish s.verdict u).mem.read a = s.mem.read a ∧ (finish s.verdict u).lagging a = s.lagging a := by
  refine ⟨h.kept.outside a ha List.not_mem_nil, ?_⟩
  rw [h.lagging, State.written_outside ((h.inDst a).trans ha), Bool.false_or]
  intro hok
  have hcap : u.eng.lCap = s.regs.dstCap := h.ends.goes.lCap
  rw [h.outLen_toNat hok, hcap]
  exact compressVerdict_ok hok

end

/-- Settles O22: the pass writes the stream of the pure function, and the completion decides on its length. -/
theorem compressMeetsItsFunction : Obligations.CompressMeetsItsFunction := by
  unfold Obligations.CompressMeetsItsFunction
  intro s h hp E r
  obtain ⟨u, hexec, hend⟩ := exec_compress_finish s h hp
  have hkept := hend.kept
  refine ⟨_, hexec, rfl, hend.regs, fun hok => ⟨fun j hj => ?_, fun a ha => ⟨?_, hend.lagging_ok hok ha⟩⟩,
    fun a => hend.outside, hkept.params, hkept.platform, hkept.agenda, hkept.hostData⟩
  · rw [read_window (hend.read_ok hok) (show j / 8 < E by omega), getLsbD_byteAt _ _ _ (Nat.mod_lt j (by decide)),
      Nat.div_add_mod]
  · rw [hend.read_ok hok, if_neg (by rw [ha]; decide)]

/-! ## The verdict (R185) -/

theorem compressVerdict_noBenefit {L E : Nat} (cap : Nat) (hL : 2 ≤ L) (hE : L ≤ E) :
    compressVerdict L E cap = .noBenefit := if_pos ⟨hL, hE⟩

theorem compressVerdict_overflow {L E cap : Nat} (hLE : L < 2 ∨ E < L) (hcap : cap < E) :
    compressVerdict L E cap = .errDstOverflow := by
  rw [compressVerdict, if_neg (by omega), if_pos hcap]

theorem compressVerdict_fits {L E cap : Nat} (hLE : L < 2 ∨ E < L) (hcap : E ≤ cap) :
    compressVerdict L E cap = .ok := by
  rw [compressVerdict, if_neg (by omega), if_neg (Nat.not_lt.mpr hcap)]

/-! ## Inputs of at most two bytes (R182 to R184) -/

/-- An empty source goes to the result at once (R182). -/
theorem compressStart_empty {s : State} (h : s.eng.lLen.toNat = 0) : compressStart s = finish .ok { s with
    regs := { s.regs with outLen := 0 }
    eng := { s.eng with table := [], acc := 0, nacc := 0, olen := 0, i := 0 } } := by
  have hstart : compressStart s = compressResult
      { s with eng := { s.eng with table := [], acc := 0, nacc := 0, olen := 0, i := 0 } } := if_pos h
  have hverdict : compressVerdict s.eng.lLen.toNat 0 s.eng.lCap.toNat = .ok :=
    compressVerdict_fits (by omega) (Nat.zero_le _)
  rw [hstart, compressResult_eq, hverdict]
  rfl

/-- Settles O23: the pass writes nothing, and an OK leaves nothing unspecified. -/
theorem compressOfNothing : Obligations.CompressOfNothing := by
  unfold Obligations.CompressOfNothing
  intro s h hp hlen
  have hzero : s.regs.srcLen.toNat = 0 := by rw [hlen]; rfl
  have hrun := (started_run .compress s h 0).trans (compressStart_empty (s := started .compress s) hzero)
  have hexec := exec_ready (n := 0 + 2) (.inl ⟨rfl, rfl⟩) s h (by rw [stepBound] at hp; omega) (by rw [hrun]; rfl)
  rw [hrun] at hexec
  exact ⟨_, hexec, rfl, rfl, finish_ok_mem rfl⟩

/-- The bits of a byte are the byte, in the layout of R150. -/
theorem byteAt_codeBits (b : Byte) : byteAt (codeBits 8 b.toNat) 0 = b := by
  rw [byteAt_eq, Nat.mul_zero, List.drop_zero, List.take_left' (length_codeBits 8 b.toNat),
    bitsValue_codeBits 8 b.toNat b.isLt, BitVec.ofNat_toNat, BitVec.setWidth_eq]

/-- One byte is its own encoding (R183). -/
theorem encodedBits_singleton (p : Params) (b : Byte) : encodedBits p [b] = codeBits 8 b.toNat := by
  have hbits : encodedBits p [b] = codeBits (codeWidth p 0) b.toNat ++ [] := rfl
  rw [hbits, codeWidth_zero, List.append_nil]

theorem encodedLength_singleton (p : Params) (b : Byte) : encodedLength p [b] = 1 := by
  rw [encodedLength, encodedBits_singleton, length_codeBits]

theorem input_of_one {s : State} (h : s.regs.srcLen = 1) : s.input = [s.mem.read s.regs.srcAddr.toNat] := by
  rw [State.input, h]
  rfl

/-- Settles O24: the one code is the byte itself, in 8 bits. -/
theorem compressOfOneByte : Obligations.CompressOfOneByte := by
  unfold Obligations.CompressOfOneByte
  intro s h hp hlen
  obtain ⟨u, hexec, hend⟩ := exec_compress_finish s h hp
  have hE : encodedLength s.params s.input = 1 := by rw [input_of_one hlen, encodedLength_singleton]
  have hverdict : s.verdict = compressVerdict 1 1 s.regs.dstCap.toNat := by rw [State.verdict, hE, hlen]; rfl
  have hregs := hend.regs
  refine ⟨_, hexec, rfl, fun hcap => ?room, fun hcap => ?noRoom⟩
  case room =>
    have hok : s.verdict = .ok := hverdict.trans (compressVerdict_fits (.inl (by decide)) hcap)
    have hread := hend.read_ok hok
    rw [hE] at hread
    refine ⟨?_, ?_, fun a ha => ?_⟩
    · rw [hregs, hok, hE]
      rfl
    · refine (read_window hread Nat.one_pos).trans ?_
      rw [input_of_one hlen, encodedBits_singleton, byteAt_codeBits]
    · have houtside : ¬ inRange s.regs.dstAddr.toNat 1 a = true := by rw [inRange_iff]; omega
      rw [hread, if_neg houtside]
  case noRoom =>
    have hover : s.verdict = .errDstOverflow := by
      rw [hverdict, hcap]
      exact compressVerdict_overflow (.inl (by decide)) Nat.one_pos
    rw [hregs, hover]
    rfl

/-- Every code has at least 8 bits (R96). -/
theorem length_lzwCodes_le_encodedLength (p : Params) (d : List Byte) : (lzwCodes p d).length ≤ encodedLength p d := by
  obtain ⟨hbits, -⟩ := length_streamBits_bounds p 0 (lzwCodes p d)
  rw [encodedLength, encodedBits]
  omega

/-- The empty dictionary extends no match, so both bytes are emitted as literals (R184). -/
theorem lzwCodes_pair (p : Params) (a b : Byte) : lzwCodes p [a, b] = [a.toNat, b.toNat] := by
  rw [lzwCodes, encoderTrace_cons, lzwTrace_of_not_find p [] (dictFind_nil a.toNat b)]
  rfl

/-- Settles O25: two bytes give two codes, and no code is shorter than a byte. -/
theorem twoBytesGiveNoBenefit : Obligations.TwoBytesGiveNoBenefit := by
  unfold Obligations.TwoBytesGiveNoBenefit
  intro s h hp hlen
  obtain ⟨u, hexec, hend⟩ := exec_compress_finish s h hp
  have hn : s.regs.srcLen.toNat = 2 := by rw [hlen]; rfl
  obtain ⟨a, b, hinput⟩ := List.length_eq_two.mp ((length_input s).trans hn)
  have hE : 2 ≤ encodedLength s.params s.input := by
    have hcodes := length_lzwCodes_le_encodedLength s.params s.input
    rwa [hinput, lzwCodes_pair, ← hinput] at hcodes
  have hverdict : s.verdict = .noBenefit := by
    rw [State.verdict, hn]
    exact compressVerdict_noBenefit _ (Nat.le_refl 2) hE
  refine ⟨_, hexec, rfl, ?_⟩
  rw [hend.regs, hverdict]
  rfl

/-! ## A capacity that suffices (R185) -/

/-- Settles O26: an output of L bytes or more gives NO_BENEFIT first, and a shorter one fits. -/
theorem compressCapacityThatSuffices : Obligations.CompressCapacityThatSuffices := by
  unfold Obligations.CompressCapacityThatSuffices
  intro s t h hp hL hcap hexec
  obtain ⟨u, hexec', hend⟩ := exec_compress_finish s h hp
  obtain rfl : finish s.verdict u = t := Host.Outcome.next.inj (hexec'.symm.trans hexec)
  rcases Nat.lt_or_ge (encodedLength s.params s.input) s.regs.srcLen.toNat with hshort | hlong
  · have hok : s.verdict = .ok := compressVerdict_fits (.inr hshort) (by omega)
    refine .inr ⟨hok, ?_⟩
    rw [finish_regs, hok, complete_outLen, if_pos rfl, hend.outLen_toNat hok]
    exact hshort
  · have hno : s.verdict = .noBenefit := compressVerdict_noBenefit _ hL hlong
    refine .inl ⟨hno, ?_⟩
    rw [finish_regs, hno, complete_outLen]
    rfl

end Sys2Proof.Machine

/-! The encoder's parse of its input (spec/42_compress.md R181, spec/40_dictionary.md R126): each emitted code stands for the
longest beginning of the remaining input that has an entry. -/

namespace Sys2Proof.Machine

/-- The sequences of a table are closed under nonempty beginnings: an entry adds one symbol to an older code's
sequence (R121). -/
theorem exists_code_of_prefix {t : List Entry} {c : Nat} {x : List Byte} (ht : tableOk t = true) (hc : c < freeOf t)
    (hne : x ≠ []) (hx : x <+: seqOf t c) : ∃ c', c' < freeOf t ∧ seqOf t c' = x := by
  induction c using Nat.strongRecOn with
  | ind c ih =>
    by_cases hliteral : c < 256
    · rw [seqOf_literal t c hliteral, ← List.nil_append [_], List.prefix_concat_iff, List.nil_append] at hx
      rcases hx with rfl | hx
      · exact ⟨c, hc, seqOf_literal t c hliteral⟩
      · exact absurd (List.prefix_nil.mp hx) hne
    · obtain ⟨code, b, hlt, hseq, -⟩ := exists_entry ht (Nat.not_lt.mp hliteral) hc
      rw [hseq, List.prefix_concat_iff] at hx
      rcases hx with rfl | hx
      · exact ⟨c, hc, hseq⟩
      · exact ih code hlt (Nat.lt_trans hlt hc) hx

/-- Where DICT_FIND finds nothing, no code stands for the match and the next symbol (R125). -/
theorem seqOf_ne_of_not_find {t : List Entry} {S c : Nat} {b : Byte} (ht : tableOk t = true)
    (hd : tableDistinct t = true) (hS : S < freeOf t) (hf : dictFind t S b = none) (hc : c < freeOf t) :
    seqOf t c ≠ seqOf t S ++ [b] := by
  intro hseq
  by_cases hliteral : c < 256
  · have hlen := congrArg List.length hseq
    have hpos := List.length_pos_of_ne_nil (seqOf_ne_nil t S)
    rw [seqOf_literal t c hliteral, List.length_append, List.length_singleton, List.length_singleton] at hlen
    omega
  · have hfind := dictFind_eq_of_seqOf ht hd hS (Nat.not_lt.mp hliteral) hc hseq
    rw [hf] at hfind
    cases hfind

/-- `c` stands for the longest beginning of `rest` that has an entry in the table `t` (R181). -/
structure LongestMatch (t : List Entry) (rest : List Byte) (c : Nat) : Prop where
  defined : c < freeOf t
  isPrefix : seqOf t c <+: rest
  longest : ∀ c', c' < freeOf t → seqOf t c' <+: rest → (seqOf t c').length ≤ (seqOf t c).length

/-- A match that is all of the remaining input is the longest one. -/
theorem longestMatch_seqOf {t : List Entry} {S : Nat} (hS : S < freeOf t) : LongestMatch t (seqOf t S) S :=
  ⟨hS, List.prefix_refl _, fun _ _ hprefix => hprefix.length_le⟩

/-- A match that DICT_FIND does not extend is the longest one: a longer entry would have the
extended match as its beginning. -/
theorem longestMatch_of_not_find {t : List Entry} {S : Nat} {b : Byte} (rest : List Byte) (ht : tableOk t = true)
    (hd : tableDistinct t = true) (hS : S < freeOf t) (hf : dictFind t S b = none) :
    LongestMatch t (seqOf t S ++ b :: rest) S := by
  refine ⟨hS, List.prefix_append _ _, fun c hc hprefix => Nat.not_lt.mp fun hlonger => ?_⟩
  have hextended : seqOf t S ++ [b] <+: seqOf t c :=
    List.prefix_of_prefix_length_le (by simp) hprefix (by simpa using hlonger)
  obtain ⟨c', hc', hseq⟩ := exists_code_of_prefix ht hc (by simp) hextended
  exact seqOf_ne_of_not_find ht hd hS hf hc' hseq

/-- No emission changes a sequence that is defined (R122). -/
theorem seqOf_tableAfter {p : Params} {input : List Byte} {S : Nat} {t : List Entry} {pre post : List (Nat × List Entry)}
    (h : lzwTrace p t S input = pre ++ post) {x : Nat} (hx : x < freeOf t) :
    seqOf (tableAfter t pre) x = seqOf t x := by
  induction input generalizing S t pre with
  | nil =>
    rcases List.append_eq_singleton_iff.mp h.symm with ⟨rfl, -⟩ | ⟨rfl, -⟩ <;> rfl
  | cons b rest ih =>
    cases hf : dictFind t S b with
    | some c => exact ih ((lzwTrace_of_find rest hf).symm.trans h) hx
    | none =>
      rw [lzwTrace_of_not_find p rest hf] at h
      cases pre with
      | nil => rfl
      | cons e pre =>
        obtain ⟨rfl, hrest⟩ := List.cons.inj h
        have hx' := Nat.lt_of_lt_of_le hx (freeOf_le_dictInsert p t S b)
        rw [tableAfter_cons, ih hrest hx', seqOf_dictInsert p t S b x hx]

/-- The sequences of emitted codes, one after the other. -/
def parsed (t : List Entry) (pre : List (Nat × List Entry)) : List Byte := (pre.map Prod.fst).flatMap (seqOf t)

@[simp] theorem parsed_nil (t : List Entry) : parsed t [] = [] := rfl

@[simp] theorem parsed_cons (t : List Entry) (e : Nat × List Entry) (pre : List (Nat × List Entry)) :
    parsed t (e :: pre) = seqOf t e.1 ++ parsed t pre := rfl

/-- From a match `S` on, the emissions parse what the match stands for and the rest of the input, each by the longest
match, and the last one takes all that remains. -/
theorem lzwTrace_greedy {p : Params} {input : List Byte} {i S : Nat} {t : List Entry} {pre post : List (Nat × List Entry)}
    {c : Nat} {after : List Entry} (ht : EncoderTable p i t) (hS : S < freeOf t)
    (h : lzwTrace p t S input = pre ++ (c, after) :: post) :
    ∃ rest, seqOf t S ++ input = parsed (tableAfter t pre) pre ++ rest ∧ LongestMatch (tableAfter t pre) rest c ∧
      (post = [] → seqOf (tableAfter t pre) c = rest) := by
  induction input generalizing i S t pre with
  | nil =>
    cases pre with
    | nil =>
      cases h
      exact ⟨_, List.append_nil _, longestMatch_seqOf hS, fun _ => rfl⟩
    | cons e pre => simp [lzwTrace] at h
  | cons b input ih =>
    cases hf : dictFind t S b with
    | some S' =>
      obtain ⟨-, hS', -, hseq⟩ := dictFind_spec ht.ok hf
      have hih := ih ht hS' ((lzwTrace_of_find input hf).symm.trans h)
      rwa [hseq, List.append_assoc] at hih
    | none =>
      rw [lzwTrace_of_not_find p input hf] at h
      cases pre with
      | nil =>
        cases h
        exact ⟨_, rfl, longestMatch_of_not_find input ht.ok ht.distinct hS hf,
          fun hpost => absurd hpost (lzwTrace_ne_nil _ _ _ _)⟩
      | cons e pre =>
        have hkept := seqOf_tableAfter (p := p) (S := S) (input := b :: input) (pre := e :: pre)
          ((lzwTrace_of_not_find p input hf).trans h) hS
        obtain ⟨rfl, hrest⟩ := List.cons.inj h
        have hb : b.toNat < freeOf (dictInsert p t S b) := Nat.lt_of_lt_of_le b.isLt (le_freeOf _)
        obtain ⟨rest, hparsed, hmatch, hlast⟩ := ih (ht.insert hS hf) hb hrest
        rw [tableAfter_cons] at hkept ⊢
        refine ⟨rest, ?_, hmatch, hlast⟩
        rw [parsed_cons, hkept, List.append_assoc, ← hparsed, seqOf_byte]
        rfl

/-- The same from the start of an input on. -/
theorem encoderTrace_greedy {p : Params} {d : List Byte} {pre post : List (Nat × List Entry)} {c : Nat}
    {after : List Entry} (h : encoderTrace p d = pre ++ (c, after) :: post) :
    ∃ rest, d = parsed (tableAfter [] pre) pre ++ rest ∧ LongestMatch (tableAfter [] pre) rest c ∧
      (post = [] → seqOf (tableAfter [] pre) c = rest) := by
  cases d with
  | nil => simp [encoderTrace] at h
  | cons b input =>
    have hgreedy := lzwTrace_greedy (encoderTable_nil p) b.isLt h
    rwa [seqOf_byte] at hgreedy

/-- Settles O28: what remains of the input behind the earlier codes' sequences is what the code's match was sought in. -/
theorem encoderParsesGreedily : Obligations.EncoderParsesGreedily := by
  unfold Obligations.EncoderParsesGreedily
  intro p d pre post c after h table rest
  obtain ⟨rest', hd, hmatch, hlast⟩ := encoderTrace_greedy h
  obtain rfl : rest = rest' := by
    show d.drop (parsed (tableAfter [] pre) pre).length = rest'
    rw [hd, List.drop_left]
  obtain ⟨hdefined, hprefix, hlongest⟩ := hmatch
  exact ⟨⟨rest, hd.symm⟩, hdefined, hprefix, hlongest, hlast⟩

end Sys2Proof.Machine

/-! The results of each command (spec/42_compress.md R180, spec/43_uncompress.md R210), whatever the platform reports. -/

namespace Sys2Proof.Machine

/-- The results a command may complete with (R180, R210). -/
def Op.results (op : Op) : List Result :=
  match op with
  | .compress   => [.ok, .noBenefit, .errDstOverflow, .errConfig, .errBus]
  | .uncompress => [.ok, .errTruncated, .errUndefCode, .errRatio, .errDstOverflow, .errConfig, .errBus]

/-- A command of the kind `op` still runs, or it has completed with one of its results. -/
def State.InOrder (op : Op) (s : State) : Prop := s.eng.busy = true ∨ s.regs.result ∈ op.results

theorem State.InOrder.result {op : Op} {s : State} (h : s.InOrder op) (hb : s.eng.busy = false) :
    s.regs.result ∈ op.results := h.resolve_left (by rw [hb]; decide)

theorem finish_inOrder {op : Op} {r : Result} (h : r ∈ op.results) (s : State) : (finish r s).InOrder op := .inr h

theorem errConfig_mem_results (op : Op) : .errConfig ∈ op.results := by cases op <;> decide

theorem errBus_mem_results (op : Op) : .errBus ∈ op.results := by cases op <;> decide

/-- The three verdicts of COMPRESS_RESULT (R185). -/
theorem compressVerdict_mem_results (L E cap : Nat) : compressVerdict L E cap ∈ Op.results .compress := by
  unfold compressVerdict
  split_ifs <;> decide

theorem compressResult_inOrder (s : State) : (compressResult s).InOrder .compress := by
  rw [compressResult_eq]
  exact finish_inOrder (compressVerdict_mem_results _ _ _) _

/-- A failure of the tests on an output's length (R216). -/
theorem guard_mem_results {s : State} {x : Nat} {r : Result} (h : s.guard x = some r) : r ∈ Op.results .uncompress := by
  rcases uncompressGuard_cases s.params s.eng.lLen.toNat s.eng.lRatio.toNat s.eng.lCap.toNat x with
    ⟨hg, -⟩ | ⟨hg, -⟩ | ⟨hg, -⟩ <;> rw [State.guard, hg] at h <;> cases h <;> decide

theorem uncompressEnd_inOrder (s : State) : (uncompressEnd s).InOrder .uncompress := by
  unfold uncompressEnd
  split
  · exact finish_inOrder (by decide) _
  · exact finish_inOrder (by decide) _

theorem uncompressAppend_inOrder (c : Nat) (cur : List Byte) {s : State} (hb : s.eng.busy = true) :
    (uncompressAppend c cur s).InOrder .uncompress := by
  rw [uncompressAppend_eq]
  cases hg : s.guard (s.eng.olen + cur.length) with
  | some r => exact finish_inOrder (guard_mem_results hg) _
  | none => exact .inl hb

theorem engineStart_inOrder {s : State} (hb : s.eng.busy = true) : (engineStart s).InOrder s.eng.op := by
  unfold engineStart
  cases ho : s.eng.op with
  | compress =>
    simp only [compressStart]
    split
    · exact compressResult_inOrder _
    · exact .inl hb
  | uncompress => exact .inl hb

theorem engineLoop_inOrder {s : State} (hb : s.eng.busy = true) : (engineLoop s).InOrder s.eng.op := by
  unfold engineLoop
  cases ho : s.eng.op with
  | compress =>
    simp only [compressLoop]
    split
    · exact .inl ((encStep_goes _ _).busy.trans hb)
    · exact compressResult_inOrder _
  | uncompress =>
    simp only [uncompressLoop]
    split
    · exact uncompressEnd_inOrder s
    · split
      · exact finish_inOrder (by decide) _
      · exact uncompressAppend_inOrder _ _ hb

theorem onPort_inOrder {op : Op} {s next : State} (hb : s.eng.busy = true) (h : next.InOrder op) :
    (s.onPort next).InOrder op := by
  rcases s.onPort_cases next with e | e | e <;> rw [e]
  · exact finish_inOrder (errBus_mem_results op) s
  · exact .inl hb
  · exact h

theorem engineStep_inOrder {s : State} (hb : s.eng.busy = true) : (engineStep s).InOrder s.eng.op := by
  unfold engineStep
  rw [if_neg (by rw [hb]; decide)]
  split
  · unfold engineChecks
    split
    · exact .inl hb
    · exact finish_inOrder (errConfig_mem_results _) s
  · exact onPort_inOrder hb (engineStart_inOrder hb)
  · exact onPort_inOrder hb (engineLoop_inOrder hb)

theorem engineRun_inOrder (n : Nat) {s : State} (hb : s.eng.busy = true) : (engineRun n s).InOrder s.eng.op := by
  induction n generalizing s with
  | zero => exact .inl hb
  | succ n ih =>
    rw [engineRun]
    cases hbusy : (engineStep s).eng.busy with
    | true =>
      rw [← (engineStep_kept s).op]
      exact ih hbusy
    | false =>
      rw [engineRun_idle n _ hbusy]
      exact engineStep_inOrder hb

/-! ## Completion (R258) -/

theorem Engine.work_pos (e : Engine) : 0 < e.work := by
  unfold Engine.work
  split <;> omega

/-- A command that nothing keeps waiting completes within its work. -/
theorem engineRun_completes {n : Nat} {s : State} (hb : s.eng.busy = true) (hp : s.Progresses) (hn : s.eng.work ≤ n) :
    (engineRun n s).eng.busy = false := by
  induction n generalizing s with
  | zero => exact absurd hn (Nat.not_le.mpr s.eng.work_pos)
  | succ n ih =>
    rw [engineRun]
    rcases engineStep_progress s hb hp with hidle | ⟨hbusy, hwork, hanswered⟩
    · rw [engineRun_idle n _ hidle, hidle]
    · exact ih hbusy (.inl hanswered) (by omega)

/-- An accepted command that is not kept waiting ends in its turn with one of its results. -/
theorem exec_completes {i : Instr} {op : Op}
    (hi : (i = .compress ∧ op = .compress) ∨ (i = .uncompress ∧ op = .uncompress)) {s : State} (hb : s.eng.busy = false)
    (hp : stepBound s.regs.srcLen ≤ s.env.pace) (ha : (accept op s).Answered)
    (hw : windowsOnRegisters s.env.platform s.regs.srcAddr.toNat s.regs.srcLen.toNat s.regs.dstAddr.toNat
      s.regs.dstCap.toNat = false) :
    ∃ t, exec i s = .next t ∧ t.eng.busy = false ∧ t.regs.done = true ∧ t.regs.result ∈ op.results := by
  have hidle := engineRun_completes (s := accept op s) rfl (.inl ha) (Nat.le_trans (Engine.work_le _) hp)
  have hexec : exec i s = .next (engineRun s.env.pace (accept op s)) := by
    rw [exec_of_op hi, issue_accepts op s hb hw, settle, accept_env_pace]
  refine ⟨_, hexec, hidle, ?_, (engineRun_inOrder s.env.pace (s := accept op s) rfl).result hidle⟩
  rcases engineRun_cases s.env.pace (accept op s) rfl with ⟨-, hbusy⟩ | ⟨-, hdone, -⟩
  · exact absurd (hbusy.symm.trans hidle) (by decide)
  · exact hdone

/-- Settles O27: every engine step keeps to the results of the command it runs. -/
theorem eachCommandHasItsOwnResults : Obligations.EachCommandHasItsOwnResults := by
  unfold Obligations.EachCommandHasItsOwnResults
  intro s i op hi hb hp ha hw
  obtain ⟨t, hexec, hidle, hdone, hresult⟩ := exec_completes hi hb hp ha hw
  refine ⟨t, hexec, hidle, hdone, ?_, ?_⟩
  · rintro rfl
    exact hresult
  · rintro rfl
    exact hresult

end Sys2Proof.Machine

/-! UNCOMPRESS as a whole (spec/43_uncompress.md R210 to R224): how the command ends, the whole of its function, its
shortest inputs, the ratio guard and the capacity, and the round trip. -/

namespace Sys2Proof.Machine

/-! ## A completion of an accepted command -/

section

variable {op : Op} {r : Result} {s u : State} (h : Ends (started op s) r u)
include h

theorem Ends.started_regs : (finish r u).regs =
    { s.regs with done := true, result := r, outLen := if r = .ok then u.regs.outLen else 0 } := by
  rw [finish_regs, h.regs]
  rfl

/-- The host's view is that of the state before, but for what the command may have written (R71). -/
theorem Ends.started_lagging (a : Nat) : (finish r u).lagging a = (inWindows (u.written r) a || s.lagging a) := by
  have henv : u.env = (started op s).env := h.goes.env
  rw [finish_lagging, State.lagging, henv]
  rfl

/-- On OK the command may have written the OUT_LEN bytes from DST_ADDR on, and nothing else (R69). -/
theorem Ends.started_lagging_ok (hok : r = .ok) {a : Nat}
    (ha : inRange s.regs.dstAddr.toNat u.regs.outLen.toNat a = false) : (finish r u).lagging a = s.lagging a := by
  have hdst : u.eng.lDst = s.regs.dstAddr := h.goes.lDst
  have hwritten : u.written .ok = [(u.eng.lDst.toNat, u.regs.outLen.toNat)] := rfl
  rw [h.started_lagging, hok, hwritten, hdst, inWindows_cons, ha]
  rfl

/-- Outside the destination window nothing changes, and the host sees what it saw before (R69). -/
theorem Ends.started_outside (hfit : r = .ok → u.regs.outLen.toNat ≤ s.regs.dstCap.toNat) {a : Nat}
    (ha : inRange s.regs.dstAddr.toNat s.regs.dstCap.toNat a = false) :
    (finish r u).mem.read a = s.mem.read a ∧ (finish r u).lagging a = s.lagging a := by
  have hdst : u.eng.inDst a = false := (h.goes.inDst a).trans ha
  have hcap : u.eng.lCap = s.regs.dstCap := h.goes.lCap
  refine ⟨h.kept.outside a ha List.not_mem_nil, ?_⟩
  rw [h.started_lagging, State.written_outside hdst (hcap ▸ hfit), Bool.false_or]

end

/-! ## The end of the command -/

/-- What UNCOMPRESS makes of its input in a state: the decoding of R213, with the tests of R216 on its operands. -/
def State.decoded (s : State) : Result × List Byte :=
  decodeStream s.params (uncompressGuard s.params s.regs.srcLen.toNat s.regs.ratio.toNat s.regs.dstCap.toNat) s.input

/-- UNCOMPRESS, whose outcome is determined, completes in its turn (R210). -/
theorem exec_uncompress_finish (s : State) (h : s.Ready .uncompress) (hp : stepBound s.regs.srcLen ≤ s.env.pace) :
    ∃ u, exec .uncompress s = .next (finish s.decoded.1 u) ∧ DecodeEnds s.mem (started .uncompress s) s.decoded u := by
  obtain ⟨u, hrun, hend⟩ := uncompress_run s h
  have hexec := exec_ready (n := s.regs.srcLen.toNat + 3) (.inr ⟨rfl, rfl⟩) s h hp (by rw [hrun]; rfl)
  rw [hrun] at hexec
  exact ⟨u, hexec, hend⟩

/-- `exec_uncompress_shows`, in terms of `State.decoded`. -/
theorem exec_uncompress_decoded (s : State) (h : s.Ready .uncompress) (hp : stepBound s.regs.srcLen ≤ s.env.pace) :
    ∃ t, exec .uncompress s = .next t ∧ t.eng.busy = false ∧ t.Shows s.regs.dstAddr.toNat s.decoded :=
  exec_uncompress_shows s h hp

section

variable {s u : State} (h : DecodeEnds s.mem (started .uncompress s) s.decoded u)
include h

theorem DecodeEnds.length_le (hok : s.decoded.1 = .ok) : s.decoded.2.length ≤ s.regs.dstCap.toNat := (h.ok hok).2.1

theorem DecodeEnds.outLen_toNat (hok : s.decoded.1 = .ok) : u.regs.outLen.toNat = s.decoded.2.length := by
  rw [(h.ok hok).1, toNat_ofNat_of_le (h.length_le hok)]

theorem DecodeEnds.regs : (finish s.decoded.1 u).regs =
    { s.regs with
      done := true, result := s.decoded.1
      outLen := if s.decoded.1 = .ok then BitVec.ofNat 32 s.decoded.2.length else 0 } := by
  rw [h.ends.started_regs]
  by_cases hok : s.decoded.1 = .ok
  · rw [if_pos hok, if_pos hok, (h.ok hok).1]
  · rw [if_neg hok, if_neg hok]

/-- Memory after an OK: the decoded bytes from DST_ADDR on, and all else as it was (R224, R69). -/
theorem DecodeEnds.read_ok (hok : s.decoded.1 = .ok) (a : Nat) : (finish s.decoded.1 u).mem.read a =
    if inRange s.regs.dstAddr.toNat s.decoded.2.length a = true
    then s.decoded.2.getD (a - s.regs.dstAddr.toNat) 0 else s.mem.read a := by
  obtain ⟨-, -, hread⟩ := h.ok hok
  have htouched : u.env.touched = [] := h.ends.goes.touched
  rw [hok, finish_ok_mem htouched]
  exact hread a

theorem DecodeEnds.bytes_ok (hok : s.decoded.1 = .ok) :
    (finish s.decoded.1 u).mem.bytes s.regs.dstAddr.toNat s.decoded.2.length = s.decoded.2 :=
  bytes_eq fun _ hk => read_window (f := (List.getD _ · 0)) (h.read_ok hok) hk

end

/-- Settles O36: the pass holds the output of the pure decoding, and the completion has its result. -/
theorem uncompressMeetsItsFunction : Obligations.UncompressMeetsItsFunction := by
  unfold Obligations.UncompressMeetsItsFunction
  intro s h hp r
  obtain ⟨u, hexec, hend⟩ := exec_uncompress_finish s h hp
  have hkept := hend.ends.kept
  refine ⟨_, hexec, rfl, hend.regs, fun hok => ⟨hend.length_le hok, hend.bytes_ok hok, fun a ha => ⟨?_, ?_⟩⟩,
    fun a => hend.ends.started_outside fun hok => ?_, hkept.params, hkept.platform, hkept.agenda, hkept.hostData⟩
  · rw [hend.read_ok hok]
    exact if_neg (ne_true_of_eq_false ha)
  · refine hend.ends.started_lagging_ok hok ?_
    rw [hend.outLen_toNat hok]
    exact ha
  · rw [hend.outLen_toNat hok]
    exact hend.length_le hok

/-! ## Every stream decodes to its input -/

/-- Every code has at least 8 bits, so a stream has no more codes than bytes (R96). -/
theorem length_lzwCodes_le_stream {p : Params} {d stream : List Byte} {pad : List Bool}
    (h : bytesBits stream = encodedBits p d ++ pad) : (lzwCodes p d).length ≤ stream.length := by
  obtain ⟨hbits, -⟩ := length_streamBits_bounds p 0 (lzwCodes p d)
  have hlen := congrArg List.length h
  rw [length_bytesBits, List.length_append, encodedBits] at hlen
  omega

theorem fullDecode_stream {p : Params} {d stream : List Byte} {pad : List Bool}
    (h : bytesBits stream = encodedBits p d ++ pad) (hpad : pad.length ≤ 7) : fullDecode p stream = (.ok, d) := by
  rw [fullDecode, decodeStream, h]
  exact decodeFrom_encoderTrace p d pad hpad _ (Nat.lt_succ_of_le (length_lzwCodes_le_stream h))

/-- Settles O44: the decoder's table follows the encoder's (`decodeFrom_encoderTrace`), with fuel for every code. -/
theorem everyStreamDecodesToItsInput : Obligations.EveryStreamDecodesToItsInput := by
  unfold Obligations.EveryStreamDecodesToItsInput
  exact fun _ _ _ _ => fullDecode_stream

/-! ## The tests on the output's length (R216 to R219) -/

theorem uncompressGuard_pass {p : Params} {n ratio cap x : Nat} (hcap : x ≤ cap)
    (hratio : n ≠ 1 → x * 2 ^ p.frac ≤ n * ratio) : uncompressGuard p n ratio cap x = none := by
  rcases uncompressGuard_cases p n ratio cap x with ⟨hg, -⟩ | ⟨-, hn, hover⟩ | ⟨-, hover, -⟩
  · exact hg
  · exact absurd (hratio hn) (Nat.not_le.mpr hover)
  · exact absurd hcap (Nat.not_le.mpr hover)

/-- A length that fits the window can fail on the ratio only. -/
theorem uncompressGuard_of_fits {p : Params} {n cap x : Nat} (ratio : Nat) (hcap : x ≤ cap) :
    uncompressGuard p n ratio cap x = none ∨ uncompressGuard p n ratio cap x = some .errRatio := by
  rcases uncompressGuard_cases p n ratio cap x with ⟨hg, -⟩ | ⟨hg, -⟩ | ⟨-, hover, -⟩
  · exact .inl hg
  · exact .inr hg
  · exact absurd hcap (Nat.not_le.mpr hover)

/-- A window of floor(n * R / 2^F) bytes holds every length that is within the ratio (R219). -/
theorem uncompressGuard_ne_overflow {p : Params} {n ratio cap : Nat} (hn : n ≠ 1) (hcap : n * ratio / 2 ^ p.frac ≤ cap)
    (x : Nat) : uncompressGuard p n ratio cap x ≠ some .errDstOverflow := by
  rcases uncompressGuard_cases p n ratio cap x with ⟨hg, -⟩ | ⟨hg, -⟩ | ⟨-, hover, hwithin⟩
  · rw [hg]; decide
  · rw [hg]; decide
  · have hfits : x ≤ n * ratio / 2 ^ p.frac := (Nat.le_div_iff_mul_le (Nat.two_pow_pos _)).mpr (hwithin hn)
    omega

/-- A stream whose full decode passes the tests at every length decodes so under them. -/
theorem State.decoded_of_pass {s : State} {out : List Byte} (h : fullDecode s.params s.input = (.ok, out))
    (hcap : out.length ≤ s.regs.dstCap.toNat)
    (hratio : s.regs.srcLen.toNat ≠ 1 → out.length * 2 ^ s.params.frac ≤ s.regs.srcLen.toNat * s.regs.ratio.toNat) :
    s.decoded = (.ok, out) :=
  decodeFrom_guard_pass _ _ _ _ _ _ _ _ _ h fun _ hx => uncompressGuard_pass (hx.trans hcap) fun hn =>
    (Nat.mul_le_mul_right _ hx).trans (hratio hn)

/-- A stream whose full decode fits the window and is not within the ratio fails on the ratio (R217). -/
theorem State.decoded_of_ratio {s : State} {out : List Byte} (h : fullDecode s.params s.input = (.ok, out))
    (hcap : out.length ≤ s.regs.dstCap.toNat) (hn : s.regs.srcLen.toNat ≠ 1)
    (hratio : s.regs.srcLen.toNat * s.regs.ratio.toNat < out.length * 2 ^ s.params.frac) :
    s.decoded = (.errRatio, []) := by
  refine (decodeFrom_guard_fail _ _ .errRatio _ _ _ _ _ _ _ h fun x hx =>
    uncompressGuard_of_fits _ (hx.trans hcap)).resolve_left fun hok => ?_
  have hstart : uncompressGuard s.params s.regs.srcLen.toNat s.regs.ratio.toNat s.regs.dstCap.toNat 0 = none :=
    uncompressGuard_pass (Nat.zero_le _) fun _ => by simp
  have hend := decodeFrom_ok_guard _ _ _ _ _ _ _ _ _ hok hstart (uncompressGuard_ne_ok _ _ _ _)
  rcases uncompressGuard_cases s.params s.regs.srcLen.toNat s.regs.ratio.toNat s.regs.dstCap.toNat out.length with
    ⟨-, -, hwithin⟩ | ⟨hg, -⟩ | ⟨hg, -⟩
  · exact absurd (hwithin hn) (Nat.not_le.mpr hratio)
  · rw [hg] at hend; cases hend
  · rw [hg] at hend; cases hend

/-! ## The round trip (R223) -/

/-- The bytes of a bit sequence in the layout of R150 are its bits, with zeros after them. -/
theorem bytesBits_byteAt {bits : List Bool} {n : Nat} (h : bits.length ≤ 8 * n) :
    bytesBits ((List.range n).map (byteAt bits)) = bits ++ List.replicate (8 * n - bits.length) false := by
  have hlen : ((List.range n).map (byteAt bits)).length = n := by rw [List.length_map, List.length_range]
  refine eq_of_getD_eq _ _ ?_ fun j hj => ?_
  · rw [length_bytesBits, hlen, List.length_append, List.length_replicate, Nat.add_sub_cancel' h]
  rw [length_bytesBits] at hj
  have hbyte : ((List.range n).map (byteAt bits)).getD (j / 8) 0 = byteAt bits (j / 8) := by
    have hrange : j / 8 < n := by omega
    simp [hrange]
  rw [List.getD_eq_getElem?_getD, getElem?_bytesBits _ _ hj, Option.getD_some, hbyte,
    getLsbD_byteAt _ _ _ (Nat.mod_lt j (by decide)), Nat.div_add_mod]
  rcases Nat.lt_or_ge j bits.length with hin | hout
  · rw [List.getD_append _ _ _ _ hin]
  · rw [List.getD_append_right _ _ _ _ hout, List.getD_eq_default _ _ hout, List.getD_eq_getElem?_getD,
      List.getElem?_getD_replicate_default_eq]

/-- What COMPRESS writes decodes in full to its input. -/
theorem fullDecode_encoded (p : Params) (d : List Byte) :
    fullDecode p ((List.range (encodedLength p d)).map (byteAt (encodedBits p d))) = (.ok, d) := by
  have hlen : (encodedBits p d).length ≤ 8 * encodedLength p d := by rw [encodedLength]; omega
  refine fullDecode_stream (bytesBits_byteAt hlen) ?_
  rw [List.length_replicate, encodedLength]
  omega

theorem fullDecode_nil (p : Params) : fullDecode p [] = (.ok, []) :=
  decodeFrom_end p (fun _ => none) 0 [] 0 [] 0 [] (Nat.zero_le 7)

/-- A stream of no bytes decodes to nothing. -/
theorem eq_nil_of_fullDecode {p : Params} {stream d : List Byte} (h : fullDecode p stream = (.ok, d))
    (hlen : stream.length = 0) : d = [] := by
  rw [List.eq_nil_of_length_eq_zero hlen, fullDecode_nil] at h
  exact (Prod.mk.inj h).2.symm

/-- A COMPRESS that ends OK leaves a stream of OUT_LEN bytes that decodes in full to the input (R187). -/
theorem compress_ok_stream {s t : State} (h : s.Ready .compress) (hp : stepBound s.regs.srcLen ≤ s.env.pace)
    (hexec : exec .compress s = .next t) (hok : t.regs.result = .ok) :
    fullDecode s.params (t.mem.bytes s.regs.dstAddr.toNat t.regs.outLen.toNat) = (.ok, s.input) := by
  obtain ⟨t', hexec', hresult, -, houtput⟩ := exec_shows (.inl ⟨rfl, rfl⟩) s h hp
  obtain rfl : t' = t := Host.Outcome.next.inj (hexec'.symm.trans hexec)
  rw [houtput (hresult.symm.trans hok)]
  exact fullDecode_encoded s.params s.input

/-- Settles O45: COMPRESS's output decodes in full to the input, and every length on the way passes the tests. -/
theorem roundTrip : Obligations.RoundTrip := by
  unfold Obligations.RoundTrip
  intro s t u hs hps hexec hok hu hpu hparams hlen hinput hcap hratio
  have hfull : fullDecode u.params u.input = (.ok, s.input) := by
    rw [hparams, hinput]
    exact compress_ok_stream hs hps hexec hok
  have hwithin : u.regs.srcLen.toNat ≠ 1 →
      s.input.length * 2 ^ u.params.frac ≤ u.regs.srcLen.toNat * u.regs.ratio.toNat := by
    intro hne
    rw [hparams, hlen]
    rcases hratio with hratio | hshort
    · rwa [length_input]
    · have hempty : u.input.length = 0 := by rw [← hlen] at hshort; rw [length_input]; omega
      rw [eq_nil_of_fullDecode hfull hempty, List.length_nil, Nat.zero_mul]
      exact Nat.zero_le _
  have hdecoded := State.decoded_of_pass hfull (by rwa [length_input]) hwithin
  obtain ⟨v, hexecv, hidle, hshows⟩ := exec_uncompress_decoded u hu hpu
  rw [hdecoded] at hshows
  refine ⟨v, hexecv, hidle, hshows.result, hshows.outLen.trans ?_, hshows.output rfl⟩
  rw [if_pos rfl, length_input, BitVec.ofNat_toNat, BitVec.setWidth_eq]

/-! ## Inputs of at most one byte (R221, R222) -/

/-- An empty stream ends at once (R222). -/
theorem uncompressLoop_empty {s : State} (h : s.eng.lLen.toNat = 0) : uncompressLoop s = finish .ok
    { s with regs := { s.regs with outLen := BitVec.ofNat 32 s.eng.olen } } := by
  have havail : brAvail s.eng = 0 := by rw [brAvail, h]; omega
  obtain ⟨hwidth, -⟩ := codeWidth_bounds s.params s.eng.i
  rw [uncompressLoop, if_pos (by omega), uncompressEnd, if_pos (by omega)]

/-- Settles O37: the pass writes nothing, and an OK leaves nothing unspecified. -/
theorem uncompressOfNothing : Obligations.UncompressOfNothing := by
  unfold Obligations.UncompressOfNothing
  intro s h hp hlen
  have hzero : s.regs.srcLen.toNat = 0 := by rw [hlen]; rfl
  have hstep : engineStep (uncompressStart (started .uncompress s)) =
      uncompressLoop (uncompressStart (started .uncompress s)) :=
    engineStep_loop _ rfl rfl (started_noError _ s h) h.answers
  have hrun : engineRun (1 + 2) (accept .uncompress s) = finish .ok _ :=
    (started_run .uncompress s h 1).trans (hstep.trans (uncompressLoop_empty hzero))
  have hexec := exec_ready (n := 1 + 2) (.inr ⟨rfl, rfl⟩) s h (by rw [stepBound] at hp; omega) (by rw [hrun]; rfl)
  rw [hrun] at hexec
  exact ⟨_, hexec, rfl, rfl, finish_ok_mem rfl⟩

/-- One byte decodes to itself, or fails on the test of its one length (R221). -/
theorem decodeStream_one (p : Params) (guard : Nat → Option Result) (b : Byte) :
    decodeStream p guard [b] = (guard 1).elim (.ok, [b]) fun r => (r, []) := by
  have hbits : bytesBits [b] = codeBits 8 b.toNat := List.append_nil _
  have hvalue : bitsValue ((codeBits 8 b.toNat).take 8) = b.toNat := by
    rw [List.take_of_length_le (length_codeBits 8 _).le, bitsValue_codeBits 8 _ b.isLt]
  have hrest : (codeBits 8 b.toNat).drop 8 = [] := List.drop_of_length_le (length_codeBits 8 _).le
  rw [decodeStream, hbits, List.length_singleton, decodeFrom]
  simp only [codeWidth_zero, length_codeBits, hvalue, hrest, dictResolve_zero, BitVec.ofNat_toNat, BitVec.setWidth_eq,
    List.length_nil, List.length_singleton, Nat.zero_add, List.nil_append, Nat.lt_irrefl, if_false]
  cases guard 1 with
  | some r => rfl
  | none => exact decodeFrom_end p guard 0 [] 1 _ _ _ (Nat.zero_le 7)

theorem State.decoded_one {s : State} (h : s.regs.srcLen = 1) :
    s.decoded = (uncompressGuard s.params 1 s.regs.ratio.toNat s.regs.dstCap.toNat 1).elim
      (.ok, [s.mem.read s.regs.srcAddr.toNat]) fun r => (r, []) := by
  rw [State.decoded, input_of_one h, decodeStream_one, h]
  rfl

/-- Settles O38: the ratio is not tested on one byte, so the capacity alone decides. -/
theorem uncompressOfOneByte : Obligations.UncompressOfOneByte := by
  unfold Obligations.UncompressOfOneByte
  intro s h hp hlen
  obtain ⟨u, hexec, hend⟩ := exec_uncompress_finish s h hp
  have hdecoded := State.decoded_one hlen
  have hregs := hend.regs
  refine ⟨_, hexec, rfl, fun hcap => ?room, fun hcap => ?noRoom⟩
  case room =>
    rw [uncompressGuard_pass hcap fun hne => absurd rfl hne] at hdecoded
    have hread := hend.read_ok (congrArg Prod.fst hdecoded)
    rw [hdecoded] at hread hregs ⊢
    refine ⟨hregs, ?_, fun a ha => ?_⟩
    · exact read_window (f := (List.getD _ · 0)) hread Nat.one_pos
    · have houtside : ¬ inRange s.regs.dstAddr.toNat 1 a = true := by rw [inRange_iff]; omega
      rw [hread]
      exact if_neg houtside
  case noRoom =>
    have hover : uncompressGuard s.params 1 s.regs.ratio.toNat s.regs.dstCap.toNat 1 = some .errDstOverflow := by
      rw [hcap]
      rfl
    rw [hover] at hdecoded
    rw [hregs, hdecoded]
    rfl

/-! ## The ratio guard and the capacity (R217 to R219) -/

/-- Settles O40: the guard lets every length up to the output's pass, or the output's own length fails on the ratio. -/
theorem ratioGuardIsExact : Obligations.RatioGuardIsExact := by
  unfold Obligations.RatioGuardIsExact
  intro s out h hp hn hfull hcap
  have hne : s.regs.srcLen.toNat ≠ 1 := by omega
  obtain ⟨u, hexec, hend⟩ := exec_uncompress_finish s h hp
  refine ⟨_, hexec, rfl, fun hwithin => ?_, fun hover => ?_⟩
  · have hdecoded := State.decoded_of_pass hfull hcap fun _ => hwithin
    have hok : s.decoded.1 = .ok := congrArg Prod.fst hdecoded
    have hbytes := hend.bytes_ok hok
    have houtLen := hend.outLen_toNat hok
    rw [hdecoded] at hbytes houtLen ⊢
    exact ⟨rfl, houtLen, hbytes⟩
  · rw [State.decoded_of_ratio hfull hcap hne hover]
    exact ⟨rfl, rfl⟩

/-- Settles O42: a decoding whose tests never give ERR_DST_OVERFLOW does not end with it. -/
theorem uncompressCapacityThatSuffices : Obligations.UncompressCapacityThatSuffices := by
  unfold Obligations.UncompressCapacityThatSuffices
  intro s t h hp hn hcap hexec
  obtain ⟨t', hexec', hidle, hshows⟩ := exec_uncompress_decoded s h hp
  obtain rfl : t' = t := Host.Outcome.next.inj (hexec'.symm.trans hexec)
  refine ⟨hidle, ?_⟩
  rw [hshows.result]
  exact decodeFrom_ne _ _ _ (uncompressGuard_ne_overflow (by omega) hcap) (by decide) _ _ _ _ _ _

/-! ## The output at every step (R218) -/

/-- A length that is within the ratio of the running command, as a number of bytes. -/
def State.Within (s : State) (x : Nat) : Prop := x * 2 ^ s.params.frac ≤ s.eng.lLen.toNat * s.eng.lRatio.toNat

theorem State.Within.mono {s : State} {x y : Nat} (h : s.Within y) (hxy : x ≤ y) : s.Within x :=
  (Nat.mul_le_mul_right _ hxy).trans h

/-- A decode pass of other than one byte whose output, and OUT_LEN, are within the ratio; also when it has ended. -/
structure State.RatioKept (s : State) : Prop where
  op     : s.eng.op = .uncompress
  stage  : s.eng.stage = .loop
  len    : s.eng.lLen.toNat ≠ 1
  output : s.Within s.eng.olen
  outLen : s.Within s.regs.outLen.toNat

theorem State.RatioKept.finish {s : State} (h : s.RatioKept) (r : Result) : (finish r s).RatioKept where
  op := h.op
  stage := h.stage
  len := h.len
  output := h.output
  outLen := by
    rw [finish_regs, complete_outLen]
    split
    · exact h.outLen
    · exact h.outLen.mono (Nat.zero_le _)

theorem State.RatioKept.uncompressEnd {s : State} (h : s.RatioKept) : (uncompressEnd s).RatioKept := by
  unfold Machine.uncompressEnd
  split
  · have hlen : (BitVec.ofNat 32 s.eng.olen).toNat ≤ s.eng.olen := by
      rw [BitVec.toNat_ofNat]
      exact Nat.mod_le _ _
    exact State.RatioKept.finish (s := { s with regs := { s.regs with outLen := BitVec.ofNat 32 s.eng.olen } })
      { h with outLen := h.output.mono hlen } .ok
  · exact h.finish .errTruncated

/-- A code's bytes are appended after the guard has let the new length pass (R217). -/
theorem State.RatioKept.uncompressAppend {s : State} (h : s.RatioKept) (c : Nat) (cur : List Byte) :
    (uncompressAppend c cur s).RatioKept := by
  rw [uncompressAppend_eq]
  rcases uncompressGuard_cases s.params s.eng.lLen.toNat s.eng.lRatio.toNat s.eng.lCap.toNat
    (s.eng.olen + cur.length) with ⟨hg, -, hwithin⟩ | ⟨hg, -⟩ | ⟨hg, -⟩ <;> rw [State.guard, hg]
  · exact { h with output := hwithin h.len }
  · exact h.finish .errRatio
  · exact h.finish .errDstOverflow

theorem State.RatioKept.brAdvance {s : State} (h : s.RatioKept) : (brAdvance s).RatioKept := { h with }

theorem State.RatioKept.resolved {s : State} (h : s.RatioKept) (cur : List Byte) : (resolved cur s).RatioKept :=
  { h with }

theorem State.RatioKept.engineLoop {s : State} (h : s.RatioKept) : (engineLoop s).RatioKept := by
  rw [Machine.engineLoop, h.op]
  simp only
  unfold uncompressLoop
  split
  · exact h.uncompressEnd
  · simp only
    split
    · exact h.brAdvance.finish .errUndefCode
    · exact (h.resolved _).uncompressAppend _ _

theorem State.RatioKept.engineStep {s : State} (h : s.RatioKept) : (engineStep s).RatioKept := by
  cases hb : s.eng.busy with
  | false => rwa [engineStep_idle s hb]
  | true =>
    have hstep : Machine.engineStep s = s.onPort (Machine.engineLoop s) := by simp [Machine.engineStep, hb, h.stage]
    rw [hstep]
    rcases s.onPort_cases (Machine.engineLoop s) with hport | hport | hport <;> rw [hport]
    · exact h.finish .errBus
    · exact h
    · exact h.engineLoop

theorem State.RatioKept.engineRun {s : State} (h : s.RatioKept) (n : Nat) : (engineRun n s).RatioKept := by
  induction n generalizing s with
  | zero => exact h
  | succ n ih => exact ih h.engineStep

/-- The pass starts with no output. -/
theorem uncompressStart_ratioKept {s : State} (ho : s.eng.op = .uncompress) (hlen : s.eng.lLen.toNat ≠ 1)
    (hout : s.regs.outLen = 0) : (uncompressStart s).RatioKept where
  op := ho
  stage := rfl
  len := hlen
  output := by simp [State.Within, uncompressStart]
  outLen := by simp [State.Within, uncompressStart, hout]

/-- Settles O41: the pass starts within the ratio, and every step of it keeps that. -/
theorem outputStaysWithinTheRatio : Obligations.OutputStaysWithinTheRatio := by
  unfold Obligations.OutputStaysWithinTheRatio
  intro s n h hne hn u
  obtain ⟨m, rfl⟩ := Nat.exists_eq_add_of_le' hn
  have hstart : (engineStart (started .uncompress s)).RatioKept :=
    uncompressStart_ratioKept rfl (fun hone => hne (BitVec.eq_of_toNat_eq hone)) rfl
  have hkept := engineRun_kept (m + 2) (accept .uncompress s)
  obtain ⟨-, -, -, houtput, houtLen⟩ : u.RatioKept := by
    show (engineRun (m + 2) (accept .uncompress s)).RatioKept
    rw [started_run _ _ h]
    exact hstart.engineRun m
  rw [State.Within, hkept.params, hkept.lLen, hkept.lRatio] at houtput houtLen
  exact ⟨houtput, houtLen⟩

end Sys2Proof.Machine

/-! Turns in which the host accesses a register (spec/10_state.md R23, spec/44_commands.md R259, R260): a read, a write at
every offset but CMD's, and the CMD write that issues a command. -/

namespace Sys2Proof.Machine

/-! ## The register map (R22) -/

@[simp] theorem regAt_regOffset (r : Reg) : regAt (regOffset r) = some r := by cases r <;> rfl

theorem eq_regOffset_of_regAt {o : Nat} {r : Reg} (h : regAt o = some r) : o = regOffset r := by
  unfold regAt at h
  split at h <;> cases h <;> rfl

/-- A reserved offset is no register's. -/
theorem ne_of_reserved {o : Nat} (h : regAt o = none) :
    o ≠ 0x00 ∧ o ≠ 0x04 ∧ o ≠ 0x0C ∧ o ≠ 0x10 ∧ o ≠ 0x14 ∧ o ≠ 0x18 ∧ o ≠ 0x1C ∧ o ≠ 0x20 ∧ o ≠ 0x24 := by
  have hne : ∀ r, o ≠ regOffset r := by
    rintro r rfl
    simp at h
  exact ⟨hne .param, hne .ctrl, hne .status, hne .srcAddr, hne .srcLen, hne .dstAddr, hne .dstCap, hne .ratio, hne .outLen⟩

theorem ctrlWord_eq (irqEn : Bool) : ctrlWord irqEn = if irqEn = true then 0x00000001 else 0x00000000 := by
  cases irqEn <;> decide

/-- What a read returns, offset by offset (R259). -/
theorem readReg_eq (s : State) (o : Nat) : s.readReg o =
    if o = 0x00 then paramWord s.params
    else if o = 0x04 then (if s.regs.irqEn = true then 0x00000001 else 0x00000000)
    else if o = 0x0C then s.status else if o = 0x10 then s.regs.srcAddr else if o = 0x14 then s.regs.srcLen
    else if o = 0x18 then s.regs.dstAddr else if o = 0x1C then s.regs.dstCap
    else if o = 0x20 then s.regs.ratio else if o = 0x24 then s.regs.outLen else 0 := by
  rw [← ctrlWord_eq]
  cases hr : regAt o with
  | some r =>
    obtain rfl := eq_regOffset_of_regAt hr
    cases r <;> rfl
  | none => simp [State.readReg, hr, ne_of_reserved hr]

/-- What a write changes, field by field (R260, R261). -/
theorem write_eq (r : Regs) (o : Nat) (v : Word) : r.write o v =
    { r with
      irqEn   := if o = 0x04 then v.getLsbD 0 else r.irqEn
      done    := if o = 0x0C ∧ v.getLsbD 1 = true then false else r.done
      srcAddr := if o = 0x10 then v else r.srcAddr
      srcLen  := if o = 0x14 then v else r.srcLen
      dstAddr := if o = 0x18 then v else r.dstAddr
      dstCap  := if o = 0x1C then v else r.dstCap
      ratio   := if o = 0x20 then v else r.ratio } := by
  cases hr : regAt o with
  | some reg =>
    obtain rfl := eq_regOffset_of_regAt hr
    cases reg with
    | status =>
      rw [write_status]
      cases hv : v.getLsbD 1 <;> simp [regOffset]
    | _ => rfl
  | none => simp [Regs.write, hr, ne_of_reserved hr]

/-! ## Reads and writes as turns -/

/-- The data of a read, and what a read of STATUS settles of the host's view (R71). -/
theorem hostRead_eq (s : State) (o : Nat) : hostRead o s = { s with env := { s.env with
    hostData := s.readReg o
    unseen   := if o = 0x0C ∧ (s.eng.busy = false ∨ s.regs.done = true) then [] else s.env.unseen
    stale    :=
      if o = 0x0C ∧ (s.eng.busy = false ∨ s.regs.done = true) ∧ s.env.platform.coherent = false
      then s.env.unseen ++ s.env.stale else s.env.stale } } := by
  simp only [hostRead, Bool.and_eq_true, Bool.not_eq_true', observes_iff, and_assoc]

/-- Settles O9: the turn is its read (`hostRead_eq`), which returns the register of the offset (`readReg_eq`). -/
theorem registerReadWritesNothing : Obligations.RegisterReadWritesNothing := by
  unfold Obligations.RegisterReadWritesNothing
  intro s o port rest ho ho' h
  rw [step_read h rfl rfl ho ho', beginTurn_eq h, hostRead_eq, readReg_eq]
  rfl

/-- A register write is its effect on the turn that has begun (R260). -/
theorem step_write {s : State} {t : Turn} {rest : List Turn} {o : Nat} {v : Word} (h : s.env.agenda = t :: rest)
    (hm : t.move = .write o 4 v) (ho : o % 4 = 0) (ho' : o < 0x40) : step s = hostWrite o v s.beginTurn := by
  have hok : regAccessOk o 4 = true := (regAccessOk_iff o 4).mpr ⟨rfl, ho, ho'⟩
  rw [step_of_agenda h, applyMove, hm]
  simp only
  rw [if_pos hok]

theorem hostWrite_of_ne_cmd {o : Nat} (h : o ≠ 0x08) (v : Word) (s : State) :
    hostWrite o v s = settle { s with regs := s.regs.write o v } := if_neg h

/-- Settles O10: the turn is its write, which changes the register of the offset (`write_eq`). -/
theorem registerWriteEffects : Obligations.RegisterWriteEffects := by
  unfold Obligations.RegisterWriteEffects
  intro s o v port rest ho ho' hcmd h
  rw [step_write h rfl ho ho', hostWrite_of_ne_cmd hcmd, beginTurn_eq h, settle_pace_zero rfl, write_eq]

/-! ## The CMD write (R250) -/

theorem step_writeCmd {s : State} {t : Turn} {rest : List Turn} {v : Word} (h : s.env.agenda = t :: rest)
    (hm : t.move = wr32 .cmd v) : step s = writeCmd v s.beginTurn := by
  rw [step_write h hm (by decide) (by decide)]
  exact if_pos rfl

theorem writeCmd_of_decode {v : Word} {i : Instr} (h : decode v = .ok i) (s : State) : writeCmd v s = exec i s := by
  rw [writeCmd, h]

theorem writeCmd_illegal {v : Word} {e : DecodeError} (h : decode v = .error e) (s : State) :
    writeCmd v s = settle (illegalCommand s) := by
  rw [writeCmd, h]

/-- Settles O3: the turn is the CMD write of its value. -/
theorem stepRunsTheDecodedCommand : Obligations.StepRunsTheDecodedCommand := by
  unfold Obligations.StepRunsTheDecodedCommand
  intro s v pace port rest h begun
  have hstep : step s = writeCmd v begun := by rw [step_writeCmd h rfl, beginTurn_eq h]
  exact ⟨fun i hi _ => hstep.trans (writeCmd_of_decode hi begun), fun _ _ => hstep⟩

theorem decode_of_decodeTableWord {w : Nat} {i : Instr} (h : decodeTableWord 32 w = some i) :
    decode (BitVec.ofNat 32 (w % 2 ^ 32)) = .ok i := by
  unfold decodeTableWord at h
  rw [if_pos (Nat.mod_lt w (by decide))] at h
  split at h
  case h_1 hdecode => rwa [hdecode, Except.ok.injEq, ← Option.some.injEq]
  case h_2 => cases h

/-- Settles O4: the scheduled turn is the CMD write of the word. -/
theorem fetchedWordRunsNext : Obligations.FetchedWordRunsNext := by
  unfold Obligations.FetchedWordRunsNext
  intro s w i h
  have hagenda : (s.withFetchWord 32 w).env.agenda =
      { move := wr32 .cmd (BitVec.ofNat 32 (w % 2 ^ 32)), pace := stepBound s.regs.srcLen, port := .completes }
        :: s.env.agenda := rfl
  rw [step_writeCmd hagenda rfl, writeCmd_of_decode (decode_of_decodeTableWord h), beginTurn_eq hagenda]
  rfl

end Sys2Proof.Machine

/-! The commands at their CMD write (spec/44_commands.md R250 to R255): NOP, an illegal value, a write while BUSY, and
acceptance. -/

namespace Sys2Proof.Machine

/-- Settles O14: NOP is the turn's engine steps alone, and an idle engine takes none. -/
theorem nopChangesNothing : Obligations.NopChangesNothing := by
  unfold Obligations.NopChangesNothing
  exact ⟨decode_encode .nop, fun s => ⟨fun hb => settle_idle s hb, fun _ => rfl⟩⟩

theorem illegalCommand_idle {s : State} (hb : s.eng.busy = false) :
    illegalCommand s = { s with regs := { s.regs with outLen := 0, result := .errIllegalCmd, done := true } } := by
  simp [illegalCommand, hb]

theorem illegalCommand_busy {s : State} (hb : s.eng.busy = true) : illegalCommand s = s := if_pos hb

/-- Settles O15: the value decodes to no command, and the completion leaves the engine idle. -/
theorem illegalCommandCompletesAtOnce : Obligations.IllegalCommandCompletesAtOnce := by
  unfold Obligations.IllegalCommandCompletesAtOnce
  intro s v hb h0 h1 h2
  obtain ⟨hbusy, hdone, -, -, hresult⟩ := statusWord_fields s.eng.busy true .errIllegalCmd
  refine ⟨illegalCommand s, ?_, ?_⟩
  · rw [writeCmd_illegal (decode_illegal h0 h1 h2), illegalCommand_idle hb]
    exact settle_idle _ hb
  · rw [illegalCommand_idle hb]
    exact ⟨rfl, congrArg BitVec.toNat hresult, hdone, hbusy.trans hb, Bool.and_true _, rfl⟩

/-- Every command written while one runs is ignored (R255). -/
theorem exec_busy (i : Instr) {s : State} (hb : s.eng.busy = true) : exec i s = settle s := by
  cases i with
  | nop => rfl
  | compress => exact if_pos hb
  | uncompress => exact if_pos hb

/-- Settles O16: a value is a command's word or illegal, and both are ignored while BUSY. -/
theorem cmdWriteWhileBusyIgnored : Obligations.CmdWriteWhileBusyIgnored := by
  unfold Obligations.CmdWriteWhileBusyIgnored
  intro s v hb
  show writeCmd v s = settle s
  rcases decode_cases v with ⟨i, rfl⟩ | hillegal
  · rw [writeCmd_of_decode (decode_encode i), exec_busy i hb]
  · rw [writeCmd_illegal hillegal, illegalCommand_busy hb]

/-- Settles O17: without engine steps in its turn the command is its acceptance. -/
theorem acceptanceLatchesOperands : Obligations.AcceptanceLatchesOperands := by
  unfold Obligations.AcceptanceLatchesOperands
  intro s i op hi hb hp hw
  exact ⟨accept op s, exec_accepts hi hb hp hw, rfl, rfl, rfl, rfl, rfl, rfl, rfl, rfl, rfl, rfl, rfl, rfl,
    Bool.and_false _⟩

end Sys2Proof.Machine

/-! Completion of a running command (spec/44_commands.md R258, spec/70_reset_and_hazards.md R337): its end where its accesses
complete, the end of a WAIT, and an access that never completes. -/

namespace Sys2Proof.Machine

/-! ## Accesses that complete -/

/-- Every step of a command that nothing keeps waiting takes from its work, until it ends. -/
theorem engineRun_progress (n : Nat) {s : State} (hb : s.eng.busy = true) (hp : s.Progresses) :
    (engineRun n s).eng.busy = false ∨
      (engineRun n s).eng.busy = true ∧ (engineRun n s).eng.work + n ≤ s.eng.work ∧ (engineRun n s).Progresses := by
  induction n generalizing s with
  | zero => exact .inr ⟨hb, Nat.le_refl _, hp⟩
  | succ n ih =>
    rw [engineRun]
    rcases engineStep_progress s hb hp with hidle | ⟨hbusy, hwork, hanswered⟩
    · left
      rwa [engineRun_idle n _ hidle]
    · refine (ih hbusy (.inl hanswered)).imp_right fun ⟨hbusy', hwork', hp'⟩ => ⟨hbusy', ?_, hp'⟩
      omega

/-- A command that has ended in a run has completed (R256). -/
theorem engineRun_completed {n : Nat} {s : State} (hb : s.eng.busy = true) (hidle : (engineRun n s).eng.busy = false) :
    (engineRun n s).regs.done = true ∧ (engineRun n s).regs.result ≠ .none ∧
      ((engineRun n s).regs.result ≠ .ok → (engineRun n s).regs.outLen = 0) := by
  rcases engineRun_cases n s hb with ⟨-, hbusy⟩ | ⟨-, hcompleted⟩
  · exact absurd (hbusy.symm.trans hidle) (by decide)
  · exact hcompleted

/-- A command that nothing keeps waiting completes within `stepBound` steps, and then stays as it is. -/
theorem engineRun_ends {s : State} (hb : s.eng.busy = true) (hp : s.Progresses) :
    ∃ n, n ≤ stepBound s.eng.lLen ∧ (engineRun n s).eng.busy = false ∧ (engineRun n s).regs.done = true ∧
      (engineRun n s).regs.result ≠ .none ∧ ((engineRun n s).regs.result ≠ .ok → (engineRun n s).regs.outLen = 0) ∧
      ∀ m, n ≤ m → engineRun m s = engineRun n s := by
  have hidle := engineRun_completes hb hp (Nat.le_refl s.eng.work)
  obtain ⟨hdone, hresult, houtLen⟩ := engineRun_completed hb hidle
  exact ⟨s.eng.work, s.eng.work_le, hidle, hdone, hresult, houtLen, fun m hm => engineRun_of_le hm s hidle⟩

/-! ## WAIT (R104) -/

/-- The turn is a WAIT: a POLL for BUSY = 0. -/
def IsWait (t : Turn) : Prop := t.move = .poll 0x0C 0x00000001 0x00000000

theorem IsWait.again {t : Turn} (h : IsWait t) : IsWait (turnAgain t) := h

/-- What WAIT looks at: bit 0 of STATUS is BUSY (R27). -/
theorem status_and_one (s : State) : s.readReg 0x0C &&& 0x00000001 = 0x00000000 ↔ s.eng.busy = false := by
  show statusWord s.eng.busy s.regs.done s.regs.result &&& 1 = 0 ↔ _
  cases s.eng.busy <;> cases s.regs.done <;> cases s.regs.result <;> decide

/-- Whether the engine waits depends on it and on the platform's answers alone. -/
theorem State.Progresses.of_eq {s u : State} (h : s.Progresses) (hport : u.env.port = s.env.port) (heng : u.eng = s.eng) :
    u.Progresses := by
  unfold State.Progresses State.Answered at *
  rwa [hport, heng]

section Waits

variable {s : State} {t : Turn} {rest : List Turn} (hw : IsWait t) (h : s.env.agenda = t :: rest)
include hw h

/-- A WAIT after the end of the command is over, and changes nothing of the core. -/
theorem step_wait_idle (hb : s.eng.busy = false) :
    ∃ u, step s = .next u ∧ u.eng = s.eng ∧ u.regs = s.regs ∧ u.env.agenda = rest := by
  refine ⟨hostPoll t 0x0C 1 0 s.beginTurn, ?_, ?_⟩
  · rw [step_poll h hw (by decide) (by decide), hostPoll_eq]
    exact settle_idle _ hb
  · rw [hostPoll_eq, if_pos ((status_and_one s.beginTurn).mpr hb)]
    exact ⟨rfl, rfl, beginTurn_agenda_of_agenda h⟩

/-- A WAIT while the command runs is scheduled again, and its engine steps pass. -/
theorem step_wait_busy (hb : s.eng.busy = true) :
    ∃ u, step s = .next (engineRun t.pace u) ∧ u.eng = s.eng ∧ u.env.port = s.beginTurn.env.port ∧
      u.env.agenda = turnAgain t :: rest := by
  have hvalue : ¬ s.beginTurn.readReg 0x0C &&& 1 = 0 := fun hv => by
    simpa [hb] using (status_and_one s.beginTurn).mp hv
  refine ⟨hostPoll t 0x0C 1 0 s.beginTurn, ?_, ?_⟩
  · rw [step_poll h hw (by decide) (by decide), settle, hostPoll_eq, ← beginTurn_pace_of_agenda h]
    rfl
  · rw [hostPoll_eq, if_neg hvalue, beginTurn_agenda_of_agenda h]
    exact ⟨rfl, rfl, rfl⟩

/-- A WAIT for a command that nothing keeps waiting: the command ends in the turn, or has less work left for the WAIT that
follows. -/
theorem step_wait (hb : s.eng.busy = true) (hp : s.beginTurn.Progresses) :
    ∃ u, step s = .next u ∧ u.env.agenda = turnAgain t :: rest ∧
      (u.eng.busy = false ∧ u.regs.done = true ∨
        u.eng.busy = true ∧ u.beginTurn.Progresses ∧ u.eng.work + t.pace ≤ s.eng.work) := by
  obtain ⟨v, hstep, heng, hport, hagenda⟩ := step_wait_busy hw h hb
  have hbv : v.eng.busy = true := by rw [heng, hb]
  have hkept := engineRun_kept t.pace v
  have hagenda' := hkept.agenda.trans hagenda
  refine ⟨engineRun t.pace v, hstep, hagenda', ?_⟩
  rcases engineRun_progress t.pace hbv (hp.of_eq hport heng) with hidle | ⟨hbusy, hwork, hp'⟩
  · exact .inl ⟨hidle, (engineRun_completed hbv hidle).1⟩
  · refine .inr ⟨hbusy, hp'.of_eq ?_ rfl, heng ▸ hwork⟩
    rw [hkept.port, hport, beginTurn_eq h, beginTurn_eq hagenda']
    rfl

end Waits

/-- A WAIT ends in one turn more than the command has work, and in one more still where its first turn has no engine step:
from then on every turn has one (R337). -/
theorem run_wait {s : State} {t : Turn} {rest : List Turn} (hw : IsWait t) (h : s.env.agenda = t :: rest)
    (hb : s.eng.busy = true) (hp : s.beginTurn.Progresses) :
    ∃ n u, n ≤ s.eng.work + (1 - t.pace) + 1 ∧ Host.Core.run Sys2Proof.core n s = .next u ∧ u.eng.busy = false ∧
      u.regs.done = true ∧ u.env.agenda = rest := by
  induction hm : s.eng.work + (1 - t.pace) using Nat.strong_induction_on generalizing s t with
  | _ m ih =>
    obtain ⟨u, hstep, hagenda, ⟨hidle, hdone⟩ | ⟨hbusy, hp', hwork⟩⟩ := step_wait hw h hb hp
    · obtain ⟨v, hstep', heng, hregs, hrest⟩ := step_wait_idle hw.again hagenda hidle
      have := s.eng.work_pos
      refine ⟨2, v, by omega, ?_, by rw [heng, hidle], by rw [hregs, hdone], hrest⟩
      rw [run_succ hstep, run_succ hstep']
      rfl
    · have hpace : 1 - (turnAgain t).pace = 0 := Nat.sub_eq_zero_of_le (Nat.le_max_right _ _)
      obtain ⟨n, v, hn, hrun, hv⟩ := ih u.eng.work (by omega) hw.again hagenda hbusy hp' (by rw [hpace, Nat.add_zero])
      exact ⟨n + 1, v, by omega, by rw [run_succ hstep, hrun], hv⟩

/-! ## An access that never completes (U16) -/

/-- The running command's next step waits for an access that the platform does not complete. -/
structure State.Stuck (s : State) : Prop where
  busy    : s.eng.busy = true
  pass    : s.eng.stage ≠ .checks
  stalled : s.stalled = true

theorem State.Stuck.run_eq {s : State} (h : s.Stuck) (n : Nat) : engineRun n s = s := by
  induction n with
  | zero => rfl
  | succ n ih => rw [engineRun, engineStep_stalled s h.pass h.stalled, ih]

/-- A command that comes to such a step never ends, for an end would last. -/
theorem State.Stuck.busy_always {k : Nat} {s : State} (h : (engineRun k s).Stuck) (n : Nat) :
    (engineRun n s).eng.busy = true := by
  refine Bool.eq_true_of_not_eq_false fun hidle => ?_
  have hstays : engineRun (k + n) s = engineRun n s := engineRun_of_le (Nat.le_add_left n k) s hidle
  rw [engineRun_add, h.run_eq n] at hstays
  exact absurd (h.busy.symm.trans (hstays ▸ hidle)) (by decide)

/-- COMPRESS waits for its first source byte. -/
theorem started_compress_stuck {s : State} (hport : s.env.port = .pending) (hlen : s.regs.srcLen ≠ 0) :
    (started .compress s).Stuck where
  busy := rfl
  pass := Stage.noConfusion
  stalled := Bool.and_eq_true_iff.mpr ⟨decide_eq_true hport, Bool.and_eq_true_iff.mpr ⟨decide_eq_true hlen, rfl⟩⟩

/-- UNCOMPRESS waits for its first code, which has 8 bits. -/
theorem uncompressStart_stuck {s : State} (hport : s.env.port = .pending) (hlen : s.regs.srcLen ≠ 0) :
    (uncompressStart (started .uncompress s)).Stuck where
  busy := rfl
  pass := Stage.noConfusion
  stalled := by
    have hpos : s.regs.srcLen.toNat ≠ 0 := fun h => hlen (BitVec.eq_of_toNat_eq h)
    have hcode : codeWidth s.params 0 ≤ 8 * s.regs.srcLen.toNat := by
      rw [codeWidth_zero]
      omega
    exact Bool.and_eq_true_iff.mpr
      ⟨decide_eq_true hport, Bool.and_eq_true_iff.mpr ⟨decide_eq_true hlen, decide_eq_true hcode⟩⟩

/-- The pass of UNCOMPRESS starts without an access, whatever the platform answers. -/
theorem engineStep_started_uncompress {s : State} (hport : s.env.port = .pending) :
    engineStep (started .uncompress s) = uncompressStart (started .uncompress s) := by
  have herror : (started .uncompress s).busError = false :=
    Bool.and_eq_false_iff.mpr (.inl (decide_eq_false fun h => by cases hport.symm.trans h))
  have hstalled : (started .uncompress s).stalled = false := by simp [State.stalled, Engine.accesses, started]
  show State.onPort _ _ = _
  rw [State.onPort, herror, hstalled]
  rfl

/-- An accepted command whose input is not empty comes to its first access. -/
theorem accept_stuck (op : Op) {s : State} (hport : s.env.port = .pending) (hlen : s.regs.srcLen ≠ 0)
    (hlegal : operandsLegal op s.regs.srcAddr s.regs.srcLen s.regs.dstAddr s.regs.dstCap s.regs.ratio = true) :
    ∃ k, (engineRun k (accept op s)).Stuck := by
  have hchecks : engineStep (accept op s) = started op s := engineStep_checks _ rfl rfl hlegal
  cases op with
  | compress =>
    refine ⟨1, ?_⟩
    rw [engineRun, engineRun, hchecks]
    exact started_compress_stuck hport hlen
  | uncompress =>
    refine ⟨2, ?_⟩
    rw [engineRun, engineRun, engineRun, hchecks, engineStep_started_uncompress hport]
    exact uncompressStart_stuck hport hlen

/-- Settles O49: the work that is left bounds the engine steps and the turns, and a stuck command stays stuck. -/
theorem everyCommandCompletes : Obligations.EveryCommandCompletes := by
  unfold Obligations.EveryCommandCompletes
  refine ⟨fun s hb hp => engineRun_ends hb (or_assoc.mpr hp), ?wait, ?pending⟩
  case wait =>
    intro s pace port rest hb hp h
    have hprogresses : s.beginTurn.Progresses := by
      rw [beginTurn_eq h]
      exact or_assoc.mpr hp
    have hw : IsWait { move := .poll 0x0C 0x00000001 0x00000000, pace := pace, port := port } := rfl
    obtain ⟨n, t, hn, hrun, hend⟩ := run_wait hw h hb hprogresses
    have := s.eng.work_le
    exact ⟨n, t, by omega, hrun, hend⟩
  case pending =>
    intro s i op hi hb hport hlen hlegal hw
    obtain ⟨k, hstuck⟩ := accept_stuck op hport hlen hlegal
    refine ⟨engineRun s.env.pace (accept op s), ?_, fun n => ?_⟩
    · rw [exec_of_op hi, issue_accepts op s hb hw, settle, accept_env_pace]
    · rw [← engineRun_add]
      exact hstuck.busy_always _

end Sys2Proof.Machine

/-! Errors that the platform reports (spec/60_exceptions.md R286): which windows they can reach, a run of the engine without
them, and the turns in which the host makes no access (R302). -/

namespace Sys2Proof.Machine

/-! ## Turns without an access -/

theorem step_of_idle {s : State} (hm : s.turn.move = .idle) :
    step s = .next (engineRun s.beginTurn.env.pace s.beginTurn) := by
  rw [step, applyMove, hm]
  rfl

/-- With no turn scheduled the quiet turn passes (R337). -/
theorem beginTurn_of_empty {s : State} (h : s.env.agenda = []) :
    s.beginTurn = { s with env := { s.env with agenda := [], pace := 1, port := .completes } } := by
  simp [State.beginTurn, State.turn, h, quietTurn]

/-- Settles O56: the move of such a turn does nothing, and an idle engine takes no step. -/
theorem idleCoreKeepsItsState : Obligations.IdleCoreKeepsItsState := by
  unfold Obligations.IdleCoreKeepsItsState
  intro s pace port rest idle quiet
  refine ⟨fun h => ?scheduled, fun h => ?unscheduled⟩
  case scheduled =>
    have hstep : step s = .next (engineRun pace idle) := by
      rw [step_of_idle (by rw [State.turn, h]; rfl), beginTurn_eq h]
    exact ⟨hstep, fun hb => by rw [hstep, engineRun_idle pace idle hb]⟩
  case unscheduled =>
    have hstep : step s = .next (engineRun 1 quiet) := by
      rw [step_of_idle (by rw [State.turn, h]; rfl), beginTurn_of_empty h]
    exact ⟨hstep, fun hb => by rw [hstep, engineRun_idle 1 quiet hb]⟩

/-! ## The windows an error can reach -/

theorem windowsRejected_iff (pl : Platform) (src len dst cap : Nat) : windowsRejected pl src len dst cap = true ↔
    len ≠ 0 ∧ ∃ r ∈ pl.regions, ∃ a, inRange r.base r.size a = true ∧
      (r.rejectsRead = true ∧ inRange src len a = true ∨ r.rejectsWrite = true ∧ inRange dst cap a = true) := by
  simp only [windowsRejected, Bool.and_eq_true, Bool.or_eq_true, decide_eq_true_eq, List.any_eq_true, rangesMeet_iff]
  refine and_congr_right fun _ => exists_congr fun r => and_congr_right fun _ => ?_
  constructor
  · rintro (⟨hrejects, a, hwindow, hregion⟩ | ⟨hrejects, a, hwindow, hregion⟩)
    · exact ⟨a, hregion, .inl ⟨hrejects, hwindow⟩⟩
    · exact ⟨a, hregion, .inr ⟨hrejects, hwindow⟩⟩
  · rintro ⟨a, hregion, ⟨hrejects, hwindow⟩ | ⟨hrejects, hwindow⟩⟩
    · exact .inl ⟨hrejects, a, hwindow, hregion⟩
    · exact .inr ⟨hrejects, a, hwindow, hregion⟩

theorem busError_of_not_rejected {s : State} (h : s.eng.rejected s.env.platform = false) : s.busError = false :=
  Bool.and_eq_false_iff.mpr (.inr h)

/-- Windows the platform accepts throughout, or an empty input: no access can meet an error (R286). -/
theorem not_rejected_of_accepted {pl : Platform} {e : Engine}
    (h : e.lLen = 0 ∨ ∀ r ∈ pl.regions, ∀ a, inRange r.base r.size a = true →
      (e.inSrc a = true → r.rejectsRead = false) ∧ (e.inDst a = true → r.rejectsWrite = false)) :
    e.rejected pl = false := by
  refine Bool.eq_false_iff.mpr fun hrejected => ?_
  obtain ⟨hlen, r, hr, a, hregion, hwindow⟩ := (windowsRejected_iff ..).mp hrejected
  rcases h with hempty | haccepts
  · exact hlen (by rw [hempty]; rfl)
  · obtain ⟨hread, hwrite⟩ := haccepts r hr a hregion
    rcases hwindow with ⟨hrejects, hsrc⟩ | ⟨hrejects, hdst⟩
    · exact absurd hrejects (by rw [hread hsrc]; decide)
    · exact absurd hrejects (by rw [hwrite hdst]; decide)

theorem Kept.rejected {s t : State} (h : Kept s t) :
    t.eng.rejected t.env.platform = s.eng.rejected s.env.platform := by
  unfold Engine.rejected
  rw [h.platform, h.lSrc, h.lLen, h.lDst, h.lCap]

/-! ## Only the platform's report gives ERR_BUS -/

theorem compressVerdict_ne_errBus (L E cap : Nat) : compressVerdict L E cap ≠ .errBus := by
  unfold compressVerdict
  split_ifs <;> decide

theorem compressResult_ne_errBus (s : State) : (compressResult s).regs.result ≠ .errBus := by
  rw [compressResult_eq]
  exact compressVerdict_ne_errBus _ _ _

theorem guard_ne_errBus {s : State} {x : Nat} {r : Result} (h : s.guard x = some r) : r ≠ .errBus := by
  rcases uncompressGuard_cases s.params s.eng.lLen.toNat s.eng.lRatio.toNat s.eng.lCap.toNat x with
    ⟨hg, -⟩ | ⟨hg, -⟩ | ⟨hg, -⟩ <;> rw [State.guard, hg] at h <;> cases h <;> decide

theorem uncompressEnd_ne_errBus (s : State) : (uncompressEnd s).regs.result ≠ .errBus := by
  unfold uncompressEnd
  split <;> exact Result.noConfusion

section
variable {s : State} (h : s.regs.result ≠ .errBus)
include h

theorem uncompressAppend_ne_errBus (c : Nat) (cur : List Byte) :
    (uncompressAppend c cur s).regs.result ≠ .errBus := by
  rw [uncompressAppend_eq]
  split
  case h_1 hguard => exact guard_ne_errBus hguard
  · exact h

theorem engineChecks_ne_errBus : (engineChecks s).regs.result ≠ .errBus := by
  unfold engineChecks
  split
  · exact h
  · exact Result.noConfusion

theorem engineStart_ne_errBus : (engineStart s).regs.result ≠ .errBus := by
  unfold engineStart
  split
  · dsimp only [compressStart]
    split
    · exact compressResult_ne_errBus _
    · exact h
  · exact h

theorem engineLoop_ne_errBus : (engineLoop s).regs.result ≠ .errBus := by
  unfold engineLoop
  split
  · unfold compressLoop
    split
    · rw [(encStep_goes _ _).regs]
      exact h
    · exact compressResult_ne_errBus _
  · unfold uncompressLoop
    split
    · exact uncompressEnd_ne_errBus s
    · dsimp only
      split
      · exact Result.noConfusion
      case h_2 cur _ => exact uncompressAppend_ne_errBus (s := resolved cur s) h _ cur

theorem onPort_ne_errBus {next : State} (he : s.busError = false) (hn : next.regs.result ≠ .errBus) :
    (s.onPort next).regs.result ≠ .errBus := by
  unfold State.onPort
  rw [he]
  split
  · contradiction
  · split
    · exact h
    · exact hn

theorem engineStep_ne_errBus (he : s.busError = false) : (engineStep s).regs.result ≠ .errBus := by
  unfold engineStep
  split
  · exact h
  · split
    · exact engineChecks_ne_errBus h
    · exact onPort_ne_errBus h he (engineStart_ne_errBus h)
    · exact onPort_ne_errBus h he (engineLoop_ne_errBus h)

theorem engineRun_ne_errBus (n : Nat) (hr : s.eng.rejected s.env.platform = false) :
    (engineRun n s).regs.result ≠ .errBus := by
  induction n generalizing s with
  | zero => exact h
  | succ n ih =>
    exact ih (engineStep_ne_errBus h (busError_of_not_rejected hr)) ((engineStep_kept s).rejected.trans hr)

end

/-- Settles O53: no step can meet an error, and the windows stay as they are. -/
theorem noBusErrorOnAcceptedWindows : Obligations.NoBusErrorOnAcceptedWindows := by
  unfold Obligations.NoBusErrorOnAcceptedWindows
  intro s n haccepts h
  exact engineRun_ne_errBus h n (not_rejected_of_accepted haccepts)

/-! ## A pass uses the platform's answers in `onPort` alone -/

/-- The machine with the platform's answers of the turn replaced. -/
def State.withPort (port : PortAnswer) (s : State) : State := { s with env := { s.env with port := port } }

section
variable (port : PortAnswer) (s : State)

@[simp] theorem withPort_params : (s.withPort port).params = s.params := rfl
@[simp] theorem withPort_regs : (s.withPort port).regs = s.regs := rfl
@[simp] theorem withPort_eng : (s.withPort port).eng = s.eng := rfl
@[simp] theorem withPort_mem : (s.withPort port).mem = s.mem := rfl
@[simp] theorem withPort_brCode : brCode (s.withPort port) = brCode s := rfl

theorem finish_withPort (r : Result) : finish r (s.withPort port) = (finish r s).withPort port := rfl

theorem drain_withPort (n : Nat) : drain n (s.withPort port) = (drain n s).withPort port := by
  induction n generalizing s with
  | zero => rfl
  | succ n ih => exact ih (drainByte s)

theorem emit_withPort (c : Nat) : emit c (s.withPort port) = (emit c s).withPort port := by
  have hpend : pend c (s.withPort port) = (pend c s).withPort port := rfl
  rw [emit_eq, emit_eq, hpend, drain_withPort]
  rfl

theorem flush_withPort : flush (s.withPort port) = (flush s).withPort port := by
  unfold flush
  rw [withPort_eng]
  split <;> rfl

theorem encStep_withPort (b : Byte) : encStep b (s.withPort port) = (encStep b s).withPort port := by
  unfold encStep
  simp only [withPort_eng, emit_withPort]
  split <;> rfl

theorem compressResult_withPort : compressResult (s.withPort port) = (compressResult s).withPort port := by
  rw [compressResult_eq, compressResult_eq, withPort_eng, ← finish_withPort]
  split <;> rfl

theorem uncompressEnd_withPort : uncompressEnd (s.withPort port) = (uncompressEnd s).withPort port := by
  unfold uncompressEnd
  rw [withPort_eng]
  split <;> rfl

theorem uncompressAppend_withPort (c : Nat) (cur : List Byte) :
    uncompressAppend c cur (s.withPort port) = (uncompressAppend c cur s).withPort port := by
  have hguard : (s.withPort port).guard = s.guard := rfl
  rw [uncompressAppend_eq, uncompressAppend_eq, hguard, withPort_eng]
  split <;> rfl

theorem engineChecks_withPort : engineChecks (s.withPort port) = (engineChecks s).withPort port := by
  unfold engineChecks
  rw [withPort_eng]
  split <;> rfl

theorem compressStart_withPort : compressStart (s.withPort port) = (compressStart s).withPort port := by
  unfold compressStart
  rw [withPort_eng]
  dsimp only
  split
  · exact compressResult_withPort port
      { s with eng := { s.eng with table := [], acc := 0, nacc := 0, olen := 0, i := 0 } }
  · rfl

theorem engineStart_withPort : engineStart (s.withPort port) = (engineStart s).withPort port := by
  unfold engineStart
  rw [withPort_eng]
  split
  · exact compressStart_withPort port s
  · rfl

theorem engineLoop_withPort : engineLoop (s.withPort port) = (engineLoop s).withPort port := by
  unfold engineLoop
  rw [withPort_eng]
  split
  · unfold compressLoop
    rw [withPort_eng]
    split
    · exact encStep_withPort port (consumed s) _
    · rw [emit_withPort, flush_withPort, compressResult_withPort]
  · unfold uncompressLoop
    rw [withPort_eng, withPort_params, withPort_brCode]
    split
    · exact uncompressEnd_withPort port s
    · dsimp only
      split
      · rfl
      case h_2 cur _ => exact uncompressAppend_withPort port (resolved cur s) _ cur

end

/-! ## A run that the platform's answers do not disturb -/

/-- The platform's answers of the turn neither end the running command nor keep it waiting (R258, R286). -/
structure State.Undisturbed (s : State) : Prop where
  answered : s.Answered
  noError  : s.busError = false

theorem State.Undisturbed.onPort {s : State} (h : s.Undisturbed) (next : State) : s.onPort next = next := by
  simp [State.onPort, h.noError, h.answered.stalled]

theorem Kept.undisturbed {s t : State} (k : Kept s t) (h : s.Undisturbed) : t.Undisturbed where
  answered := by
    rw [State.Answered, k.port, k.lLen]
    exact h.answered
  noError := by
    rw [State.busError, k.port, k.rejected]
    exact h.noError

/-- Where every access completes, nothing disturbs. -/
theorem withPort_completes_undisturbed (s : State) : (s.withPort .completes).Undisturbed :=
  ⟨.inl PortAnswer.noConfusion, rfl⟩

theorem engineStep_withPort {port : PortAnswer} {s : State} (h : s.Undisturbed) (h' : (s.withPort port).Undisturbed) :
    engineStep (s.withPort port) = (engineStep s).withPort port := by
  unfold engineStep
  rw [withPort_eng, h.onPort, h.onPort, h'.onPort, h'.onPort, engineChecks_withPort, engineStart_withPort,
    engineLoop_withPort]
  split
  · rfl
  · split <;> rfl

/-- Answers that do not disturb a run change nothing but themselves. -/
theorem engineRun_withPort (n : Nat) {port : PortAnswer} {s : State} (h : s.Undisturbed)
    (h' : (s.withPort port).Undisturbed) : engineRun n (s.withPort port) = (engineRun n s).withPort port := by
  induction n generalizing s with
  | zero => rfl
  | succ n ih =>
    have hstep := engineStep_withPort h h'
    rw [engineRun, hstep, ih ((engineStep_kept s).undisturbed h), engineRun]
    rw [← hstep]
    exact (engineStep_kept _).undisturbed h'

/-! ## An error on a command's windows -/

/-- An accepted command whose operands pass the checks is ended by the error at the first step of its pass (R286). -/
theorem engineRun_accept_busError {op : Op} {s : State} {n : Nat} (hn : 2 ≤ n)
    (hl : operandsLegal op s.regs.srcAddr s.regs.srcLen s.regs.dstAddr s.regs.dstCap s.regs.ratio = true)
    (he : (accept op s).busError = true) : engineRun n (accept op s) = finish .errBus (started op s) := by
  have hchecks : engineStep (accept op s) = started op s := engineStep_checks _ rfl rfl hl
  have hstart : engineStep (started op s) = finish .errBus (started op s) := if_pos he
  have hrun : engineRun 2 (accept op s) = finish .errBus (started op s) := by
    rw [engineRun, engineRun, hchecks, hstart, engineRun]
  rw [engineRun_of_le hn _ (by rw [hrun]; rfl), hrun]

theorem accept_busError (op : Op) (s : State) : (accept op s).busError = true ↔
    s.env.port = .error ∧ windowsRejected s.env.platform s.regs.srcAddr.toNat s.regs.srcLen.toNat s.regs.dstAddr.toNat
      s.regs.dstCap.toNat = true :=
  (Bool.and_eq_true_iff ..).trans (and_congr_left' decide_eq_true_iff)

/-- Settles O52: an error on the windows ends the command at its pass's first step, and one that cannot reach them changes
nothing of the run. -/
theorem busErrorOrTheErrorFreeOutcome : Obligations.BusErrorOrTheErrorFreeOutcome := by
  unfold Obligations.BusErrorOrTheErrorFreeOutcome
  refine ⟨windowsRejected_iff, fun s i op hi hready hpace hanswered => ?_⟩
  have hexec : ∀ port, exec i (s.withPort port) = .next (engineRun s.env.pace ((accept op s).withPort port)) := by
    intro port
    rw [exec_of_op hi, issue_accepts op (s.withPort port) hready.idle hready.offRegs]
    rfl
  refine ⟨engineRun s.env.pace (accept op s), engineRun s.env.pace ((accept op s).withPort .completes),
    hexec s.env.port, hexec .completes, ?_⟩
  cases he : (accept op s).busError with
  | true =>
    left
    obtain ⟨hport, hrejected⟩ := (accept_busError op s).mp he
    have hsteps : 2 ≤ s.env.pace := by unfold stepBound at hpace; omega
    rw [engineRun_accept_busError (s := s) hsteps hready.legal he]
    exact ⟨rfl, rfl, rfl, rfl, hport, hrejected⟩
  | false =>
    right
    have hundisturbed : (accept op s).Undisturbed := ⟨hanswered, he⟩
    rw [engineRun_withPort s.env.pace hundisturbed (withPort_completes_undisturbed _), withPort_regs, withPort_mem]
    refine ⟨rfl, rfl, ?_⟩
    have hnot := mt (accept_busError op s).mpr (by rw [he]; decide)
    rwa [not_and_or, Bool.not_eq_true] at hnot

end Sys2Proof.Machine

/-! What a command does depends on nothing the engine or the results held before it (spec/70_reset_and_hazards.md R324,
spec/10_state.md R41): the engine's registers that bear on what is still to come are a function of the engine
(`Engine.live`), a step is determined by them, and acceptance sets them all. -/

namespace Sys2Proof.Machine

/-! ## The registers that bear on what is still to come -/

/-- The latched command (R39) and the engine's place in its sequence, every other register cleared. -/
def Engine.latched (e : Engine) : Engine :=
  { Engine.reset with
    busy := e.busy, op := e.op, stage := e.stage
    lSrc := e.lSrc, lLen := e.lLen, lDst := e.lDst, lCap := e.lCap, lRatio := e.lRatio }

/-- The engine without the registers that COMPRESS does not use. -/
def Engine.encoderPart (e : Engine) : Engine := { e with prev := 0, bitpos := 0 }

/-- The engine without the encoder's registers, and with `prev` as the previous code. -/
def Engine.decoderWith (prev : Nat) (e : Engine) : Engine := { e with S := 0, k := 0, acc := 0, nacc := 0, prev := prev }

/-- The engine without the registers that UNCOMPRESS does not use; before the first code is read the previous code is one
of them. -/
def Engine.decoderPart (e : Engine) : Engine := e.decoderWith (if e.i = 0 then 0 else e.prev)

/-- The engine with every register cleared that bears on nothing any more: all of them in an idle engine (R41), and all
but the latched command before the pass has begun. -/
def Engine.live (e : Engine) : Engine :=
  if e.busy = false then Engine.reset
  else match e.stage, e.op with
    | .checks, _          => e.latched
    | .start, _           => e.latched
    | .loop, .compress    => e.encoderPart
    | .loop, .uncompress  => e.decoderPart

/-- The machine with its engine changed. -/
def State.mapEng (f : Engine → Engine) (s : State) : State := { s with eng := f s.eng }

/-- The machine as far as it bears on what is still to come. -/
def State.live (s : State) : State := s.mapEng Engine.live

section
variable (f : Engine → Engine) (s : State)

@[simp] theorem mapEng_params : (s.mapEng f).params = s.params := rfl
@[simp] theorem mapEng_regs : (s.mapEng f).regs = s.regs := rfl
@[simp] theorem mapEng_eng : (s.mapEng f).eng = f s.eng := rfl
@[simp] theorem mapEng_mem : (s.mapEng f).mem = s.mem := rfl
@[simp] theorem mapEng_env : (s.mapEng f).env = s.env := rfl

end

theorem mapEng_eq_of_eng {f g : Engine → Engine} {s : State} (h : f s.eng = g s.eng) : s.mapEng f = s.mapEng g :=
  congrArg (fun e => { s with eng := e }) h

theorem Engine.live_busy (e : Engine) : e.live.busy = e.busy := by
  unfold Engine.live
  split
  case isTrue hb => exact hb.symm
  · split <;> rfl

theorem State.live_idle {s : State} (hb : s.eng.busy = false) : s.live = s.mapEng fun _ => Engine.reset :=
  mapEng_eq_of_eng (if_pos hb)

theorem State.live_checks {s : State} (hb : s.eng.busy = true) (hs : s.eng.stage = .checks) :
    s.live = s.mapEng Engine.latched := mapEng_eq_of_eng (by simp [Engine.live, hb, hs])

theorem State.live_start {s : State} (hb : s.eng.busy = true) (hs : s.eng.stage = .start) :
    s.live = s.mapEng Engine.latched := mapEng_eq_of_eng (by simp [Engine.live, hb, hs])

theorem State.live_encoder {s : State} (hb : s.eng.busy = true) (hs : s.eng.stage = .loop) (ho : s.eng.op = .compress) :
    s.live = s.mapEng Engine.encoderPart := mapEng_eq_of_eng (by simp [Engine.live, hb, hs, ho])

theorem State.live_decoder {s : State} (hb : s.eng.busy = true) (hs : s.eng.stage = .loop) (ho : s.eng.op = .uncompress) :
    s.live = s.mapEng Engine.decoderPart := mapEng_eq_of_eng (by simp [Engine.live, hb, hs, ho])

/-- Before its pass has begun nothing but the latched command bears on a command. -/
theorem live_mapEng_latched {s : State} (hs : s.eng.stage ≠ .loop) : (s.mapEng Engine.latched).live = s.live := by
  refine congrArg (fun e => { s with eng := e }) (?_ : s.eng.latched.live = s.eng.live)
  cases hb : s.eng.busy with
  | false => simp [Engine.live, Engine.latched, hb]
  | true =>
    cases hstage : s.eng.stage with
    | loop => exact absurd hstage hs
    | checks | start => simp [Engine.live, Engine.latched, hb, hstage]

/-- What COMPRESS does not use bears on nothing wherever it stands. -/
theorem live_mapEng_encoderPart {s : State} (ho : s.eng.op = .compress) : (s.mapEng Engine.encoderPart).live = s.live := by
  refine congrArg (fun e => { s with eng := e }) (?_ : s.eng.encoderPart.live = s.eng.live)
  cases hb : s.eng.busy with
  | false => simp [Engine.live, Engine.encoderPart, hb]
  | true => cases hs : s.eng.stage <;> simp [Engine.live, Engine.encoderPart, Engine.latched, hb, hs, ho]

/-- What UNCOMPRESS does not use bears on nothing wherever it stands. -/
theorem live_mapEng_decoderPart {s : State} (ho : s.eng.op = .uncompress) : (s.mapEng Engine.decoderPart).live = s.live := by
  refine congrArg (fun e => { s with eng := e }) (?_ : s.eng.decoderPart.live = s.eng.live)
  cases hb : s.eng.busy with
  | false => simp [Engine.live, Engine.decoderPart, Engine.decoderWith, hb]
  | true =>
    cases hs : s.eng.stage <;>
      simp +contextual [Engine.live, Engine.decoderPart, Engine.decoderWith, Engine.latched, hb, hs, ho]

theorem live_eq_of_encoderPart {s t : State} (hs : s.eng.op = .compress) (ht : t.eng.op = .compress)
    (h : s.mapEng Engine.encoderPart = t.mapEng Engine.encoderPart) : s.live = t.live := by
  rw [← live_mapEng_encoderPart hs, h, live_mapEng_encoderPart ht]

theorem live_eq_of_decoderPart {s t : State} (hs : s.eng.op = .uncompress) (ht : t.eng.op = .uncompress)
    (h : s.mapEng Engine.decoderPart = t.mapEng Engine.decoderPart) : s.live = t.live := by
  rw [← live_mapEng_decoderPart hs, h, live_mapEng_decoderPart ht]

/-! ## Completion -/

/-- A completion depends on the latched operands alone of the engine, and leaves an idle engine. -/
theorem live_finish_mapEng {f : Engine → Engine} {s : State} (h : (f s.eng).latched = s.eng.latched) (r : Result) :
    (finish r (s.mapEng f)).live = (finish r s).live := by
  have htarget : (f s.eng).target = s.eng.target := (congrArg Engine.target h :)
  have hdst : (f s.eng).lDst = s.eng.lDst := (congrArg Engine.lDst h :)
  have hwritten : (s.mapEng f).written r = s.written r := by
    unfold State.written
    rw [mapEng_eng, mapEng_regs, htarget, hdst]
  rw [State.live_idle (s := finish r (s.mapEng f)) rfl, State.live_idle (s := finish r s) rfl]
  unfold finish
  rw [hwritten]
  rfl

/-- So does the result COMPRESS decides on, which also takes the output's length. -/
theorem live_compressResult_mapEng {f : Engine → Engine} {s : State} (h : (f s.eng).latched = s.eng.latched)
    (holen : (f s.eng).olen = s.eng.olen) : (compressResult (s.mapEng f)).live = (compressResult s).live := by
  have hlen : (f s.eng).lLen = s.eng.lLen := (congrArg Engine.lLen h :)
  have hcap : (f s.eng).lCap = s.eng.lCap := (congrArg Engine.lCap h :)
  rw [compressResult_eq, compressResult_eq, mapEng_eng, hlen, hcap, holen]
  split
  · exact live_finish_mapEng (s := { s with regs := { s.regs with outLen := BitVec.ofNat 32 s.eng.olen } }) h _
  · exact live_finish_mapEng h _

/-! ## The encoder's loop -/

section
variable (s : State)

theorem drain_encoderPart (n : Nat) : drain n (s.mapEng Engine.encoderPart) = (drain n s).mapEng Engine.encoderPart := by
  induction n generalizing s with
  | zero => rfl
  | succ n ih => exact ih (drainByte s)

theorem emit_encoderPart (c : Nat) : emit c (s.mapEng Engine.encoderPart) = (emit c s).mapEng Engine.encoderPart := by
  have hpend : pend c (s.mapEng Engine.encoderPart) = (pend c s).mapEng Engine.encoderPart := rfl
  rw [emit_eq, emit_eq, hpend, drain_encoderPart]
  rfl

theorem flush_encoderPart : flush (s.mapEng Engine.encoderPart) = (flush s).mapEng Engine.encoderPart := by
  have hnacc : (s.mapEng Engine.encoderPart).eng.nacc = s.eng.nacc := rfl
  unfold flush
  rw [hnacc]
  split <;> rfl

theorem encStep_encoderPart (b : Byte) :
    encStep b (s.mapEng Engine.encoderPart) = (encStep b s).mapEng Engine.encoderPart := by
  have hmatch : (s.mapEng Engine.encoderPart).eng.S = s.eng.S := rfl
  have htable : (s.mapEng Engine.encoderPart).eng.table = s.eng.table := rfl
  unfold encStep
  rw [hmatch, htable, emit_encoderPart]
  split <;> rfl

end

theorem live_compressLoop_encoderPart {s : State} (ho : s.eng.op = .compress) :
    (compressLoop (s.mapEng Engine.encoderPart)).live = (compressLoop s).live := by
  have hk : (s.mapEng Engine.encoderPart).eng.k = s.eng.k := rfl
  have hlen : (s.mapEng Engine.encoderPart).eng.lLen = s.eng.lLen := rfl
  have hS : (s.mapEng Engine.encoderPart).eng.S = s.eng.S := rfl
  unfold compressLoop
  rw [hk, hlen]
  split
  · have hstep := encStep_encoderPart (consumed s) (s.engineRead (s.eng.lSrc.toNat + s.eng.k))
    have hop : (encStep (s.engineRead (s.eng.lSrc.toNat + s.eng.k)) (consumed s)).eng.op = .compress :=
      (encStep_goes _ (consumed s)).op.trans ho
    exact (congrArg State.live hstep).trans (live_mapEng_encoderPart hop)
  · rw [hS, emit_encoderPart, flush_encoderPart]
    exact live_compressResult_mapEng rfl rfl

/-! ## The decoder's loop -/

/-- The first code of a stream is a literal, whatever the previous code (R130). -/
theorem dictResolve_prev (p : Params) (t : List Entry) (i c prev : Nat) :
    dictResolve p t i c (if i = 0 then 0 else prev) = dictResolve p t i c prev := by
  cases i <;> rfl

/-- After the first code of a stream nothing is inserted (R128). -/
theorem decGrow_prev (p : Params) (t : List Entry) (i prev : Nat) (cur : List Byte) :
    decGrow p t i (if i = 0 then 0 else prev) cur = decGrow p t i prev cur := by
  cases i <;> rfl

/-- A code that is appended becomes the previous code (R213), so what that was bears on nothing. -/
theorem live_uncompressAppend_decoderWith (c prev : Nat) (cur : List Byte) {s : State} (ho : s.eng.op = .uncompress) :
    (uncompressAppend c cur (s.mapEng (Engine.decoderWith prev))).live = (uncompressAppend c cur s).live := by
  have hguard : (s.mapEng (Engine.decoderWith prev)).guard = s.guard := rfl
  have holen : (s.mapEng (Engine.decoderWith prev)).eng.olen = s.eng.olen := rfl
  rw [uncompressAppend_eq, uncompressAppend_eq, hguard, holen]
  split
  · exact live_finish_mapEng rfl _
  · exact live_eq_of_decoderPart ho ho rfl

theorem resolved_decoderPart (cur : List Byte) (s : State) : resolved cur (s.mapEng Engine.decoderPart) =
    (resolved cur s).mapEng (Engine.decoderWith s.eng.decoderPart.prev) :=
  congrArg (fun t => { brAdvance (s.mapEng Engine.decoderPart) with
      eng := { (brAdvance (s.mapEng Engine.decoderPart)).eng with table := t } })
    (decGrow_prev s.params s.eng.table s.eng.i s.eng.prev cur)

theorem live_uncompressEnd_decoderPart (s : State) :
    (uncompressEnd (s.mapEng Engine.decoderPart)).live = (uncompressEnd s).live := by
  have havail : brAvail (s.mapEng Engine.decoderPart).eng = brAvail s.eng := rfl
  unfold uncompressEnd
  rw [havail]
  split
  · exact live_finish_mapEng (f := Engine.decoderPart)
      (s := { s with regs := { s.regs with outLen := BitVec.ofNat 32 s.eng.olen } }) rfl _
  · exact live_finish_mapEng rfl _

theorem live_uncompressLoop_decoderPart {s : State} (ho : s.eng.op = .uncompress) :
    (uncompressLoop (s.mapEng Engine.decoderPart)).live = (uncompressLoop s).live := by
  have havail : brAvail (s.mapEng Engine.decoderPart).eng = brAvail s.eng := rfl
  have hi : (s.mapEng Engine.decoderPart).eng.i = s.eng.i := rfl
  have htable : (s.mapEng Engine.decoderPart).eng.table = s.eng.table := rfl
  have hprev : (s.mapEng Engine.decoderPart).eng.prev = if s.eng.i = 0 then 0 else s.eng.prev := rfl
  have hcode : brCode (s.mapEng Engine.decoderPart) = brCode s := rfl
  unfold uncompressLoop
  dsimp only
  rw [havail, hi, mapEng_params, hcode, htable, hprev, dictResolve_prev]
  split
  · exact live_uncompressEnd_decoderPart s
  · split
    · exact live_finish_mapEng (f := Engine.decoderWith s.eng.decoderPart.prev) (s := brAdvance s) rfl _
    case h_2 cur _ =>
      have hresolved := resolved_decoderPart cur s
      exact (congrArg (fun u => (uncompressAppend (brCode s) cur u).live) hresolved).trans
        (live_uncompressAppend_decoderWith (s := resolved cur s) _ _ cur ho)

/-! ## One step, and a run -/

theorem live_onPort {f : Engine → Engine} {s next next' : State} (hf : (f s.eng).latched = s.eng.latched)
    (haccesses : (f s.eng).accesses s.params = s.eng.accesses s.params) (hs : (s.mapEng f).live = s.live)
    (hnext : next'.live = next.live) : ((s.mapEng f).onPort next').live = (s.onPort next).live := by
  have herror : (s.mapEng f).busError = s.busError :=
    congrArg (fun b => decide (s.env.port = .error) && b) (congrArg (fun e => Engine.rejected e s.env.platform) hf :)
  have hstalled : (s.mapEng f).stalled = s.stalled := congrArg (decide (s.env.port = .pending) && ·) haccesses
  unfold State.onPort
  rw [herror, hstalled]
  split
  · exact live_finish_mapEng hf _
  · split
    · exact hs
    · exact hnext

theorem live_engineChecks_latched (s : State) :
    (engineChecks (s.mapEng Engine.latched)).live = (engineChecks s).live := by
  have hok : (s.mapEng Engine.latched).eng.configOk = s.eng.configOk := rfl
  unfold engineChecks
  rw [hok]
  split
  · exact live_mapEng_latched (s := { s with eng := { s.eng with stage := .start } }) Stage.noConfusion
  · exact live_finish_mapEng rfl _

theorem live_compressStart_latched {s : State} (ho : s.eng.op = .compress) :
    (compressStart (s.mapEng Engine.latched)).live = (compressStart s).live := by
  have hlen : (s.mapEng Engine.latched).eng.lLen = s.eng.lLen := rfl
  unfold compressStart
  dsimp only
  rw [hlen]
  split
  · exact live_compressResult_mapEng (f := Engine.latched)
      (s := { s with eng := { s.eng with table := [], acc := 0, nacc := 0, olen := 0, i := 0 } }) rfl rfl
  · exact live_eq_of_encoderPart ho ho rfl

/-- The pass's start sets every register the pass uses (R181, R213). -/
theorem live_engineStart_latched (s : State) :
    (engineStart (s.mapEng Engine.latched)).live = (engineStart s).live := by
  have hop : (s.mapEng Engine.latched).eng.op = s.eng.op := rfl
  unfold engineStart
  rw [hop]
  split
  case h_1 ho => exact live_compressStart_latched ho
  case h_2 ho => exact live_eq_of_decoderPart ho ho rfl

theorem accesses_encoder {e : Engine} (hs : e.stage = .loop) (ho : e.op = .compress) (p : Params) :
    e.accesses p = (decide (e.lLen ≠ 0) && (decide (e.k < e.lLen.toNat) || decide (e.olen < e.lCap.toNat))) := by
  simp [Engine.accesses, hs, ho]

theorem accesses_decoder {e : Engine} (hs : e.stage = .loop) (ho : e.op = .uncompress) (p : Params) :
    e.accesses p = (decide (e.lLen ≠ 0) && decide (codeWidth p e.i ≤ brAvail e)) := by
  simp [Engine.accesses, hs, ho]

theorem engineStep_of_checks {s : State} (hb : s.eng.busy = true) (hs : s.eng.stage = .checks) :
    engineStep s = engineChecks s := by simp [engineStep, hb, hs]

theorem engineStep_of_start {s : State} (hb : s.eng.busy = true) (hs : s.eng.stage = .start) :
    engineStep s = s.onPort (engineStart s) := by simp [engineStep, hb, hs]

theorem engineStep_of_encoder {s : State} (hb : s.eng.busy = true) (hs : s.eng.stage = .loop) (ho : s.eng.op = .compress) :
    engineStep s = s.onPort (compressLoop s) := by simp [engineStep, engineLoop, hb, hs, ho]

theorem engineStep_of_decoder {s : State} (hb : s.eng.busy = true) (hs : s.eng.stage = .loop)
    (ho : s.eng.op = .uncompress) : engineStep s = s.onPort (uncompressLoop s) := by
  simp [engineStep, engineLoop, hb, hs, ho]

/-- What a step does to what bears on the rest is a function of what bears on the rest. -/
theorem engineStep_live (s : State) : (engineStep s.live).live = (engineStep s).live := by
  cases hb : s.eng.busy with
  | false =>
    have hidle : s.live.eng.busy = false := s.eng.live_busy.trans hb
    rw [engineStep_idle s hb, engineStep_idle _ hidle, State.live_idle hidle, State.live_idle hb]
    rfl
  | true =>
    cases hs : s.eng.stage with
    | checks =>
      rw [State.live_checks hb hs, engineStep_of_checks (s := s.mapEng Engine.latched) hb hs, engineStep_of_checks hb hs]
      exact live_engineChecks_latched s
    | start =>
      rw [State.live_start hb hs, engineStep_of_start (s := s.mapEng Engine.latched) hb hs, engineStep_of_start hb hs]
      have haccesses : s.eng.latched.accesses s.params = s.eng.accesses s.params := by
        cases ho : s.eng.op <;> simp [Engine.accesses, Engine.latched, hs, ho]
      exact live_onPort rfl haccesses (live_mapEng_latched (by simp [hs])) (live_engineStart_latched s)
    | loop =>
      cases ho : s.eng.op with
      | compress =>
        rw [State.live_encoder hb hs ho, engineStep_of_encoder (s := s.mapEng Engine.encoderPart) hb hs ho,
          engineStep_of_encoder hb hs ho]
        have haccesses : s.eng.encoderPart.accesses s.params = s.eng.accesses s.params :=
          (accesses_encoder (e := s.eng.encoderPart) hs ho _).trans (accesses_encoder hs ho _).symm
        exact live_onPort rfl haccesses (live_mapEng_encoderPart ho) (live_compressLoop_encoderPart ho)
      | uncompress =>
        rw [State.live_decoder hb hs ho, engineStep_of_decoder (s := s.mapEng Engine.decoderPart) hb hs ho,
          engineStep_of_decoder hb hs ho]
        have haccesses : s.eng.decoderPart.accesses s.params = s.eng.accesses s.params :=
          (accesses_decoder (e := s.eng.decoderPart) hs ho _).trans (accesses_decoder hs ho _).symm
        exact live_onPort rfl haccesses (live_mapEng_decoderPart ho) (live_uncompressLoop_decoderPart ho)

theorem engineRun_live_congr (n : Nat) {s s' : State} (h : s.live = s'.live) :
    (engineRun n s).live = (engineRun n s').live := by
  induction n generalizing s s' with
  | zero => exact h
  | succ n ih =>
    refine ih (?_ : (engineStep s).live = (engineStep s').live)
    rw [← engineStep_live s, h, engineStep_live s']

/-! ## Acceptance -/

/-- Acceptance sets all that bears on the command (R252). -/
theorem live_accept (op : Op) {s s' : State} (hparams : s.params = s'.params) (hmem : s.mem = s'.mem)
    (henv : s.env = s'.env)
    (hregs : s.regs = { s'.regs with done := s.regs.done, result := s.regs.result, outLen := s.regs.outLen }) :
    (accept op s).live = (accept op s').live := by
  rw [State.live_checks (s := accept op s) rfl rfl, State.live_checks (s := accept op s') rfl rfl]
  unfold accept
  rw [hparams, hmem, henv, hregs]
  rfl

/-- What bears on the rest shows all that the host can see. -/
theorem seen_of_live {t t' : State} (h : t.live = t'.live) :
    t.regs = t'.regs ∧ t.mem = t'.mem ∧ t.env = t'.env ∧ t.eng.busy = t'.eng.busy := by
  have hbusy : t.eng.live.busy = t'.eng.live.busy := congrArg (fun s => s.eng.busy) h
  rw [Engine.live_busy, Engine.live_busy] at hbusy
  exact ⟨(congrArg State.regs h :), (congrArg State.mem h :), (congrArg State.env h :), hbusy⟩

/-- Settles O54: acceptance leaves no trace of the earlier engine in what bears on the command (`live_accept`), and no
engine step looks at anything else (`engineStep_live`). -/
theorem commandsDependOnNoEarlierCommand : Obligations.CommandsDependOnNoEarlierCommand := by
  unfold Obligations.CommandsDependOnNoEarlierCommand
  intro s s' i hi hb hb' hparams hmem henv hregs hw
  obtain ⟨op, hop⟩ : ∃ op : Op, (i = .compress ∧ op = .compress) ∨ (i = .uncompress ∧ op = .uncompress) := by
    rcases hi with rfl | rfl
    · exact ⟨.compress, .inl ⟨rfl, rfl⟩⟩
    · exact ⟨.uncompress, .inr ⟨rfl, rfl⟩⟩
  have hexec : exec i s = .next (engineRun s.env.pace (accept op s)) := by
    rw [exec_of_op hop, issue_accepts op s hb hw]
    rfl
  have hexec' : exec i s' = .next (engineRun s.env.pace (accept op s')) := by
    rw [henv, hregs] at hw
    rw [exec_of_op hop, issue_accepts op s' hb' hw, henv]
    rfl
  exact ⟨_, _, hexec, hexec', seen_of_live (engineRun_live_congr _ (live_accept op hparams hmem henv hregs))⟩

end Sys2Proof.Machine

/-! Reset, and the host's setup of a command (spec/70_reset_and_hazards.md R320 to R332, spec/30_encoding.md R104). -/

namespace Sys2Proof.Machine

/-! ## A reset event (R320, R322) -/

theorem resetCore_status (s : State) : (resetCore s).status = 0 :=
  (by decide : statusWord false false .none = 0)

/-- The engine steps of the turn find an idle engine. -/
theorem step_reset {s : State} {t : Turn} {rest : List Turn} (h : s.env.agenda = t :: rest) (hm : t.move = .reset) :
    step s = .next (resetCore s.beginTurn) := by
  rw [step_of_agenda h, applyMove, hm]
  exact settle_idle _ rfl

/-- Settles O6: the turn is its reset event, and `read_resetCore` says what that leaves at an address. -/
theorem resetEventAtAnyTime : Obligations.ResetEventAtAnyTime := by
  unfold Obligations.ResetEventAtAnyTime
  intro s pace port rest h
  obtain ⟨hparams, hagenda, -, hplatform⟩ := resetCore_kept s.beginTurn
  refine ⟨_, step_reset h rfl, rfl, rfl, resetCore_status _, rfl, hparams, hplatform,
    hagenda.trans (beginTurn_agenda_of_agenda h),
    fun hb => ?idle, fun hb a hdst hsrc ha => ?window, fun a hdst htouched => ?outside, fun a hsrc htouched => ?source⟩
  case idle => rw [resetCore_idle (s := s.beginTurn) hb, beginTurn_mem]
  case window =>
    rw [read_resetCore, if_pos]
    · rfl
    · exact ⟨hb, .inr ⟨hdst, hsrc⟩, ha⟩
  case outside =>
    rw [read_resetCore, if_neg, beginTurn_mem]
    rintro ⟨-, hopen | ⟨hin, -⟩, -⟩
    · exact htouched hopen
    · exact Bool.false_ne_true (hdst.symm.trans hin)
  case source =>
    rw [read_resetCore, if_neg, beginTurn_mem]
    rintro ⟨-, hopen | ⟨-, hnot⟩, -⟩
    · exact htouched hopen
    · exact Bool.false_ne_true (hnot.symm.trans hsrc)

/-! ## The state after reset (R321) -/

/-- Settles O5: at an offset other than PARAM's the read takes a register that reset clears, or none (`readReg_eq`). -/
theorem resetValues : Obligations.ResetValues := by
  unfold Obligations.ResetValues
  refine ⟨by decide, fun o ho => ?_, rfl, rfl, rfl⟩
  cases hr : regAt o with
  | none => rw [State.readReg, hr]
  | some r =>
    obtain rfl := eq_regOffset_of_regAt hr
    cases r with
    | param => exact absurd rfl ho
    | _ => rfl

/-- Cleared registers fit every width (R38). -/
theorem Engine.reset_fits (p : Params) : Engine.reset.Fits p := by
  have hsize := p.dictSize_ge
  have hfree : freeOf Engine.reset.table = 256 := rfl
  constructor
  case table => omega
  case S => show 0 < p.dictSize; omega
  case prev => show 0 < p.dictSize; omega
  all_goals exact Nat.two_pow_pos _

/-- Settles O47: memory lists nothing, every register of the engine is clear, and no command runs. -/
theorem resetMeetsInvariant : Obligations.ResetMeetsInvariant :=
  { mem := rfl, fits := Engine.reset_fits _, clear := nofun, run := nofun }

/-! ## SETUP and START (R104, R332) -/

/-- The registers after writes to named registers other than CMD, in order. -/
def Regs.writes (r : Regs) (ws : List (Reg × Word)) : Regs := ws.foldl (fun r w => r.write (regOffset w.1) w.2) r

/-- WR32 of a register other than CMD on an idle core is its effect on the registers. -/
theorem step_wr32 {s : State} {t : Turn} {rest : List Turn} {r : Reg} {v : Word} (h : s.env.agenda = t :: rest)
    (hm : t.move = wr32 r v) (hr : r ≠ .cmd) (hb : s.eng.busy = false) :
    step s = .next { s.beginTurn with regs := s.regs.write (regOffset r) v } := by
  have hcmd : regOffset r ≠ 0x08 := fun ho =>
    hr (Option.some.inj ((regAt_regOffset r).symm.trans (congrArg regAt ho)))
  rw [step_write h hm (by cases r <;> rfl) (by cases r <;> decide), hostWrite_of_ne_cmd hcmd]
  exact settle_idle _ hb

/-- A host program of register writes, none of them CMD, on an idle core: its turns change the registers alone. -/
theorem run_wr32 {pace : Nat} {ws : List (Reg × Word)} (hcmd : ∀ w ∈ ws, w.1 ≠ .cmd) {s : State} {rest : List Turn}
    (hb : s.eng.busy = false) (h : s.env.agenda = program pace (ws.map fun w => wr32 w.1 w.2) ++ rest) (k : Nat) :
    ∃ u : State, Host.Core.run Sys2Proof.core (ws.length + k) s = Host.Core.run Sys2Proof.core k u ∧
      u.regs = s.regs.writes ws ∧ u.eng = s.eng ∧ u.mem = s.mem ∧ u.env.platform = s.env.platform ∧
      u.env.agenda = rest := by
  induction ws generalizing s with
  | nil => exact ⟨s, by rw [List.length_nil, Nat.zero_add], rfl, rfl, rfl, rfl, h⟩
  | cons w ws ih =>
    have hstep := step_wr32 h rfl (hcmd w List.mem_cons_self) hb
    obtain ⟨u, hrun, hu⟩ := ih (fun x hx => hcmd x (List.mem_cons_of_mem w hx))
      (s := { s.beginTurn with regs := s.regs.write (regOffset w.1) w.2 }) hb (beginTurn_agenda_of_agenda h)
    exact ⟨u, by rw [List.length_cons, Nat.succ_add_eq_add_succ, Nat.add_succ, run_succ hstep, hrun], hu⟩

/-- SETUP's writes (R104). -/
def setupWrites (src len dst cap ratio : Word) : List (Reg × Word) :=
  [(.srcAddr, src), (.srcLen, len), (.dstAddr, dst), (.dstCap, cap), (.ratio, ratio)]

theorem setupMoves_eq (src len dst cap ratio : Word) :
    setupMoves src len dst cap ratio = (setupWrites src len dst cap ratio).map fun w => wr32 w.1 w.2 := rfl

theorem writes_setupWrites (r : Regs) (src len dst cap ratio : Word) : r.writes (setupWrites src len dst cap ratio) =
    { r with srcAddr := src, srcLen := len, dstAddr := dst, dstCap := cap, ratio := ratio } := rfl

theorem windowsOnRegisters_of_unmapped {pl : Platform} (h : pl.mapsRegisters = false) (src len dst cap : Nat) :
    windowsOnRegisters pl src len dst cap = false := by
  simp [windowsOnRegisters, h]

theorem accept_status (op : Op) (s : State) : (accept op s).status = 0x00000001 :=
  (by decide : statusWord true false .none = 0x00000001)

/-- Settles O19: SETUP's turns write the operand registers (`run_wr32`), and START's turn is an acceptance, which latches
them. -/
theorem setupThenStartLatchesTheValues : Obligations.SetupThenStartLatchesTheValues := by
  unfold Obligations.SetupThenStartLatchesTheValues
  intro s i op src len dst cap ratio rest hi hb hmaps h
  have hsplit : s.env.agenda = program 0 ((setupWrites src len dst cap ratio).map fun w => wr32 w.1 w.2) ++
      { move := wr32 .cmd (encode i), pace := 0, port := .completes } :: rest := h
  obtain ⟨u, hrun, hregs, heng, hmem, hplatform, hagenda⟩ := run_wr32 (by simp [setupWrites]) hb hsplit 1
  have hstart : step u = .next (accept op u.beginTurn) := by
    rw [step_cmd hagenda rfl]
    refine exec_accepts hi (s := u.beginTurn) (by rw [beginTurn_eng, heng, hb]) (beginTurn_pace_of_agenda hagenda) ?_
    exact windowsOnRegisters_of_unmapped (by rw [beginTurn_env_platform, hplatform, hmaps]) ..
  rw [writes_setupWrites] at hregs
  refine ⟨accept op u.beginTurn, hrun.trans (run_succ hstart 0), ?_⟩
  rw [accept_eng, accept_regs, accept_mem, accept_env_agenda, beginTurn_regs, beginTurn_mem, hregs, hmem,
    beginTurn_agenda_of_agenda hagenda]
  exact ⟨accept_status _ _, rfl, rfl, rfl, rfl, rfl, rfl, rfl, rfl, rfl⟩

end Sys2Proof.Machine
